-- ==== Sys2Proof/Word.lean ====
section
/-! DEFINITION. The words of the HPCE: port registers are 32 bits wide (10_state R30), byte cells 8 bits (20_memory R70). -/

namespace Sys2Proof

/-- A port register, a command word, an index cell: a `u32` (00_scope R13). -/
abbrev Word := BitVec 32

/-- A cell of the BYTE memory (20_memory R70). -/
abbrev Byte := BitVec 8

end Sys2Proof
end

