-- ==== Sys2Proof/Config.lean ====
section
/-! DEFINITION. The implementation parameters of 00_scope R8 and the values the spec leaves free. -/

namespace Sys2Proof.Config

/-- The parameter PRNG of 00_scope R8: the generator of the PERM unit (43_permutation R191). -/
inductive Prng where
  /-- The reference generator of R191, the sample generator of the ISO C standard. -/
  | reference
  /-- Any other deterministic generator, known by a number only; its functions are uninterpreted. -/
  | custom (id : Nat)
deriving DecidableEq, Repr

/-- The parameter NUDGE_SRC of 00_scope R8: where a nudge direction bit comes from (42_nudge R182). -/
inductive NudgeSrc where
  /-- A free input of the model (10_state R50, 93_implementation_defined U7). -/
  | draw
  /-- The reference realisation: the reference generator run on NSTATE. -/
  | reference
deriving DecidableEq, Repr

/-- The parameters that fix one HPCE instance (00_scope R8). The four depths and PERM_MAX are `u32`. -/
structure Params where
  pixW : Nat
  pixDepth : Word
  bitDepth : Word
  byteDepth : Word
  idxDepth : Word
  rowsMax : Nat
  permMax : Word
  hash64 : Bool
  charSigned : Bool
  prng : Prng
  nudgeSrc : NudgeSrc
deriving DecidableEq, Repr

/-- The defaults of 00_scope R8. DESIGN CHOICE, safe for a statement over all parameters and unsafe for one about
this instance only: the four depths and PERM_MAX are OPEN in R8 and stand here at the 1024 of 95_test_vectors
(log 3). NUDGE_SRC stands at the free draw (log 5). -/
def Params.default : Params where
  pixW := 16
  pixDepth := 1024
  bitDepth := 1024
  byteDepth := 1024
  idxDepth := 1024
  rowsMax := 16
  permMax := 1024
  hash64 := false
  charSigned := false
  prng := .reference
  nudgeSrc := .draw

/-- FREE VALUE: the `n`-th nudge direction bit when NUDGE_SRC is a draw (93_implementation_defined U7; log 5). -/
opaque freeNudge : Nat → Bool

/-- FREE VALUE: what the `n`-th free draw gives a host read of a cell never written since reset
(93_implementation_defined U4; log 9); the reader keeps the cell's width of it. -/
opaque freeCell : Nat → Word

/-- PARAMETER: `prng_init` of a generator other than the reference (43_permutation R191; log 4). -/
opaque customInit : Nat → Word → Nat

/-- PARAMETER: `prng_next` of a generator other than the reference, before its result is held to `[0, RAND_MAX]`
(43_permutation R191; log 4). -/
opaque customNext : Nat → Nat → Nat × Nat

/-- PARAMETER: `RAND_MAX - 1` of a generator other than the reference, so that RAND_MAX is at least 1
(43_permutation R191; log 4). -/
opaque customRandMaxPred : Nat → Nat

end Sys2Proof.Config
end

