-- ==== Sys2Proof/Syntax.lean ====
section
/-! DEFINITION. The commands of spec/opcode_table.json, and the fields of a command word (30_encoding R100). -/

namespace Sys2Proof

/-- One constructor per row of spec/opcode_table.json (30_encoding R102). A command word carries no operand
(30_encoding R101), so no constructor has an argument; operands are read from ARG0 to ARG3. -/
inductive Instr where
  | nop
  | b2bits
  | bits2b
  | minbits
  | extenc
  | extdec
  | nudge
  | hash
  | permfwdBit
  | permfwdIdx
  | perminvBit
  | perminvIdx
  | permidx
  | hbest
  | hgen
  | hcol
  | hrow
  | hmul
  | hadd
  | hfind
  | hsyn
  | hembed
  | hextract
deriving DecidableEq, Repr

/-- The fields of a command word (30_encoding R100). -/
structure Fields where
  /-- bits 7:0 -/
  opc : BitVec 8
  /-- bit 8 -/
  sp : Bool
  /-- bits 31:9 -/
  rsv : BitVec 23
deriving DecidableEq, Repr

/-- Why a word is no command (30_encoding R104, R105, R107). -/
inductive Illegal where
  /-- OPC is not in the map of R102 (R105). -/
  | badOpcode
  /-- RSV is not 0, or SP is 1 with an OPC other than 0x31 and 0x32 (R104). -/
  | rsvdBits
deriving DecidableEq, Repr

end Sys2Proof
end

