-- ==== Sys2Proof/WellFormed.lean ====
section
/-! DEFINITION. Which command-word fields form a command (30_encoding R104 to R106) and which parameter values are
legal (00_scope R8). -/

namespace Sys2Proof

/-- OPC is assigned (30_encoding R105). -/
abbrev Fields.OpcAssigned (f : Fields) : Prop :=
  f.opc = 0x00 ∨ (0x10 ≤ f.opc ∧ f.opc ≤ 0x14) ∨ f.opc = 0x20 ∨ (0x30 ≤ f.opc ∧ f.opc ≤ 0x33) ∨
    (0x40 ≤ f.opc ∧ f.opc ≤ 0x47) ∨ f.opc = 0x50 ∨ f.opc = 0x51

/-- The reserved bits are 0 (30_encoding R104). -/
abbrev Fields.RsvZero (f : Fields) : Prop := f.rsv = 0

/-- SP is 1 on 0x31 and 0x32 only (30_encoding R103, R104). -/
abbrev Fields.SpLegal (f : Fields) : Prop := f.sp = true → f.opc = 0x31 ∨ f.opc = 0x32

/-- The fields are those of a command: every other word is illegal (30_encoding R106). -/
abbrev Fields.WellFormed (f : Fields) : Prop := f.OpcAssigned ∧ f.RsvZero ∧ f.SpLegal

/-- The parameter values are legal (00_scope R8); the upper bounds of the depths and of PERM_MAX are those of `u32`. -/
abbrev Config.Params.WellFormed (p : Config.Params) : Prop :=
  (1 ≤ p.pixW ∧ p.pixW ≤ 32) ∧ 1 ≤ p.pixDepth.toNat ∧ 40 ≤ p.bitDepth.toNat ∧ 6 ≤ p.byteDepth.toNat ∧
    1 ≤ p.idxDepth.toNat ∧ (2 ≤ p.rowsMax ∧ p.rowsMax ≤ 32) ∧ 1 ≤ p.permMax.toNat

end Sys2Proof
end

