-- ==== Sys2Proof/Decode.lean ====
section
/-! DEFINITION. Decoding a command word, total on every word (30_encoding R107), and the encoder, both written from
30_encoding R100 to R103. -/

namespace Sys2Proof

/-- The fields of a command word (30_encoding R100). -/
def fieldsOf (w : Word) : Fields where
  opc := w.extractLsb' 0 8
  sp := w.getLsbD 8
  rsv := w.extractLsb' 9 23

/-- A field of `n` bits placed in a 32-bit word with its bit 0 at bit `lo`, the other bits 0 (00_scope R14). -/
def placeAt {n : Nat} (lo : Nat) (x : BitVec n) : Word := x.setWidth 32 <<< lo

/-- The word with these fields (30_encoding R100). -/
def wordOf (f : Fields) : Word := placeAt 0 f.opc ||| placeAt 8 (BitVec.ofBool f.sp) ||| placeAt 9 f.rsv

/-- The command an opcode and a space select name, if any (30_encoding R102, R103). -/
def instrAt (opc : BitVec 8) (sp : Bool) : Option Instr :=
  match opc.toNat, sp with
  | 0x00, false => some .nop
  | 0x10, false => some .b2bits
  | 0x11, false => some .bits2b
  | 0x12, false => some .minbits
  | 0x13, false => some .extenc
  | 0x14, false => some .extdec
  | 0x20, false => some .nudge
  | 0x30, false => some .hash
  | 0x31, false => some .permfwdBit
  | 0x31, true => some .permfwdIdx
  | 0x32, false => some .perminvBit
  | 0x32, true => some .perminvIdx
  | 0x33, false => some .permidx
  | 0x40, false => some .hbest
  | 0x41, false => some .hgen
  | 0x42, false => some .hcol
  | 0x43, false => some .hrow
  | 0x44, false => some .hmul
  | 0x45, false => some .hadd
  | 0x46, false => some .hfind
  | 0x47, false => some .hsyn
  | 0x50, false => some .hembed
  | 0x51, false => some .hextract
  | _, _ => none

/-- The decoding function (30_encoding R107): an unassigned OPC is reported before reserved bits, and every assigned
OPC is a command with SP = 0. -/
def decode (w : Word) : Except Illegal Instr :=
  let f := fieldsOf w
  if (instrAt f.opc false).isNone then .error .badOpcode
  else if f.rsv ≠ 0 then .error .rsvdBits
  else
    match instrAt f.opc f.sp with
    | some i => .ok i
    | none => .error .rsvdBits

/-- The opcode of a command (30_encoding R102). -/
def opcodeOf : Instr → BitVec 8
  | .nop => 0x00
  | .b2bits => 0x10
  | .bits2b => 0x11
  | .minbits => 0x12
  | .extenc => 0x13
  | .extdec => 0x14
  | .nudge => 0x20
  | .hash => 0x30
  | .permfwdBit => 0x31
  | .permfwdIdx => 0x31
  | .perminvBit => 0x32
  | .perminvIdx => 0x32
  | .permidx => 0x33
  | .hbest => 0x40
  | .hgen => 0x41
  | .hcol => 0x42
  | .hrow => 0x43
  | .hmul => 0x44
  | .hadd => 0x45
  | .hfind => 0x46
  | .hsyn => 0x47
  | .hembed => 0x50
  | .hextract => 0x51

/-- The space select of a command (30_encoding R103). -/
def spOf : Instr → Bool
  | .permfwdIdx => true
  | .perminvIdx => true
  | .nop | .b2bits | .bits2b | .minbits | .extenc | .extdec | .nudge | .hash | .permfwdBit | .perminvBit | .permidx
  | .hbest | .hgen | .hcol | .hrow | .hmul | .hadd | .hfind | .hsyn | .hembed | .hextract => false

/-- The command word of a command (30_encoding R100, R102, R103). -/
def encode (i : Instr) : Word := wordOf { opc := opcodeOf i, sp := spOf i, rsv := 0 }

/-- The instruction the decoder reads from the word `w`, bit 0 its least significant bit; a command is one 32-bit
word (30_encoding R100), so a row's bits are the whole word. -/
def decodeTableWord (nbits w : Nat) : Option Instr :=
  if nbits ≤ 32 ∧ w < 2 ^ nbits then
    match decode (BitVec.ofNat 32 w) with
    | .ok i => some i
    | .error _ => none
  else none

end Sys2Proof
end

