-- ==== Sys2Proof/Machine/State.lean ====
section
/-! DEFINITION. The state of the HPCE (10_state.md, 20_memory.md), the reasons a step can stop, and the state after
reset (10_state R54). -/

namespace Sys2Proof.Machine

/-- The four local memories (20_memory R70). -/
inductive Space where
  | pix
  | bit
  | byte
  | idx
deriving DecidableEq, Repr

/-- The error kinds of STATUS.KIND (60_exceptions R300). -/
inductive ErrKind where
  | none
  | invalidArgument
  | capacityExceeded
  | internalInvariantViolation
  | resourceExhausted
deriving DecidableEq, Repr

/-- The detail codes of STATUS.DETAIL (60_exceptions R303). -/
inductive Detail where
  | none
  | badOpcode
  | rsvdBits
  | noMatrix
  | codeTooSmall
  | rowsRange
  | colsMismatch
  | colIndex
  | rowIndex
  | maxiZero
  | pixelRange
  | bitValue
  | extTooLong
  | extMalformed
  | streamShort
  | rangeOrder
  | hammingCapacity
  | noColumn
  | pixBounds
  | bitBounds
  | byteBounds
  | idxBounds
  | permLimit
deriving DecidableEq, Repr

/-- The fields of the STATUS register (10_state R32). Its reserved bits read 0 and are not held. -/
structure Status where
  busy : Bool
  err : Bool
  kind : ErrKind
  haf : Bool
  detail : Detail
  lastop : BitVec 8
deriving DecidableEq, Repr

/-- A local memory: the cells written since reset with their values, addresses strictly rising. An unlisted cell
counts as never written and holds no value (10_state R55, 70_reset R341; log 11). -/
abbrev Mem (α : Type) := List (Nat × α)

/-- The canonical form of a memory: addresses strictly rising. -/
abbrev Mem.wf {α : Type} (m : Mem α) : Prop := m.Pairwise fun x y => x.1 < y.1

/-- The three transactions of the host port (20_memory R80); an offset is a byte offset in `[0, 0xFF]`. -/
inductive Transaction where
  | read (off : BitVec 8)
  | write (off : BitVec 8) (w : Word)
  | reset
deriving DecidableEq, Repr

/-- One entry of the total order of host transactions and ENGINE steps (20_memory R90; log 1). -/
inductive Event where
  /-- the host issues this transaction -/
  | transact (t : Transaction)
  /-- the host issues nothing, so the ENGINE takes its step if one is enabled -/
  | engineTurn
deriving DecidableEq, Repr

/-- Why the model stops with a fault. -/
inductive Fault where
  /-- Raised by every command meaning that reads a memory cell never written since reset: the model fault UninitRead of
  10_state R55 and 60_exceptions R309. Safe: the model stops where the hardware would go on with some value. -/
  | uninitRead (sp : Space) (addr : Nat)
deriving DecidableEq, Repr

/-- Why the model gives no meaning. -/
inductive Refusal where
  /-- Raised by `exec` for a command that has no meaning yet. Safe: the model stops. -/
  | notModelled (mnemonic : String)
deriving DecidableEq, Repr

/-- The state of the HPCE and of its host port. -/
structure State where
  /-- the parameters of the instance (00_scope R8, R12); no step writes them (log 3) -/
  cfg : Config.Params
  /-- CMD (10_state R34) -/
  cmd : Word
  /-- PENDING (10_state R51) -/
  pending : Option Word
  /-- STATUS (10_state R32) -/
  status : Status
  /-- ARG0 to ARG3 (10_state R35) -/
  arg0 : Word
  arg1 : Word
  arg2 : Word
  arg3 : Word
  /-- RES0 and RES1 (10_state R37) -/
  res0 : Word
  res1 : Word
  /-- MODCNT (10_state R38) -/
  modcnt : Word
  /-- SEED (10_state R39) -/
  seed : Word
  /-- MAXI, whose bits from PIX_W up are 0 (10_state R40) -/
  maxi : Word
  /-- NSEED (10_state R41) -/
  nseed : Word
  /-- HCFG.HROWS and HCFG.HVALID (10_state R42) -/
  hrows : BitVec 6
  hvalid : Bool
  /-- HCOLS (10_state R43) -/
  hcols : Word
  /-- MSPACE (10_state R45) -/
  mspace : Space
  /-- MADDR (10_state R46) -/
  maddr : Word
  /-- PSTATE, the state of the PERM unit's generator (10_state R48) -/
  pstate : Nat
  /-- DRAWBUF (10_state R49); entry `i` holds the draw of position `start + i` -/
  drawBuf : List Nat
  /-- NSTATE, the state of the nudge reference generator (10_state R50; log 5) -/
  nstate : Word
  /-- the PIX memory; a cell is PIX_W bits, held zero-extended (20_memory R70; log 16) -/
  pix : Mem Word
  /-- the BIT memory (20_memory R70) -/
  bit : Mem Bool
  /-- the BYTE memory (20_memory R70) -/
  byte : List Host.Cell
  /-- the IDX memory (20_memory R70) -/
  idx : Mem Word
  /-- HAZ, the model's host-hazard fault bit (10_state R52); a run goes on with it set (log 20) -/
  haz : Bool
  /-- the model's own: a CMD write was made and no STATUS read has returned BUSY = 0 since, the interval in which the host
  owes R345's duty; no step depends on it, and claims premise the duty (`State.waitsForCompletion`; 70_reset R345; log 7) -/
  awaitPoll : Bool
  /-- the model's own: how many free values have been drawn (log 12) -/
  drawCount : Nat
  /-- the model's own: the host events still to come, first first (log 1) -/
  inbox : List Event
  /-- the model's own: the values host reads returned, newest first (30_encoding R108; log 12) -/
  trace : List Word
deriving DecidableEq, Repr

/-- The STATUS register after reset: 0 (10_state R54). -/
def Status.reset : Status where
  busy := false
  err := false
  kind := .none
  haf := false
  detail := .none
  lastop := 0

/-- The state after reset (10_state R54). PSTATE and DRAWBUF are unspecified there and stand at 0 and empty
(DESIGN CHOICE, log 10); HAZ is 0 at the start of a run (70_reset R354, log 7); the parameters are those of
`Config.Params.default` (log 3). -/
def State.reset : State where
  cfg := Config.Params.default
  cmd := 0
  pending := none
  status := Status.reset
  arg0 := 0
  arg1 := 0
  arg2 := 0
  arg3 := 0
  res0 := 0
  res1 := 0
  modcnt := 0
  seed := 0
  maxi := 0
  nseed := 0
  hrows := 0
  hvalid := false
  hcols := 0
  mspace := .pix
  maddr := 0
  pstate := 0
  drawBuf := []
  nstate := 0
  pix := []
  bit := []
  byte := []
  idx := []
  haz := false
  awaitPoll := false
  drawCount := 0
  inbox := []
  trace := []

end Sys2Proof.Machine
end

