-- ==== Sys2Proof/Machine/Flags.lean ====
section
/-! DEFINITION. Error codes and the read-only words built from fields: STATUS, CFG, HCFG (10_state R32, R33, R42;
60_exceptions R300, R303). The HPCE has no other flags (10_state R53). -/

namespace Sys2Proof.Machine

/-- The number of an error kind in STATUS.KIND (60_exceptions R300). -/
def ErrKind.code : ErrKind → BitVec 3
  | .none => 0
  | .invalidArgument => 1
  | .capacityExceeded => 2
  | .internalInvariantViolation => 3
  | .resourceExhausted => 4

/-- The number of a detail code in STATUS.DETAIL (60_exceptions R303). -/
def Detail.code : Detail → BitVec 8
  | .none => 0x00
  | .badOpcode => 0x01
  | .rsvdBits => 0x02
  | .noMatrix => 0x03
  | .codeTooSmall => 0x04
  | .rowsRange => 0x05
  | .colsMismatch => 0x06
  | .colIndex => 0x07
  | .rowIndex => 0x08
  | .maxiZero => 0x09
  | .pixelRange => 0x0A
  | .bitValue => 0x0B
  | .extTooLong => 0x0C
  | .extMalformed => 0x0D
  | .streamShort => 0x0E
  | .rangeOrder => 0x0F
  | .hammingCapacity => 0x20
  | .noColumn => 0x30
  | .pixBounds => 0x40
  | .bitBounds => 0x41
  | .byteBounds => 0x42
  | .idxBounds => 0x43
  | .permLimit => 0x44

/-- The error kind a detail code fixes (60_exceptions R303). -/
def Detail.kind : Detail → ErrKind
  | .none => .none
  | .badOpcode | .rsvdBits | .noMatrix | .codeTooSmall | .rowsRange | .colsMismatch | .colIndex | .rowIndex
  | .maxiZero | .pixelRange | .bitValue | .extTooLong | .extMalformed | .streamShort | .rangeOrder => .invalidArgument
  | .hammingCapacity => .capacityExceeded
  | .noColumn => .internalInvariantViolation
  | .pixBounds | .bitBounds | .byteBounds | .idxBounds | .permLimit => .resourceExhausted

/-- The detail code of an illegal command word (30_encoding R104, R105). -/
def illegalDetail : Illegal → Detail
  | .badOpcode => .badOpcode
  | .rsvdBits => .rsvdBits

/-- The detail code of a bounds violation in a space (40_command_cycle R135). -/
def Space.boundsDetail : Space → Detail
  | .pix => .pixBounds
  | .bit => .bitBounds
  | .byte => .byteBounds
  | .idx => .idxBounds

/-- What STATUS reads as: BUSY bit 0, ERR bit 1, KIND bits 4:2, HAF bit 8, DETAIL bits 23:16, LASTOP bits 31:24
(10_state R32). -/
def statusWord (st : Status) : Word :=
  placeAt 0 (BitVec.ofBool st.busy) ||| placeAt 1 (BitVec.ofBool st.err) ||| placeAt 2 st.kind.code |||
    placeAt 8 (BitVec.ofBool st.haf) ||| placeAt 16 st.detail.code ||| placeAt 24 st.lastop

/-- What CFG reads as: ROWSMAX bits 5:0, PIXW bits 13:8, HASH64 bit 16, CHARSGN bit 17 (10_state R33). -/
def cfgWord (p : Config.Params) : Word :=
  placeAt 0 (BitVec.ofNat 6 p.rowsMax) ||| placeAt 8 (BitVec.ofNat 6 p.pixW) |||
    placeAt 16 (BitVec.ofBool p.hash64) ||| placeAt 17 (BitVec.ofBool p.charSigned)

/-- What HCFG reads as: HROWS bits 5:0, HVALID bit 31 (10_state R42). -/
def hcfgWord (valid : Bool) (rows : BitVec 6) : Word := placeAt 0 rows ||| placeAt 31 (BitVec.ofBool valid)

end Sys2Proof.Machine
end

