-- ==== Sys2Proof/Machine/Operands.lean ====
section
/-! DEFINITION. Operands and the bit-level helpers of 00_scope R14 to R16 and 41_codec R150: operand registers read as
exact integers, cell widths, byte expansion, packed GF(2) vectors. -/

namespace Sys2Proof.Machine

/-- The operands of a command, each taken whole as an unsigned integer (30_encoding R101, 00_scope R13). -/
def State.a0 (s : State) : Nat := s.arg0.toNat
/-- See `State.a0`. -/
def State.a1 (s : State) : Nat := s.arg1.toNat
/-- See `State.a0`. -/
def State.a2 (s : State) : Nat := s.arg2.toNat
/-- See `State.a0`. -/
def State.a3 (s : State) : Nat := s.arg3.toNat

/-- A result register's value for an exact integer result (00_scope R13). -/
def result (n : Nat) : Word := BitVec.ofNat 32 n

/-- `DEPTH(sp)`: how many cells a space has (20_memory R70). -/
def depth (p : Config.Params) : Space → Nat
  | .pix => p.pixDepth.toNat
  | .bit => p.bitDepth.toNat
  | .byte => p.byteDepth.toNat
  | .idx => p.idxDepth.toNat

/-- The width of a cell of a space, in bits (20_memory R70). -/
def cellWidth (p : Config.Params) : Space → Nat
  | .pix => p.pixW
  | .bit => 1
  | .byte => 8
  | .idx => 32

/-- The low `n` bits of a word, the others 0 (00_scope R14). -/
def lowBits (n : Nat) (w : Word) : Word := BitVec.ofNat 32 (w.toNat % 2 ^ n)

/-- `lsb(x)` (00_scope R14). -/
def lsb (x : Word) : Bool := x.getLsbD 0

/-- `bits8(y)`: a byte as eight bits, most significant first (41_codec R150, 00_scope R15). -/
def bits8 (y : Byte) : List Bool :=
  [y.getLsbD 7, y.getLsbD 6, y.getLsbD 5, y.getLsbD 4, y.getLsbD 3, y.getLsbD 2, y.getLsbD 1, y.getLsbD 0]

/-- `byte8(b0, …, b7)`: eight bits as a byte, the first the most significant (41_codec R150). -/
def byte8 (b0 b1 b2 b3 b4 b5 b6 b7 : Bool) : Byte :=
  BitVec.ofBool b0 ++ BitVec.ofBool b1 ++ BitVec.ofBool b2 ++ BitVec.ofBool b3 ++ BitVec.ofBool b4 ++
    BitVec.ofBool b5 ++ BitVec.ofBool b6 ++ BitVec.ofBool b7

/-- Bits packed into bytes; a trailing group shorter than 8 is dropped (41_codec R153). -/
def packBytes : List Bool → List Byte
  | b0 :: b1 :: b2 :: b3 :: b4 :: b5 :: b6 :: b7 :: rest => byte8 b0 b1 b2 b3 b4 b5 b6 b7 :: packBytes rest
  | _ => []

/-- `packed(x)`: a GF(2) vector with element `t` at bit `t` (00_scope R16). -/
def packBits : List Bool → Nat
  | [] => 0
  | b :: bs => b.toNat + 2 * packBits bs

/-- The first `r` elements of a packed GF(2) vector (00_scope R16). -/
def unpackBits (r n : Nat) : List Bool := (List.range r).map n.testBit

/-- `ceil_div(a, b)` (00_scope R14). -/
def ceilDiv (a b : Nat) : Nat := (a + b - 1) / b

end Sys2Proof.Machine
end

