-- ==== Sys2Proof/Machine/Ops.lean ====
section
/-! DEFINITION. The named operations: memory cells and ranges, checks, the failure of a command (the machine's only
exception, 60_exceptions R301, R302), command start and completion (40_command_cycle R130, R131), reset (70_reset R340). -/

namespace Sys2Proof.Machine

/-! ### Memory cells (00_scope R17, 20_memory R70) -/

/-- Read of one cell; a cell never written since reset holds no value (10_state R55). -/
def Mem.read {α : Type} : Mem α → Nat → Option α
  | [], _ => none
  | (b, v) :: m, a => if a = b then some v else Mem.read m a

/-- Write of one cell, keeping the canonical form. -/
def Mem.write {α : Type} : Mem α → Nat → α → Mem α
  | [], a, v => [(a, v)]
  | (b, x) :: m, a, v =>
    if a < b then (a, v) :: (b, x) :: m
    else if a = b then (a, v) :: m
    else (b, x) :: Mem.write m a v

/-- `MemWrite(sp, a, n, list)` (00_scope R17). -/
def Mem.writeList {α : Type} : Mem α → Nat → List α → Mem α
  | m, _, [] => m
  | m, a, v :: vs => Mem.writeList (m.write a v) (a + 1) vs

/-! ### Commands: values, raised errors, reads of unwritten cells -/

/-- Why a command ends without its effect. -/
inductive Stop where
  /-- `raise Kind(DETAIL)` (00_scope R17) -/
  | raise (d : Detail)
  /-- a read of a cell never written since reset (10_state R55) -/
  | uninit (sp : Space) (addr : Nat)
deriving DecidableEq, Repr

/-- The value of a part of a command, or why it stops. -/
abbrev Cmd (α : Type) := Except Stop α

/-- A check that passes when `p` holds and raises `d` otherwise (00_scope R18). -/
def require (p : Prop) [Decidable p] (d : Detail) : Cmd Unit :=
  if p then .ok () else .error (.raise d)

/-- The bounds check `need(sp, a, n)` (40_command_cycle R135). -/
def need (p : Config.Params) (sp : Space) (a n : Nat) : Cmd Unit :=
  require (a + n ≤ depth p sp) sp.boundsDetail

/-- A command's read of one cell (00_scope R17, 10_state R55). -/
def fetch {α : Type} (sp : Space) (m : Mem α) (a : Nat) : Cmd α :=
  match m.read a with
  | some v => .ok v
  | none => .error (.uninit sp a)

/-- `MemRead(sp, a, n)` (00_scope R17). -/
def fetchList {α : Type} (sp : Space) (m : Mem α) : Nat → Nat → Cmd (List α)
  | _, 0 => .ok []
  | a, n + 1 =>
    match fetch sp m a with
    | .error e => .error e
    | .ok v =>
      match fetchList sp m (a + 1) n with
      | .error e => .error e
      | .ok vs => .ok (v :: vs)

/-- The bits `k, …, k + n - 1`, read with `get` below `lim` and the filler 1 from `lim` on
(45_syndrome_embed R262, R266). -/
def fetchFilled (get : Nat → Cmd Bool) (lim : Nat) : Nat → Nat → Cmd (List Bool)
  | _, 0 => .ok []
  | k, n + 1 =>
    match (if k < lim then get k else .ok true) with
    | .error e => .error e
    | .ok v =>
      match fetchFilled get lim (k + 1) n with
      | .error e => .error e
      | .ok vs => .ok (v :: vs)

/-! ### The command cycle (40_command_cycle.md) -/

/-- A failed command: its only effects are on ERR, KIND and DETAIL; no trap is taken and nothing is saved
(40_command_cycle R132; 60_exceptions R301, R302). -/
def State.fail (s : State) (d : Detail) : State :=
  { s with status := { s.status with err := true, kind := d.kind, detail := d } }

/-- The outcome of a command from state `s`: its next state, the failed command's state, or the model fault
UninitRead (40_command_cycle R132, R136; 60_exceptions R309). -/
def runCmd (s : State) (c : Cmd State) : Host.Outcome State Fault Refusal :=
  match c with
  | .ok t => .next t
  | .error (.raise d) => .next (s.fail d)
  | .error (.uninit sp a) => .fault (.uninitRead sp a)

/-- Command start: what a host write of `w` to CMD does when it is accepted (40_command_cycle R130). -/
def State.start (s : State) (w : Word) : State :=
  { s with
    cmd := w
    pending := some w
    status :=
      { s.status with busy := true, err := false, kind := .none, detail := .none, lastop := w.extractLsb' 0 8 }
    awaitPoll := true }

/-- The end of the ENGINE step: PENDING empty, BUSY 0 (40_command_cycle R131). -/
def State.finish (s : State) : State :=
  { s with pending := none, status := { s.status with busy := false } }

/-- The `reset` transaction: every register, hidden state and field at its value of 10_state R54, no cell written
(70_reset R340, R341). HAZ stays as it was (10_state R52), the parameters are no state (00_scope R12), and the host's
own events, the values it has read and the count of free values go on (log 14). -/
def State.afterReset (s : State) : State :=
  { State.reset with cfg := s.cfg, haz := s.haz, drawCount := s.drawCount, inbox := s.inbox, trace := s.trace }

/-- The host access fault bit set (60_exceptions R308). -/
def State.setHaf (s : State) : State := { s with status := { s.status with haf := true } }

/-- The host hazard recorded (10_state R52; 60_exceptions R309). -/
def State.setHaz (s : State) : State := { s with haz := true }

end Sys2Proof.Machine
end

