-- ==== Sys2Proof/Machine/Codec.lean ====
section
/-! DEFINITION. The CODEC unit: B2BITS, BITS2B, MINBITS, EXTENC, EXTDEC (41_codec.md). Checks stand in the order of
40_command_cycle R133. -/

namespace Sys2Proof.Machine

/-- B2BITS (41_codec R152). -/
def cmdB2bits (s : State) : Cmd State := do
  need s.cfg .byte s.a0 s.a1
  need s.cfg .bit s.a2 (8 * s.a1)
  let bytes ← fetchList .byte s.byte s.a0 s.a1
  return { s with
    bit := s.bit.writeList s.a2 (bytes.flatMap bits8)
    res0 := result (8 * s.a1) }

/-- BITS2B (41_codec R153, R154); the dropped bits are not read. -/
def cmdBits2b (s : State) : Cmd State := do
  need s.cfg .bit s.a0 s.a1
  need s.cfg .byte s.a2 (s.a1 / 8)
  let bits ← fetchList .bit s.bit s.a0 (8 * (s.a1 / 8))
  return { s with
    byte := Mem.writeList s.byte s.a2 (packBytes bits)
    res0 := result (s.a1 / 8)
    res1 := result (s.a1 % 8) }

/-- The loop of `mlen`: doublings `p` of 1 until `p` exceeds `n` (41_codec R155). -/
def mlenLoop (n : Nat) : Nat → Nat → Nat → Nat
  | 0, _, k => k
  | fuel + 1, p, k => if p ≤ n then mlenLoop n fuel (2 * p) (k + 1) else k

/-- `mlen(n)` (41_codec R155, 90_conflicts C1); 33 turns of the loop end it for every `u32`. -/
def mlen (n : Nat) : Nat := mlenLoop n 33 1 0

/-- The `k` low bits of `n`, most significant first (41_codec R156). -/
def bitsMsbFirst (n k : Nat) : List Bool := (List.range k).map fun q => n.testBit (k - 1 - q)

/-- MINBITS (41_codec R155, R156). -/
def cmdMinbits (s : State) : Cmd State := do
  need s.cfg .bit s.a1 (mlen s.a0)
  return { s with
    bit := s.bit.writeList s.a1 (bitsMsbFirst s.a0 (mlen s.a0))
    res0 := result (mlen s.a0) }

/-- The five slots of the extension suffix, from the characters after the dot (41_codec R157). -/
def suffixSlots (tail : List Byte) : List Byte := tail ++ List.replicate (5 - tail.length) 0

/-- EXTENC (41_codec R157, R158). -/
def cmdExtenc (s : State) : Cmd State := do
  require (s.a1 ≤ 5) .extTooLong
  require (s.a1 ≠ 0) .extMalformed
  need s.cfg .byte s.a0 s.a1
  need s.cfg .bit s.a2 (s.a3 + 40)
  let dot ← fetch .byte s.byte s.a0
  require (dot = 0x2E) .extMalformed
  let tail ← fetchList .byte s.byte (s.a0 + 1) (s.a1 - 1)
  require (0 ∉ tail) .extMalformed
  return { s with
    bit := s.bit.writeList (s.a2 + s.a3) ((suffixSlots tail).flatMap bits8)
    res0 := result (s.a3 + 40) }

/-- The string of a suffix: the leading dot and the slots before the first zero slot (41_codec R159). -/
def suffixString (slots : List Byte) : List Byte := 0x2E :: slots.takeWhile (· ≠ 0)

/-- EXTDEC (41_codec R159). -/
def cmdExtdec (s : State) : Cmd State := do
  require (40 ≤ s.a1) .streamShort
  need s.cfg .bit s.a0 s.a1
  need s.cfg .byte s.a2 6
  let bits ← fetchList .bit s.bit (s.a0 + s.a1 - 40) 40
  let str := suffixString (packBytes bits)
  return { s with
    byte := Mem.writeList s.byte s.a2 str
    res0 := result str.length }

/-- The meaning of B2BITS. -/
def execB2bits (s : State) : Host.Outcome State Fault Refusal := runCmd s (cmdB2bits s)

/-- The meaning of BITS2B. -/
def execBits2b (s : State) : Host.Outcome State Fault Refusal := runCmd s (cmdBits2b s)

/-- The meaning of MINBITS. -/
def execMinbits (s : State) : Host.Outcome State Fault Refusal := runCmd s (cmdMinbits s)

/-- The meaning of EXTENC. -/
def execExtenc (s : State) : Host.Outcome State Fault Refusal := runCmd s (cmdExtenc s)

/-- The meaning of EXTDEC. -/
def execExtdec (s : State) : Host.Outcome State Fault Refusal := runCmd s (cmdExtdec s)

end Sys2Proof.Machine
end

