-- ==== Sys2Proof/Machine/Hmat.lean ====
section
/-! DEFINITION. The HMAT unit: the Hamming matrix, HBEST, HGEN, HCOL, HROW, HMUL, HADD, HFIND, HSYN
(44_hamming_matrix.md). -/

namespace Sys2Proof.Machine

/-- Entry `H[t][c]` of the matrix, columns numbered from 0 (44_hamming_matrix R221). -/
def hEntry (t c : Nat) : Bool := (c + 1).testBit t

/-- The packed syndrome of the bits `v`, the first of them at column `c`: the XOR of `c + 1` over the set bits
(44_hamming_matrix R222). -/
def synFrom : Nat → List Bool → Nat
  | _, [] => 0
  | c, b :: v => (if b then c + 1 else 0) ^^^ synFrom (c + 1) v

/-- `syn(v)` (44_hamming_matrix R222). -/
def syn (v : List Bool) : Nat := synFrom 0 v

/-- `HROWS` and `HCOLS` as exact integers. -/
def State.rows (s : State) : Nat := s.hrows.toNat
/-- See `State.rows`. -/
def State.cols (s : State) : Nat := s.hcols.toNat

/-- The precondition of the commands that read the matrix (44_hamming_matrix R220). -/
def needMatrix (s : State) : Cmd Unit := require (s.hvalid = true) .noMatrix

/-- The total capacity of codes of `rows` rows in `K` bits (44_hamming_matrix R224). -/
def capacity (K rows : Nat) : Nat := K / (2 ^ rows - 1) * rows

/-- The loop of `hbest`: `rows` grows while the capacity exceeds `P` (44_hamming_matrix R224). -/
def hbestLoop (K P : Nat) : Nat → Nat → Nat
  | 0, rows => rows
  | fuel + 1, rows => if P < capacity K rows then hbestLoop K P fuel (rows + 1) else rows

/-- `hbest(K, P)` (44_hamming_matrix R224); 32 turns of the loop end it for every `u32` `K` (R226 law 1). -/
def hbest (K P : Nat) : Nat × Nat :=
  let rows := hbestLoop K P 32 2
  let rows' := if capacity K rows < P then rows - 1 else rows
  (rows', 2 ^ rows' - 1)

/-- HBEST (44_hamming_matrix R225); RES1 saturates. -/
def cmdHbest (s : State) : Cmd State :=
  .ok { s with
    res0 := result (hbest s.a0 s.a1).1
    res1 := result (min (hbest s.a0 s.a1).2 (2 ^ 32 - 1)) }

/-- HGEN (44_hamming_matrix R227). -/
def cmdHgen (s : State) : Cmd State := do
  require (1 ≤ s.a0 ∧ s.a0 ≤ s.cfg.rowsMax) .rowsRange
  require (s.a1 = 2 ^ s.a0 - 1) .colsMismatch
  return { s with hrows := BitVec.ofNat 6 s.a0, hcols := s.arg1, hvalid := true }

/-- HCOL (44_hamming_matrix R228). -/
def cmdHcol (s : State) : Cmd State := do
  needMatrix s
  require (s.a0 < s.cols) .colIndex
  return { s with res0 := result (s.a0 + 1) }

/-- HROW (44_hamming_matrix R229). -/
def cmdHrow (s : State) : Cmd State := do
  needMatrix s
  require (s.a0 < s.rows) .rowIndex
  need s.cfg .bit s.a1 s.cols
  return { s with bit := s.bit.writeList s.a1 ((List.range s.cols).map (hEntry s.a0)) }

/-- HMUL (44_hamming_matrix R230). -/
def cmdHmul (s : State) : Cmd State := do
  needMatrix s
  need s.cfg .bit s.a0 s.cols
  let v ← fetchList .bit s.bit s.a0 s.cols
  return { s with res0 := result (syn v) }

/-- HADD (44_hamming_matrix R231). -/
def cmdHadd (s : State) : Cmd State := .ok { s with res0 := s.arg0 ^^^ s.arg1 }

/-- The linear scan of `findColumn` over `n` columns from column `c` on (44_hamming_matrix R232). -/
def findFrom (target : Nat) : Nat → Nat → Option Nat
  | _, 0 => none
  | c, n + 1 => if c + 1 = target then some c else findFrom target (c + 1) n

/-- `findColumn(target)` over `C` columns (44_hamming_matrix R232). -/
def findColumn (C target : Nat) : Cmd Nat :=
  match findFrom target 0 C with
  | some c => .ok c
  | none => .error (.raise .noColumn)

/-- HFIND (44_hamming_matrix R232, R233). -/
def cmdHfind (s : State) : Cmd State := do
  needMatrix s
  let c ← findColumn s.cols s.a0
  return { s with res0 := result c }

/-- `lsb(PIX[k])`, read by a command. -/
def fetchLsb (m : Mem Word) (k : Nat) : Cmd Bool :=
  match fetch .pix m k with
  | .error e => .error e
  | .ok x => .ok (lsb x)

/-- The `C` pixel LSBs of a block from pixel `o` on, the filler 1 at and past `dim`
(44_hamming_matrix R234, 45_syndrome_embed R266). -/
def blockBits (m : Mem Word) (dim o C : Nat) : Cmd (List Bool) := fetchFilled (fetchLsb m) dim o C

/-- HSYN (44_hamming_matrix R234). -/
def cmdHsyn (s : State) : Cmd State := do
  needMatrix s
  need s.cfg .pix 0 s.a1
  let v ← blockBits s.pix s.a1 s.a0 s.cols
  return { s with res0 := result (syn v) }

/-- The meaning of HBEST. -/
def execHbest (s : State) : Host.Outcome State Fault Refusal := runCmd s (cmdHbest s)

/-- The meaning of HGEN. -/
def execHgen (s : State) : Host.Outcome State Fault Refusal := runCmd s (cmdHgen s)

/-- The meaning of HCOL. -/
def execHcol (s : State) : Host.Outcome State Fault Refusal := runCmd s (cmdHcol s)

/-- The meaning of HROW. -/
def execHrow (s : State) : Host.Outcome State Fault Refusal := runCmd s (cmdHrow s)

/-- The meaning of HMUL. -/
def execHmul (s : State) : Host.Outcome State Fault Refusal := runCmd s (cmdHmul s)

/-- The meaning of HADD. -/
def execHadd (s : State) : Host.Outcome State Fault Refusal := runCmd s (cmdHadd s)

/-- The meaning of HFIND. -/
def execHfind (s : State) : Host.Outcome State Fault Refusal := runCmd s (cmdHfind s)

/-- The meaning of HSYN. -/
def execHsyn (s : State) : Host.Outcome State Fault Refusal := runCmd s (cmdHsyn s)

end Sys2Proof.Machine
end

