-- ==== Sys2Proof/Machine/Prng.lean ====
section
/-! DEFINITION. The generators and the draws taken from them: permutation draws (43_permutation R191, R192) and nudge
direction bits (42_nudge R182). -/

namespace Sys2Proof.Machine

/-- `prng_next` of the reference generator: the value drawn and the next state (43_permutation R191). -/
def refNext (st : Nat) : Nat × Nat :=
  let st' := (st * 1103515245 + 12345) % 2 ^ 32
  (st' / 65536 % 32768, st')

/-- `prng_init(s)` (43_permutation R191). -/
def prngInit : Config.Prng → Word → Nat
  | .reference, seed => seed.toNat
  | .custom id, seed => Config.customInit id seed

/-- `RAND_MAX`, at least 1 (43_permutation R191). -/
def randMax : Config.Prng → Nat
  | .reference => 32767
  | .custom id => Config.customRandMaxPred id + 1

/-- `prng_next(state)`: a value in `[0, RAND_MAX]` and the next state (43_permutation R191; log 4). -/
def prngNext : Config.Prng → Nat → Nat × Nat
  | .reference, st => refNext st
  | .custom id, st =>
    ((Config.customNext id st).1 % (randMax (.custom id) + 1), (Config.customNext id st).2)

/-- `draw_perm(lo, hi)`: the draw in `[lo, hi]` and the generator's next state (43_permutation R192). -/
def drawPerm (g : Config.Prng) (lo hi st : Nat) : Nat × Nat :=
  (lo + (prngNext g st).1 % (hi - lo + 1), (prngNext g st).2)

/-- `draw_nudge()`: the next direction bit, and the state with the draw taken (42_nudge R182, 20_memory R87). A free
draw takes a fresh free value; the reference realisation advances NSTATE (log 5). -/
def drawNudge (s : State) : Bool × State :=
  match s.cfg.nudgeSrc with
  | .draw => (Config.freeNudge s.drawCount, { s with drawCount := s.drawCount + 1 })
  | .reference =>
    ((refNext s.nstate.toNat).1 % 2 = 1, { s with nstate := BitVec.ofNat 32 (refNext s.nstate.toNat).2 })

end Sys2Proof.Machine
end

