-- ==== Sys2Proof/Machine/Nudge.lean ====
section
/-! DEFINITION. The NUDGE unit (42_nudge.md). -/

namespace Sys2Proof.Machine

/-- `nudge(x, b)` with `M` the value of MAXI, in exact integers (42_nudge R180). -/
def nudge (M x : Int) (b : Bool) : Int :=
  if b then (if x = M then x - 1 else x + 1) else (if x = 0 then x + 1 else x - 1)

/-- The pixel cell after `nudge(x, b)` (42_nudge R180, R181). -/
def nudgePixel (maxi x : Word) (b : Bool) : Word := result (nudge maxi.toNat x.toNat b).toNat

/-- NUDGE (42_nudge R183): one draw when the pixel changes, none otherwise (R184). -/
def cmdNudge (s : State) : Cmd State := do
  require (s.maxi ≠ 0) .maxiZero
  require (s.a1 ≤ 1) .bitValue
  need s.cfg .pix s.a0 1
  let x ← fetch .pix s.pix s.a0
  require (x.toNat ≤ s.maxi.toNat) .pixelRange
  if (lsb x).toNat = s.a1 then
    return { s with res0 := x, res1 := 0 }
  else
    let d := drawNudge s
    let y := nudgePixel s.maxi x d.1
    return { d.2 with pix := s.pix.write s.a0 y, res0 := y, res1 := 1 }

/-- The meaning of NUDGE. -/
def execNudge (s : State) : Host.Outcome State Fault Refusal := runCmd s (cmdNudge s)

end Sys2Proof.Machine
end

