-- ==== Sys2Proof/Machine/Hsyn.lean ====
section
/-! DEFINITION. The HSYN unit: HEMBED and HEXTRACT (45_syndrome_embed.md). -/

namespace Sys2Proof.Machine

/-- The block count `B = ceil_div(P, r)` of a payload of ARG1 bits (45_syndrome_embed R261). -/
def State.blocks (s : State) : Nat := ceilDiv s.a1 s.rows

/-- The first pixel of block `i`: ARG2 is the pixel base (45_syndrome_embed R260). -/
def State.blockStart (s : State) (i : Nat) : Nat := s.a2 + i * s.cols

/-- The check of a useful code (45_syndrome_embed R261). -/
def needUsefulCode (s : State) : Cmd Unit := require (¬(s.rows ≤ 1 ∨ s.cols ≤ 2)) .codeTooSmall

/-- The message bits of block `i`: ARG0 is the payload's address, ARG1 its length; 1 past its end
(45_syndrome_embed R262). -/
def messageBits (s : State) (i : Nat) : Cmd (List Bool) :=
  fetchFilled (fun q => fetch .bit s.bit (s.a0 + q)) s.a1 (i * s.rows) s.rows

/-- `embed_block(i)`: the state after it and how many pixels it changed (45_syndrome_embed R264). ARG3 is the
dimension. -/
def embedBlock (s : State) (i : Nat) : Cmd (State × Nat) := do
  let v ← blockBits s.pix s.a3 (s.blockStart i) s.cols
  let m ← messageBits s i
  let target := syn v ^^^ packBits m
  if target = 0 then
    return (s, 0)
  else
    let k := s.blockStart i + (target - 1)
    let x ← fetch .pix s.pix k
    let d := drawNudge s
    return ({ d.2 with pix := s.pix.write k (nudgePixel s.maxi x d.1) }, 1)

/-- `n` blocks from block `i` on, in increasing order, with the count of changed pixels
(45_syndrome_embed R263). -/
def embedBlocks : Nat → Nat → State → Cmd (State × Nat)
  | _, 0, s => .ok (s, 0)
  | i, n + 1, s =>
    match embedBlock s i with
    | .error e => .error e
    | .ok (t, c) =>
      match embedBlocks (i + 1) n t with
      | .error e => .error e
      | .ok (u, c') => .ok (u, c + c')

/-- HEMBED (45_syndrome_embed R263). -/
def cmdHembed (s : State) : Cmd State := do
  needMatrix s
  needUsefulCode s
  require (s.maxi ≠ 0) .maxiZero
  need s.cfg .bit s.a0 s.a1
  need s.cfg .pix 0 s.a3
  require (s.a2 + s.blocks * s.cols ≤ s.a3) .hammingCapacity
  let pixels ← fetchList .pix s.pix s.a2 (s.blocks * s.cols)
  require (pixels.all (fun x => x.toNat ≤ s.maxi.toNat) = true) .pixelRange
  let r ← embedBlocks 0 s.blocks s
  return { r.1 with modcnt := result r.2, res0 := result r.2 }

/-- `extract_block(i)`: the recovered bits of the block (45_syndrome_embed R267). -/
def extractBlock (s : State) (i : Nat) : Cmd (List Bool) := do
  let v ← blockBits s.pix s.a3 (s.blockStart i) s.cols
  return unpackBits s.rows (syn v)

/-- The recovered bits of `n` blocks from block `i` on, in block order (45_syndrome_embed R268). -/
def extractBlocks (s : State) : Nat → Nat → Cmd (List Bool)
  | _, 0 => .ok []
  | i, n + 1 =>
    match extractBlock s i with
    | .error e => .error e
    | .ok bs =>
      match extractBlocks s (i + 1) n with
      | .error e => .error e
      | .ok rest => .ok (bs ++ rest)

/-- HEXTRACT: the recovered bits truncated to ARG1 of them, written from BIT cell ARG0 on
(45_syndrome_embed R268, R270). -/
def cmdHextract (s : State) : Cmd State := do
  needMatrix s
  needUsefulCode s
  need s.cfg .bit s.a0 s.a1
  need s.cfg .pix 0 s.a3
  let bits ← extractBlocks s 0 s.blocks
  return { s with bit := s.bit.writeList s.a0 (bits.take s.a1), res0 := s.arg1 }

/-- The meaning of HEMBED. -/
def execHembed (s : State) : Host.Outcome State Fault Refusal := runCmd s (cmdHembed s)

/-- The meaning of HEXTRACT. -/
def execHextract (s : State) : Host.Outcome State Fault Refusal := runCmd s (cmdHextract s)

end Sys2Proof.Machine
end

