-- ==== Sys2Proof/Machine/Nop.lean ====
section
/-! DEFINITION. NOP (40_command_cycle R139). -/

namespace Sys2Proof.Machine

/-- NOP: no check beyond decoding, no effect (40_command_cycle R139). -/
def execNop (s : State) : Host.Outcome State Fault Refusal := runCmd s (.ok s)

end Sys2Proof.Machine
end

