-- ==== Sys2Proof/Machine/Perm.lean ====
section
/-! DEFINITION. The PERM unit: HASH, PERMFWD, PERMINV, PERMIDX (43_permutation.md). -/

namespace Sys2Proof.Machine

/-- The integer a passphrase byte enters djb2 as (43_permutation R193). -/
def charValue (signed : Bool) (c : Byte) : Int := if signed then c.toInt else c.toNat

/-- `djb2(bytes)` (43_permutation R193). -/
def djb2 (p : Config.Params) (cs : List Byte) : Nat :=
  cs.foldl (fun h c => (((h : Int) * 33 + charValue p.charSigned c) % 2 ^ (if p.hash64 then 64 else 32)).toNat) 5381

/-- HASH (43_permutation R194). -/
def cmdHash (s : State) : Cmd State := do
  need s.cfg .byte s.a0 s.a1
  let bytes ← fetchList .byte s.byte s.a0 s.a1
  let h := djb2 s.cfg bytes
  return { s with res0 := result h, res1 := result (h / 2 ^ 32), seed := result h }

/-- The `k` draws for the positions `start + k - 1` down to `start`, first draw first, and the generator's state after
them (43_permutation R195). -/
def drawsDown (g : Config.Prng) (start : Nat) : Nat → Nat → List Nat × Nat
  | 0, st => ([], st)
  | k + 1, st =>
    let d := drawPerm g start (start + k) st
    let rest := drawsDown g start k d.2
    (d.1 :: rest.1, rest.2)

/-- The draw sequence of a permutation over `[start, n)` from a generator freshly seeded from SEED
(43_permutation R195, R203). -/
def drawSequence (s : State) (n start : Nat) : List Nat × Nat :=
  drawsDown s.cfg.prng start (n - start) (prngInit s.cfg.prng s.seed)

/-- Swap of two cells; both are read (43_permutation R196; log 6). -/
def swapCells {α : Type} (sp : Space) (m : Mem α) (p q : Nat) : Cmd (Mem α) := do
  let x ← fetch sp m p
  let y ← fetch sp m q
  return (m.write p y).write q x

/-- The swaps of the forward permutation: `js` holds the draws of the positions `start + js.length - 1` down to `start`
(43_permutation R196). -/
def swapsDown {α : Type} (sp : Space) (base start : Nat) : List Nat → Mem α → Cmd (Mem α)
  | [], m => .ok m
  | j :: js, m =>
    match swapCells sp m (base + (start + js.length)) (base + j) with
    | .error e => .error e
    | .ok m' => swapsDown sp base start js m'

/-- The swaps of the inverse permutation, from position `i` up; `buf` holds the draws in that order
(43_permutation R197). -/
def swapsUp {α : Type} (sp : Space) (base : Nat) : Nat → List Nat → Mem α → Cmd (Mem α)
  | _, [], m => .ok m
  | i, j :: buf, m =>
    match swapCells sp m (base + i) (base + j) with
    | .error e => .error e
    | .ok m' => swapsUp sp base (i + 1) buf m'

/-- The checks of PERMFWD, PERMINV and PERMIDX (43_permutation R202): the operands are `base`, `n` and `start`. -/
def permChecks (s : State) (sp : Space) : Cmd Unit := do
  require (s.a2 ≤ s.a1) .rangeOrder
  need s.cfg sp s.a0 s.a1
  require (s.a1 - s.a2 ≤ s.cfg.permMax.toNat) .permLimit

/-- The forward permutation of a memory in place: the memory after it and PSTATE (43_permutation R199). -/
def permForward {α : Type} (s : State) (sp : Space) (m : Mem α) : Cmd (Mem α × Nat) := do
  let d := drawSequence s s.a1 s.a2
  let m' ← swapsDown sp s.a0 s.a2 d.1 m
  return (m', d.2)

/-- The first half of the inverse permutation: PSTATE seeded, the draws held in DRAWBUF by position
(43_permutation R197, R200). -/
def fillDrawBuf (s : State) : State :=
  let d := drawSequence s s.a1 s.a2
  { s with pstate := d.2, drawBuf := d.1.reverse }

/-- The second half: the swaps in the opposite order, from DRAWBUF (43_permutation R197, R200). -/
def permInverse {α : Type} (s : State) (sp : Space) (m : Mem α) : Cmd (Mem α) :=
  swapsUp sp s.a0 s.a2 s.drawBuf m

/-- PERMFWD on the BIT space (43_permutation R199, R201). -/
def cmdPermfwdBit (s : State) : Cmd State := do
  permChecks s .bit
  let r ← permForward s .bit s.bit
  return { s with bit := r.1, pstate := r.2 }

/-- PERMFWD on the IDX space (43_permutation R199, R201). -/
def cmdPermfwdIdx (s : State) : Cmd State := do
  permChecks s .idx
  let r ← permForward s .idx s.idx
  return { s with idx := r.1, pstate := r.2 }

/-- PERMINV on the BIT space (43_permutation R200, R201); DRAWBUF is consumed (10_state R49). -/
def cmdPerminvBit (s : State) : Cmd State := do
  permChecks s .bit
  let t := fillDrawBuf s
  let m ← permInverse t .bit t.bit
  return { t with bit := m, drawBuf := [] }

/-- PERMINV on the IDX space (43_permutation R200, R201); DRAWBUF is consumed (10_state R49). -/
def cmdPerminvIdx (s : State) : Cmd State := do
  permChecks s .idx
  let t := fillDrawBuf s
  let m ← permInverse t .idx t.idx
  return { t with idx := m, drawBuf := [] }

/-- The identity index sequence `id_n` (43_permutation R204). -/
def identityTable (n : Nat) : List Word := (List.range n).map (BitVec.ofNat 32)

/-- PERMIDX: the identity table, permuted forward (43_permutation R204, R205). -/
def cmdPermidx (s : State) : Cmd State := do
  permChecks s .idx
  let r ← permForward s .idx (s.idx.writeList s.a0 (identityTable s.a1))
  return { s with idx := r.1, pstate := r.2 }

/-- The meaning of HASH. -/
def execHash (s : State) : Host.Outcome State Fault Refusal := runCmd s (cmdHash s)

/-- The meaning of PERMFWD with SP = 0. -/
def execPermfwdBit (s : State) : Host.Outcome State Fault Refusal := runCmd s (cmdPermfwdBit s)

/-- The meaning of PERMFWD with SP = 1. -/
def execPermfwdIdx (s : State) : Host.Outcome State Fault Refusal := runCmd s (cmdPermfwdIdx s)

/-- The meaning of PERMINV with SP = 0. -/
def execPerminvBit (s : State) : Host.Outcome State Fault Refusal := runCmd s (cmdPerminvBit s)

/-- The meaning of PERMINV with SP = 1. -/
def execPerminvIdx (s : State) : Host.Outcome State Fault Refusal := runCmd s (cmdPerminvIdx s)

/-- The meaning of PERMIDX. -/
def execPermidx (s : State) : Host.Outcome State Fault Refusal := runCmd s (cmdPermidx s)

end Sys2Proof.Machine
end

