-- ==== Sys2Proof/Machine/Dispatch.lean ====
section
/-! DEFINITION. The dispatch of a decoded command to its meaning (40_command_cycle R131). -/

namespace Sys2Proof.Machine

/-- `execute` of a decoded command (40_command_cycle R131). -/
def exec (i : Instr) (s : State) : Host.Outcome State Fault Refusal :=
  match i with
  | .nop => Sys2Proof.Machine.execNop s
  | .b2bits => Sys2Proof.Machine.execB2bits s
  | .bits2b => Sys2Proof.Machine.execBits2b s
  | .minbits => Sys2Proof.Machine.execMinbits s
  | .extenc => Sys2Proof.Machine.execExtenc s
  | .extdec => Sys2Proof.Machine.execExtdec s
  | .nudge => Sys2Proof.Machine.execNudge s
  | .hash => Sys2Proof.Machine.execHash s
  | .permfwdBit => Sys2Proof.Machine.execPermfwdBit s
  | .permfwdIdx => Sys2Proof.Machine.execPermfwdIdx s
  | .perminvBit => Sys2Proof.Machine.execPerminvBit s
  | .perminvIdx => Sys2Proof.Machine.execPerminvIdx s
  | .permidx => Sys2Proof.Machine.execPermidx s
  | .hbest => Sys2Proof.Machine.execHbest s
  | .hgen => Sys2Proof.Machine.execHgen s
  | .hcol => Sys2Proof.Machine.execHcol s
  | .hrow => Sys2Proof.Machine.execHrow s
  | .hmul => Sys2Proof.Machine.execHmul s
  | .hadd => Sys2Proof.Machine.execHadd s
  | .hfind => Sys2Proof.Machine.execHfind s
  | .hsyn => Sys2Proof.Machine.execHsyn s
  | .hembed => Sys2Proof.Machine.execHembed s
  | .hextract => Sys2Proof.Machine.execHextract s

end Sys2Proof.Machine
end

