-- ==== Sys2Proof/Machine/Port.lean ====
section
/-! DEFINITION. The host port: the register map (10_state R30), the memory window (20_memory R74 to R79), port reads and
writes (R80 to R83), the host hazard (70_reset R345) and reset (R340). -/

namespace Sys2Proof.Machine

/-- The registers of the map of 10_state R30. -/
inductive Reg where
  | id | cmd | status | cfg | arg0 | arg1 | arg2 | arg3 | res0 | res1 | modcnt | seed | maxi | nseed | hcfg | hcols
  | mspace | maddr | mdata | pixd | bitd | byted | idxd | permmax
deriving DecidableEq, Repr

/-- The byte offset of a register (10_state R30). -/
def Reg.offset : Reg → BitVec 8
  | .id => 0x00
  | .cmd => 0x04
  | .status => 0x08
  | .cfg => 0x0C
  | .arg0 => 0x10
  | .arg1 => 0x14
  | .arg2 => 0x18
  | .arg3 => 0x1C
  | .res0 => 0x20
  | .res1 => 0x24
  | .modcnt => 0x28
  | .seed => 0x2C
  | .maxi => 0x30
  | .nseed => 0x34
  | .hcfg => 0x38
  | .hcols => 0x3C
  | .mspace => 0x40
  | .maddr => 0x44
  | .mdata => 0x48
  | .pixd => 0x50
  | .bitd => 0x54
  | .byted => 0x58
  | .idxd => 0x5C
  | .permmax => 0x60

/-- The registers in the order of the map (10_state R30). -/
def allRegs : List Reg :=
  [.id, .cmd, .status, .cfg, .arg0, .arg1, .arg2, .arg3, .res0, .res1, .modcnt, .seed, .maxi, .nseed, .hcfg, .hcols,
    .mspace, .maddr, .mdata, .pixd, .bitd, .byted, .idxd, .permmax]

/-- The register at an offset; a misaligned offset (20_memory R81) and an unmapped one (R82) have none. -/
def regAt (off : BitVec 8) : Option Reg := allRegs.find? fun r => r.offset = off

/-- The code of a space in MSPACE (10_state R45). -/
def Space.code : Space → Word
  | .pix => 0
  | .bit => 1
  | .byte => 2
  | .idx => 3

/-- The space that bits 1:0 of a word select; every value is legal (10_state R45). -/
def spaceOf (w : Word) : Space :=
  match w.toNat % 4 with
  | 0 => .pix
  | 1 => .bit
  | 2 => .byte
  | _ => .idx

/-- The identification constant (10_state R31). -/
def idWord : Word := 0x48504345

/-- A cell of a space, zero-extended to 32 bits (20_memory R75); none if it was never written since reset. -/
def readCell (s : State) (sp : Space) (a : Nat) : Option Word :=
  match sp with
  | .pix => s.pix.read a
  | .bit => (s.bit.read a).map fun b => (BitVec.ofBool b).setWidth 32
  | .byte => (Mem.read s.byte a).map fun y => y.setWidth 32
  | .idx => s.idx.read a

/-- A host write of the low cell-width bits of `w` to a cell (20_memory R76). -/
def writeCell (s : State) (sp : Space) (a : Nat) (w : Word) : State :=
  match sp with
  | .pix => { s with pix := s.pix.write a (lowBits s.cfg.pixW w) }
  | .bit => { s with bit := s.bit.write a (lsb w) }
  | .byte => { s with byte := Mem.write s.byte a (w.setWidth 8) }
  | .idx => { s with idx := s.idx.write a w }

/-- A host read of a cell inside the space: its value, or a free value of the cell's width if it was never written
since reset (20_memory R75, 93_implementation_defined U4; log 9). -/
def windowRead (s : State) : Word × State :=
  match readCell s s.mspace s.maddr.toNat with
  | some w => (w, s)
  | none =>
    (lowBits (cellWidth s.cfg s.mspace) (Config.freeCell s.drawCount), { s with drawCount := s.drawCount + 1 })

/-- MADDR after any access of MDATA (20_memory R77). -/
def State.bumpMaddr (s : State) : State := { s with maddr := s.maddr + 1 }

/-- The window's cell lies inside the selected space (20_memory R75, R78). -/
def State.windowInRange (s : State) : Bool := s.maddr.toNat < depth s.cfg s.mspace

/-- A host read of MDATA: the value and the state after it (20_memory R75, R77, R78). -/
def readMdata (s : State) : Word × State :=
  if s.windowInRange then ((windowRead s).1, (windowRead s).2.bumpMaddr)
  else (0, s.setHaf.bumpMaddr)

/-- A host write of MDATA (20_memory R76 to R78). -/
def writeMdata (s : State) (w : Word) : State :=
  if s.windowInRange then (writeCell s s.mspace s.maddr.toNat w).bumpMaddr else s.setHaf.bumpMaddr

/-- The value of a register other than MDATA, whose read has no side effect (20_memory R83). -/
def regValue (s : State) : Reg → Word
  | .id => idWord
  | .cmd => s.cmd
  | .status => statusWord s.status
  | .cfg => cfgWord s.cfg
  | .arg0 => s.arg0
  | .arg1 => s.arg1
  | .arg2 => s.arg2
  | .arg3 => s.arg3
  | .res0 => s.res0
  | .res1 => s.res1
  | .modcnt => s.modcnt
  | .seed => s.seed
  | .maxi => s.maxi
  | .nseed => s.nseed
  | .hcfg => hcfgWord s.hvalid s.hrows
  | .hcols => s.hcols
  | .mspace => s.mspace.code
  | .maddr => s.maddr
  | .mdata => (readMdata s).1
  | .pixd => s.cfg.pixDepth
  | .bitd => s.cfg.bitDepth
  | .byted => s.cfg.byteDepth
  | .idxd => s.cfg.idxDepth
  | .permmax => s.cfg.permMax

/-- What a register's read does to the state: MDATA moves the window (20_memory R77, R87), and a STATUS read that
returns BUSY = 0 is the one by which the host learns of completion (70_reset R345, R346; log 7). -/
def afterRead (s : State) : Reg → State
  | .mdata => (readMdata s).2
  | .status => { s with awaitPoll := s.awaitPoll && s.status.busy }
  | .id | .cmd | .cfg | .arg0 | .arg1 | .arg2 | .arg3 | .res0 | .res1 | .modcnt | .seed | .maxi | .nseed | .hcfg
  | .hcols | .mspace | .maddr | .pixd | .bitd | .byted | .idxd | .permmax => s

/-- A host write of a register: a write of CMD starts a command (40_command_cycle R130), a
write of a read-only register changes nothing (20_memory R83). -/
def writeReg (s : State) (w : Word) : Reg → State
  | .cmd => s.start w
  | .arg0 => { s with arg0 := w }
  | .arg1 => { s with arg1 := w }
  | .arg2 => { s with arg2 := w }
  | .arg3 => { s with arg3 := w }
  | .seed => { s with seed := w }
  | .maxi => { s with maxi := lowBits s.cfg.pixW w }
  | .nseed => { s with nseed := w, nstate := w }
  | .mspace => { s with mspace := spaceOf w }
  | .maddr => { s with maddr := w }
  | .mdata => writeMdata s w
  | .id | .status | .cfg | .res0 | .res1 | .modcnt | .hcfg | .hcols | .pixd | .bitd | .byted | .idxd | .permmax => s

/-- What the host may do at any time: read STATUS, read ID, or reset (70_reset R342, R345). -/
def Transaction.harmless : Transaction → Bool
  | .read off => regAt off = some .status || regAt off = some .id
  | .write _ _ => false
  | .reset => true

/-- The transaction is a host hazard: it is made while BUSY = 1 and is not one of those the host may always make
(70_reset R345; 92_eei_decisions D42, 93 U2; log 7). -/
def State.hazardous (s : State) (t : Transaction) : Bool := s.status.busy && !t.harmless

/-- A value returned to the host (30_encoding R108). -/
def State.answer (s : State) (v : Word) : State := { s with trace := v :: s.trace }

/-- What the port does with a transaction: a misaligned or unmapped one sets HAF, and a read of that kind returns 0
(20_memory R81, R82). -/
def portStep (t : Transaction) (s : State) : State :=
  match t with
  | .read off =>
    match regAt off with
    | none => s.setHaf.answer 0
    | some r => (afterRead s r).answer (regValue s r)
  | .write off w =>
    match regAt off with
    | none => s.setHaf
    | some r => writeReg s w r
  | .reset => s.afterReset

/-- One host transaction (20_memory R80). A host hazard sets HAZ and has no other effect (70_reset R345); any other
transaction has its own effect, a CMD write starting its command (10_state R34, 40_command_cycle R130). -/
def hostStep (t : Transaction) (s : State) : State :=
  if s.hazardous t then s.setHaz else portStep t s

end Sys2Proof.Machine
end

