-- ==== Sys2Proof/Machine/Engine.lean ====
section
/-! DEFINITION. The ENGINE step (40_command_cycle R131, R134), and which agent moves next (00_scope R11, 20_memory R90). -/

namespace Sys2Proof.Machine

/-- The end of the ENGINE step on an outcome (40_command_cycle R131). -/
def finishOutcome : Host.Outcome State Fault Refusal → Host.Outcome State Fault Refusal
  | .next t => .next t.finish
  | .fault f => .fault f
  | .refused r => .refused r

/-- The atomic ENGINE step on the pending word `w`: decode, execute, then PENDING empty and BUSY 0
(40_command_cycle R131); an illegal word is a failed command (R134). -/
def engineStep (w : Word) (s : State) : Host.Outcome State Fault Refusal :=
  match decode w with
  | .ok i => finishOutcome (exec i s)
  | .error e => .next (s.fail (illegalDetail e)).finish

/-- The ENGINE's turn: its step is enabled exactly when PENDING is not empty (40_command_cycle R131), and it is idle
otherwise (60_exceptions R314; log 2). -/
def engineTurn (s : State) : Host.Outcome State Fault Refusal :=
  match s.pending with
  | some w => engineStep w s
  | none => .next s

/-- One step of the machine: the next event of the host, or the ENGINE's turn where the host issues nothing
(20_memory R90; log 1). -/
def stepNext (s : State) : Host.Outcome State Fault Refusal :=
  match s.inbox with
  | [] => engineTurn s
  | .engineTurn :: rest => engineTurn { s with inbox := rest }
  | .transact t :: rest => .next (hostStep t { s with inbox := rest })

/-- The state in which the next step is the ENGINE step on the word `w`: the word has been written to CMD
(40_command_cycle R130) and the host issues nothing before the ENGINE's turn (log 13). -/
def loadCommand (s : State) (w : Word) : State :=
  { s.start w with inbox := .engineTurn :: s.inbox }

end Sys2Proof.Machine
end

