-- ==== Sys2Proof/Machine/Step.lean ====
section
/-! DEFINITION. The machine's step, and how a command word is placed for the next step. -/

namespace Sys2Proof.Machine

/-- One step: a host transaction or an ENGINE turn (20_memory R90). -/
def step (s : State) : Host.Outcome State Fault Refusal := stepNext s

/-- `s` with the command word `w` written to CMD, so that the next step executes it (log 13). A command is one 32-bit
word (30_encoding R100), whatever the number of bits given. -/
def State.withFetchWord (s : State) (_nbits w : Nat) : State := loadCommand s (BitVec.ofNat 32 w)

end Sys2Proof.Machine
end

