-- ==== Sys2Proof/Machine/Assembler.lean ====
section
/-! DEFINITION. The host-program assembly of 30_encoding R108 and R109, as its expansion to host events. The text form
itself, comments and number syntax are not modelled (log 19). -/

namespace Sys2Proof.Machine

/-- A statement of a host program (30_encoding R108, R109). -/
inductive Stmt where
  /-- `wr NAME, v` -/
  | wr (r : Reg) (v : Word)
  /-- `rd NAME` -/
  | rd (r : Reg)
  /-- a read of a bare offset, as program P4 of 95_test_vectors makes one -/
  | rdOffset (off : BitVec 8)
  /-- `poll` -/
  | poll
  /-- `<m> v0, …`, and `nop` with no operand -/
  | command (i : Instr) (operands : List Word)
  /-- `store SP, a, v0, v1, …` -/
  | store (sp : Space) (a : Word) (vs : List Word)
  /-- `store BYTE, a, "text"`, the text as its ASCII bytes -/
  | storeText (a : Word) (text : List Byte)
  /-- `load SP, a, n` -/
  | load (sp : Space) (a : Word) (n : Nat)
  /-- `chk`; where the value read has ERR = 1 the host stops its program, which the HPCE does not see -/
  | chk
deriving DecidableEq, Repr

/-- How many ARG registers a command reads (30_encoding R102, R109). -/
def operandCount : Instr → Nat
  | .nop => 0
  | .hcol | .hmul | .hfind => 1
  | .minbits | .nudge | .hash | .hbest | .hgen | .hrow | .hadd | .hsyn => 2
  | .b2bits | .bits2b | .extdec | .permfwdBit | .permfwdIdx | .perminvBit | .perminvIdx | .permidx => 3
  | .extenc | .hembed | .hextract => 4

/-- A command statement gives as many operands as its command reads (30_encoding R109). -/
def Stmt.wellFormed : Stmt → Bool
  | .command i operands => operands.length = operandCount i
  | .wr _ _ | .rd _ | .rdOffset _ | .poll | .store _ _ _ | .storeText _ _ | .load _ _ _ | .chk => true

/-- `wr NAME, v` (30_encoding R108). -/
def wrEvent (r : Reg) (v : Word) : Event := .transact (.write r.offset v)

/-- `rd NAME` (30_encoding R108). -/
def rdEvent (r : Reg) : Event := .transact (.read r.offset)

/-- `poll` where `early` reads of STATUS land before the ENGINE's step and one after it (30_encoding R109,
70_reset R346; log 19). -/
def pollEvents (early : Nat) : List Event :=
  List.replicate early (rdEvent .status) ++ [.engineTurn, rdEvent .status]

/-- The port transactions of a statement (30_encoding R108, R109), with `early` busy reads in each poll. -/
def Stmt.expand (early : Nat) : Stmt → List Event
  | .wr r v => [wrEvent r v]
  | .rd r => [rdEvent r]
  | .rdOffset off => [.transact (.read off)]
  | .poll => pollEvents early
  | .command i operands =>
    List.zipWith wrEvent [.arg0, .arg1, .arg2, .arg3] operands ++ wrEvent .cmd (encode i) :: pollEvents early
  | .store sp a vs => wrEvent .mspace sp.code :: wrEvent .maddr a :: vs.map (wrEvent .mdata)
  | .storeText a text =>
    wrEvent .mspace Space.byte.code :: wrEvent .maddr a :: text.map fun c => wrEvent .mdata (c.setWidth 32)
  | .load sp a n => wrEvent .mspace sp.code :: wrEvent .maddr a :: List.replicate n (rdEvent .mdata)
  | .chk => [rdEvent .status]

end Sys2Proof.Machine
end

