-- ==== Sys2Proof/Safety.lean ====
section
/-! DEFINITION. What the statements call a well-formed state, a clean entry and the end of a run (70_reset R353, R354),
and the words they use about memory ranges. -/

namespace Sys2Proof.Machine

/-- Every written cell lies inside the space (20_memory R70). -/
abbrev Mem.Within {α : Type} (m : Mem α) (d : Nat) : Prop := ∀ e ∈ m, e.1 < d

/-- The four memories are in canonical form, inside their spaces, and pixels fit PIX_W bits (20_memory R70). -/
abbrev State.MemoriesWf (s : State) : Prop :=
  (s.pix.wf ∧ s.bit.wf ∧ Mem.wf s.byte ∧ s.idx.wf) ∧
    (s.pix.Within (depth s.cfg .pix) ∧ s.bit.Within (depth s.cfg .bit) ∧ Mem.Within s.byte (depth s.cfg .byte) ∧
      s.idx.Within (depth s.cfg .idx)) ∧
    ∀ e ∈ s.pix, e.2.toNat < 2 ^ s.cfg.pixW

/-- STATUS and PENDING agree: BUSY is 1 exactly while a command is pending (10_state R51), KIND and ERR are those of
DETAIL (10_state R32), LASTOP and PENDING are CMD's, and a pending command has cleared the error (40_command_cycle
R130). -/
abbrev State.StatusWf (s : State) : Prop :=
  s.status.busy = s.pending.isSome ∧ s.status.kind = s.status.detail.kind ∧
    s.status.err = decide (s.status.detail ≠ .none) ∧ s.status.lastop = s.cmd.extractLsb' 0 8 ∧
    (s.pending = none ∨ s.pending = some s.cmd) ∧
    (s.pending ≠ none → s.status.err = false ∧ s.awaitPoll = true)

/-- The matrix registers: HCOLS is `2^HROWS - 1` with HROWS in 1 to ROWS_MAX once a matrix is valid, and both are 0
before (10_state R42, R43, R54). -/
abbrev State.MatrixWf (s : State) : Prop :=
  (s.hvalid = true →
      1 ≤ s.hrows.toNat ∧ s.hrows.toNat ≤ s.cfg.rowsMax ∧ s.hcols.toNat = 2 ^ s.hrows.toNat - 1) ∧
    (s.hvalid = false → s.hrows = 0 ∧ s.hcols = 0)

/-- The invariant of the machine: legal parameters (00_scope R8), memories, STATUS and matrix as above, MAXI inside
PIX_W bits (10_state R40), and DRAWBUF empty between commands (10_state R49). -/
abbrev State.Inv (s : State) : Prop :=
  s.cfg.WellFormed ∧ s.MemoriesWf ∧ s.StatusWf ∧ s.MatrixWf ∧ s.maxi.toNat < 2 ^ s.cfg.pixW ∧ s.drawBuf = []

/-- The clean-entry premises of a claim about a host program (70_reset R354). -/
abbrev State.CleanEntry (s : State) : Prop :=
  s.haz = false ∧ s.status = Status.reset ∧ s.pending = none ∧ s.hvalid = false ∧ s.maxi = 0 ∧ s.seed = 0 ∧
    s.nseed = 0 ∧ s.pix = [] ∧ s.bit = [] ∧ s.byte = [] ∧ s.idx = []

/-- The run is over: no host event is left and no command is in flight (70_reset R353). It holds with HAZ set too: that a
state with HAZ recorded is 'never final' (60_exceptions R309) is left to the separate premise `State.NoHazard`, which is the
model's choice (DESIGN CHOICE, log 20). -/
abbrev State.RunOver (s : State) : Prop := s.inbox = [] ∧ s.pending = none

/-- The run recorded no host hazard (70_reset R353; 60_exceptions R309). A claim about a run takes it beside
`State.RunOver`, which does not exclude HAZ (DESIGN CHOICE, log 20). -/
abbrev State.NoHazard (s : State) : Prop := s.haz = false

/-- The host keeps its duty at this step: between a CMD write and the first STATUS read that returns BUSY = 0 its next
transaction is a read of STATUS or ID, or a reset (70_reset R345, R346; log 7). -/
def State.waitsForCompletion (s : State) : Bool :=
  match s.inbox with
  | .transact t :: _ => !s.awaitPoll || t.harmless
  | .engineTurn :: _ => true
  | [] => true

/-- The cells from `a` on hold the list `vs` (00_scope R15, R17). -/
abbrev Mem.Holds {α : Type} (m : Mem α) (a : Nat) (vs : List α) : Prop :=
  ∀ k, (h : k < vs.length) → m.read (a + k) = some vs[k]

/-- The cells from `a + start` on hold the elements of `vs` from position `start` on (43_permutation R196). -/
abbrev Mem.HoldsFrom {α : Type} (m : Mem α) (a start : Nat) (vs : List α) : Prop :=
  ∀ k, start ≤ k → (h : k < vs.length) → m.read (a + k) = some vs[k]

/-- Cell `a + k` is the first of the `n` cells from `a` on that was never written since reset (10_state R55). -/
abbrev Mem.FirstUnwritten {α : Type} (m : Mem α) (a n k : Nat) : Prop :=
  k < n ∧ m.read (a + k) = none ∧ ∀ j, j < k → m.read (a + j) ≠ none

/-- `m'` differs from `m` at most in the `n` cells from `a` on (20_memory R73). -/
abbrev Mem.SameOutside {α : Type} (m m' : Mem α) (a n : Nat) : Prop :=
  ∀ b, ¬(a ≤ b ∧ b < a + n) → m'.read b = m.read b

/-- The state of a command that failed with a kind and a detail code: nothing but ERR, KIND and DETAIL differs
(40_command_cycle R132). -/
def State.Raised (s : State) (k : ErrKind) (d : Detail) : State :=
  { s with status := { s.status with err := true, kind := k, detail := d } }

/-- Element `t` of `H · v` over GF(2), the sum written out: `(Σ_{c<C} bit(c + 1, t) × v[c]) mod 2`
(44_hamming_matrix R221, R222). -/
def gf2Product (v : Nat → Bool) (C t : Nat) : Bool :=
  ((List.range C).filter fun c => (c + 1).testBit t && v c).length % 2 = 1

/-- A sequence with its elements `i` and `j` swapped (43_permutation R196). -/
def swapAt {α : Type} (l : List α) (i j : Nat) : List α :=
  match l[i]?, l[j]? with
  | some x, some y => (l.set i y).set j x
  | _, _ => l

/-- `fwd(s, start)` for the draws `j`: swaps from position `n - 1` down to `start` (43_permutation R196). -/
def fwdSwaps {α : Type} (j : Nat → Nat) (n start : Nat) (l : List α) : List α :=
  (List.range (n - start)).reverse.foldl (fun l k => swapAt l (start + k) (j (start + k))) l

/-- `inv(s, start)` for the draws `j`: swaps from position `start` up to `n - 1` (43_permutation R197). -/
def invSwaps {α : Type} (j : Nat → Nat) (n start : Nat) (l : List α) : List α :=
  (List.range (n - start)).foldl (fun l k => swapAt l (start + k) (j (start + k))) l

/-- `st` and `j` are the generator states and the draws of a permutation over `[start, n)` seeded from SEED: `st n` is
the seeded state, and the draw of position `i` is taken from `st (i + 1)` and leaves `st i`
(43_permutation R192, R195, R203). -/
def State.DrawsFrom (s : State) (n start : Nat) (st j : Nat → Nat) : Prop :=
  st n = prngInit s.cfg.prng s.seed ∧
    ∀ i, start ≤ i → i < n →
      j i = start + (prngNext s.cfg.prng (st (i + 1))).1 % (i - start + 1) ∧
        st i = (prngNext s.cfg.prng (st (i + 1))).2

/-- The operands of PERMFWD, PERMINV and PERMIDX pass the checks of 43_permutation R202 in a space of `d` cells. -/
abbrev State.PermOperandsOk (s : State) (d : Nat) : Prop :=
  s.arg2.toNat ≤ s.arg1.toNat ∧ s.arg0.toNat + s.arg1.toNat ≤ d ∧
    s.arg1.toNat - s.arg2.toNat ≤ s.cfg.permMax.toNat

/-- A current matrix with at least two rows (44_hamming_matrix R220, 45_syndrome_embed R261). -/
abbrev State.UsefulCode (s : State) : Prop :=
  s.hvalid = true ∧ 2 ≤ s.hrows.toNat ∧ s.hcols.toNat = 2 ^ s.hrows.toNat - 1

/-- The block count `B = ceil_div(P, r)`, written as the count of blocks that hold a payload bit
(45_syndrome_embed R261). -/
abbrev State.BlockCount (s : State) (B : Nat) : Prop :=
  s.arg1.toNat ≤ B * s.hrows.toNat ∧ B * s.hrows.toNat < s.arg1.toNat + s.hrows.toNat

/-- HEMBED's checks pass for the payload `pl` and the block pixels `px` of `B` blocks (45_syndrome_embed R263). -/
abbrev State.EmbedOk (s : State) (B : Nat) (pl : List Bool) (px : List Word) : Prop :=
  s.UsefulCode ∧ s.maxi ≠ 0 ∧ s.BlockCount B ∧
    s.arg0.toNat + s.arg1.toNat ≤ s.cfg.bitDepth.toNat ∧ s.arg3.toNat ≤ s.cfg.pixDepth.toNat ∧
    s.arg2.toNat + B * s.hcols.toNat ≤ s.arg3.toNat ∧
    pl.length = s.arg1.toNat ∧ s.bit.Holds s.arg0.toNat pl ∧
    px.length = B * s.hcols.toNat ∧ s.pix.Holds s.arg2.toNat px ∧ ∀ x ∈ px, x.toNat ≤ s.maxi.toNat

end Sys2Proof.Machine
end

