-- ==== Sys2Proof/Certificates/Slice0/Obligations.lean ====
section
/-! DEFINITION. The statements for the provers. Each docstring names the rules of spec/ it formalises; a clause that rests on
a choice of the model says so. -/

open Sys2Proof Sys2Proof.Machine

/-! ### Encoding -/

/-- 30_encoding R102: words written out from the opcode map, one of each group and both spaces of the PERM commands. -/
def Obligations.KnownWordsDecode : Prop :=
  decode 0x00000000 = .ok .nop ∧ decode 0x00000010 = .ok .b2bits ∧ decode 0x00000014 = .ok .extdec ∧
    decode 0x00000020 = .ok .nudge ∧ decode 0x00000031 = .ok .permfwdBit ∧ decode 0x00000131 = .ok .permfwdIdx ∧
    decode 0x00000132 = .ok .perminvIdx ∧ decode 0x00000047 = .ok .hsyn ∧ decode 0x00000051 = .ok .hextract ∧
    decode 0x00000015 = .error .badOpcode ∧ decode 0x000002FF = .error .badOpcode ∧
    decode 0x00000133 = .error .rsvdBits ∧ decode 0x80000000 = .error .rsvdBits

/-- 30_encoding R100, R102, R103: a word decodes to a command exactly when it is that command's word. -/
def Obligations.DecodeEncodeAgree : Prop :=
  ∀ (w : Word) (i : Instr), decode w = .ok i ↔ w = encode i

/-- 30_encoding R107: the decoding function on every word, in terms of its fields OPC (bits 7:0), SP (bit 8) and RSV
(bits 31:9). -/
def Obligations.DecodeRejectsByName : Prop :=
  ∀ w : Word,
    let f : Fields := { opc := w.extractLsb' 0 8, sp := w.getLsbD 8, rsv := w.extractLsb' 9 23 }
    (decode w = .error .badOpcode ↔ ¬f.OpcAssigned) ∧
      (decode w = .error .rsvdBits ↔ f.OpcAssigned ∧ ¬(f.RsvZero ∧ f.SpLegal)) ∧
      ((∃ i, decode w = .ok i) ↔ f.WellFormed)

/-! ### The command cycle -/

/-- 40_command_cycle R131, R134: in the ENGINE's turn a pending word that decodes to `i` runs as `exec i`, after which
PENDING is empty and BUSY 0; with no host event left, and with the host giving its turn away. With nothing pending the
step is not enabled, and the turn changes nothing (the model's choice of a stuttering step, log 2). -/
def Obligations.StepRunsPendingCommand : Prop :=
  (∀ (s : State) (w : Word) (i : Instr), s.pending = some w → decode w = .ok i →
    (∀ t, s.inbox = [] → exec i s = .next t →
      step s = .next { t with pending := none, status := { t.status with busy := false } }) ∧
    (∀ f, s.inbox = [] → exec i s = .fault f → step s = .fault f) ∧
    (∀ rest t, s.inbox = .engineTurn :: rest → exec i { s with inbox := rest } = .next t →
      step s = .next { t with pending := none, status := { t.status with busy := false } }) ∧
    (∀ rest f, s.inbox = .engineTurn :: rest → exec i { s with inbox := rest } = .fault f → step s = .fault f)) ∧
  ∀ s : State, s.pending = none →
    (s.inbox = [] → step s = .next s) ∧
      ∀ rest, s.inbox = .engineTurn :: rest → step s = .next { s with inbox := rest }

/-- 40_command_cycle R134, 30_encoding R104, R105: a pending illegal word is a failed command with
`InvalidArgument(BAD_OPCODE)` or `InvalidArgument(RSVD_BITS)` and nothing else, with no host event left and with the
host giving its turn away. -/
def Obligations.IllegalWordIsFailedCommand : Prop :=
  ∀ (s : State) (w : Word) (rest : List Event), s.pending = some w →
    (s.inbox = [] ∧ rest = []) ∨ s.inbox = .engineTurn :: rest →
    let f : Fields := { opc := w.extractLsb' 0 8, sp := w.getLsbD 8, rsv := w.extractLsb' 9 23 }
    (¬f.OpcAssigned →
      step s = .next { s with
        pending := none
        inbox := rest
        status := { s.status with busy := false, err := true, kind := .invalidArgument, detail := .badOpcode } }) ∧
    (f.OpcAssigned → ¬(f.RsvZero ∧ f.SpLegal) →
      step s = .next { s with
        pending := none
        inbox := rest
        status := { s.status with busy := false, err := true, kind := .invalidArgument, detail := .rsvdBits } })

/-- 10_state R34, 40_command_cycle R130: a host write of `w` to offset 0x04 while BUSY = 0 starts the command. That the
model notes the CMD write in `awaitPoll` is its own (log 7). -/
def Obligations.CmdWriteStartsCommand : Prop :=
  ∀ (s : State) (w : Word) (rest : List Event),
    s.inbox = .transact (.write 0x04 w) :: rest → s.status.busy = false →
    step s = .next { s with
      inbox := rest
      cmd := w
      pending := some w
      status :=
        { s.status with busy := true, err := false, kind := .none, detail := .none, lastop := w.extractLsb' 0 8 }
      awaitPoll := true }

/-- 40_command_cycle R130, R131, R139 (derived): the word 0 is NOP and every other word of its opcode is illegal; NOP placed
as the next command leaves ERR, KIND and DETAIL at 0 and changes nothing else of the machine but CMD and LASTOP. That a
word can be placed in every state, busy ones too (`withFetchWord`), is the model's own (log 13), and so is the window bit
`awaitPoll` that the CMD write of the placement sets and that stays set with BUSY 0 until a STATUS read (log 7). -/
def Obligations.NopClearsError : Prop :=
  decode 0x00000000 = .ok .nop ∧ (∀ w : Word, w.extractLsb' 0 8 = 0 → w ≠ 0 → decode w = .error .rsvdBits) ∧
  ∀ s : State,
    exec .nop s = .next s ∧
      step (s.withFetchWord 32 0) = .next { s with
        cmd := 0
        pending := none
        status := { busy := false, err := false, kind := .none, haf := s.status.haf, detail := .none, lastop := 0 }
        awaitPoll := true }

/-- 40_command_cycle R132, 60_exceptions R301, R303: whatever command fails, its only effects are on ERR, KIND and
DETAIL, and KIND is the kind of the detail code. -/
def Obligations.FailureIsAtomic : Prop :=
  ∀ (i : Instr) (s t : State), exec i s = .next t → s.status.err = false → t.status.err = true →
    ∃ d : Detail, d ≠ .none ∧ t = s.Raised d.kind d

/-- 40_command_cycle R137, R138: what no command writes, and what only the named commands write; STATUS is unchanged by a
command that succeeds. -/
def Obligations.CommandsWriteOnlyNamedRegisters : Prop :=
  ∀ (i : Instr) (s t : State), exec i s = .next t →
    (t.cfg = s.cfg ∧ t.cmd = s.cmd ∧ t.pending = s.pending ∧ t.arg0 = s.arg0 ∧ t.arg1 = s.arg1 ∧ t.arg2 = s.arg2 ∧
      t.arg3 = s.arg3 ∧ t.maxi = s.maxi ∧ t.nseed = s.nseed ∧ t.mspace = s.mspace ∧ t.maddr = s.maddr ∧
      t.haz = s.haz ∧ t.awaitPoll = s.awaitPoll ∧ t.inbox = s.inbox ∧ t.trace = s.trace) ∧
    (t.status.busy = s.status.busy ∧ t.status.haf = s.status.haf ∧ t.status.lastop = s.status.lastop) ∧
    (s.status.err = false → t.status.err = false → t.status = s.status) ∧
    (i ≠ .hembed → t.modcnt = s.modcnt) ∧
    (i ≠ .hash → t.seed = s.seed) ∧
    (i ≠ .hgen → t.hrows = s.hrows ∧ t.hvalid = s.hvalid ∧ t.hcols = s.hcols) ∧
    (i ∉ [.b2bits, .bits2b, .minbits, .extenc, .extdec, .nudge, .hash, .hbest, .hcol, .hmul, .hadd, .hfind, .hsyn,
      .hembed, .hextract] → t.res0 = s.res0) ∧
    (i ∉ [.bits2b, .nudge, .hash, .hbest] → t.res1 = s.res1) ∧
    (i ∉ [.nudge, .hembed] → t.nstate = s.nstate ∧ t.drawCount = s.drawCount) ∧
    (i ∉ [.permfwdBit, .permfwdIdx, .perminvBit, .perminvIdx, .permidx] →
      t.pstate = s.pstate ∧ t.drawBuf = s.drawBuf)

/-- 20_memory R72: which command writes which memory; a command with no W there leaves every cell of it. -/
def Obligations.CommandsWriteOnlyNamedSpaces : Prop :=
  ∀ (i : Instr) (s t : State), exec i s = .next t →
    (i ∉ [.nudge, .hembed] → t.pix = s.pix) ∧
    (i ∉ [.b2bits, .minbits, .extenc, .permfwdBit, .perminvBit, .hrow, .hextract] → t.bit = s.bit) ∧
    (i ∉ [.bits2b, .extdec] → t.byte = s.byte) ∧
    (i ∉ [.permfwdIdx, .perminvIdx, .permidx] → t.idx = s.idx)

/-- 10_state R55, 60_exceptions R309: a command stops with UninitRead only at a cell never written since reset, in a space
R72 lets it read; and a command whose checks pass and that reads a cell never written does stop with it, at the first
such cell of the range it reads (for a permutation at one of the range). Which cells count as read is log 6. -/
def Obligations.UninitReadIsUnwrittenCell : Prop :=
  (∀ (i : Instr) (s : State) (sp : Space) (a : Nat), exec i s = .fault (.uninitRead sp a) →
    match sp with
    | .pix => s.pix.read a = none ∧ i ∈ [Instr.nudge, .hsyn, .hembed, .hextract]
    | .bit => s.bit.read a = none ∧ i ∈ [Instr.bits2b, .extdec, .permfwdBit, .perminvBit, .hmul, .hembed]
    | .byte => Mem.read s.byte a = none ∧ i ∈ [Instr.b2bits, .extenc, .hash]
    | .idx => s.idx.read a = none ∧ i ∈ [Instr.permfwdIdx, .perminvIdx]) ∧
  ∀ (s : State) (k B : Nat),
    (s.arg0.toNat + s.arg1.toNat ≤ s.cfg.byteDepth.toNat → s.arg2.toNat + 8 * s.arg1.toNat ≤ s.cfg.bitDepth.toNat →
      Mem.FirstUnwritten s.byte s.arg0.toNat s.arg1.toNat k →
      exec .b2bits s = .fault (.uninitRead .byte (s.arg0.toNat + k))) ∧
    (s.arg0.toNat + s.arg1.toNat ≤ s.cfg.bitDepth.toNat → s.arg2.toNat + s.arg1.toNat / 8 ≤ s.cfg.byteDepth.toNat →
      s.bit.FirstUnwritten s.arg0.toNat (8 * (s.arg1.toNat / 8)) k →
      exec .bits2b s = .fault (.uninitRead .bit (s.arg0.toNat + k))) ∧
    (1 ≤ s.arg1.toNat → s.arg1.toNat ≤ 5 → s.arg0.toNat + s.arg1.toNat ≤ s.cfg.byteDepth.toNat →
      s.arg2.toNat + (s.arg3.toNat + 40) ≤ s.cfg.bitDepth.toNat →
      Mem.FirstUnwritten s.byte s.arg0.toNat s.arg1.toNat k → (k ≠ 0 → Mem.read s.byte s.arg0.toNat = some 0x2E) →
      exec .extenc s = .fault (.uninitRead .byte (s.arg0.toNat + k))) ∧
    (40 ≤ s.arg1.toNat → s.arg0.toNat + s.arg1.toNat ≤ s.cfg.bitDepth.toNat →
      s.arg2.toNat + 6 ≤ s.cfg.byteDepth.toNat → s.bit.FirstUnwritten (s.arg0.toNat + (s.arg1.toNat - 40)) 40 k →
      exec .extdec s = .fault (.uninitRead .bit (s.arg0.toNat + (s.arg1.toNat - 40) + k))) ∧
    (s.maxi ≠ 0 → s.arg1.toNat ≤ 1 → s.arg0.toNat < s.cfg.pixDepth.toNat → s.pix.read s.arg0.toNat = none →
      exec .nudge s = .fault (.uninitRead .pix s.arg0.toNat)) ∧
    (s.arg0.toNat + s.arg1.toNat ≤ s.cfg.byteDepth.toNat → Mem.FirstUnwritten s.byte s.arg0.toNat s.arg1.toNat k →
      exec .hash s = .fault (.uninitRead .byte (s.arg0.toNat + k))) ∧
    (∀ i ∈ [Instr.permfwdBit, .perminvBit], s.PermOperandsOk s.cfg.bitDepth.toNat → s.arg2.toNat ≤ k →
      k < s.arg1.toNat → s.bit.read (s.arg0.toNat + k) = none →
      ∃ q, s.arg2.toNat ≤ q ∧ q < s.arg1.toNat ∧ exec i s = .fault (.uninitRead .bit (s.arg0.toNat + q))) ∧
    (∀ i ∈ [Instr.permfwdIdx, .perminvIdx], s.PermOperandsOk s.cfg.idxDepth.toNat → s.arg2.toNat ≤ k →
      k < s.arg1.toNat → s.idx.read (s.arg0.toNat + k) = none →
      ∃ q, s.arg2.toNat ≤ q ∧ q < s.arg1.toNat ∧ exec i s = .fault (.uninitRead .idx (s.arg0.toNat + q))) ∧
    (s.hvalid = true → s.arg0.toNat + s.hcols.toNat ≤ s.cfg.bitDepth.toNat →
      s.bit.FirstUnwritten s.arg0.toNat s.hcols.toNat k →
      exec .hmul s = .fault (.uninitRead .bit (s.arg0.toNat + k))) ∧
    (s.hvalid = true → s.arg1.toNat ≤ s.cfg.pixDepth.toNat → s.pix.FirstUnwritten s.arg0.toNat s.hcols.toNat k →
      s.arg0.toNat + k < s.arg1.toNat → exec .hsyn s = .fault (.uninitRead .pix (s.arg0.toNat + k))) ∧
    (s.UsefulCode → s.BlockCount B → s.arg0.toNat + s.arg1.toNat ≤ s.cfg.bitDepth.toNat →
      s.arg3.toNat ≤ s.cfg.pixDepth.toNat →
      (s.maxi ≠ 0 → s.arg2.toNat + B * s.hcols.toNat ≤ s.arg3.toNat →
        s.pix.FirstUnwritten s.arg2.toNat (B * s.hcols.toNat) k →
        exec .hembed s = .fault (.uninitRead .pix (s.arg2.toNat + k))) ∧
      (∀ px : List Word, s.maxi ≠ 0 → s.arg2.toNat + B * s.hcols.toNat ≤ s.arg3.toNat →
        px.length = B * s.hcols.toNat → s.pix.Holds s.arg2.toNat px → (∀ x ∈ px, x.toNat ≤ s.maxi.toNat) →
        s.bit.FirstUnwritten s.arg0.toNat s.arg1.toNat k →
        exec .hembed s = .fault (.uninitRead .bit (s.arg0.toNat + k))) ∧
      (s.pix.FirstUnwritten s.arg2.toNat (B * s.hcols.toNat) k → s.arg2.toNat + k < s.arg3.toNat →
        exec .hextract s = .fault (.uninitRead .pix (s.arg2.toNat + k))))

/-- 30_encoding R106, R107 and the command rules: no step is refused, and a step stops only with UninitRead of a pending
command that is a command of R102 (derived). -/
def Obligations.EveryStepHasMeaning : Prop :=
  ∀ s : State,
    (∃ t, step s = .next t) ∨
      ∃ w i sp a, s.pending = some w ∧ w = encode i ∧ step s = .fault (.uninitRead sp a)

/-- 60_exceptions R306: InternalInvariantViolation is reported by HFIND alone, with a target that is zero or, for a
matrix of HROWS rows, wider than HROWS bits. -/
def Obligations.InternalViolationOnlyFromHfind : Prop :=
  ∀ (i : Instr) (s t : State), exec i s = .next t → s.status.err = false →
    s.hcols.toNat = 2 ^ s.hrows.toNat - 1 → t.status.kind = .internalInvariantViolation →
    s.status.kind = .none → i = .hfind ∧ (s.arg0 = 0 ∨ 2 ^ s.hrows.toNat ≤ s.arg0.toNat)

/-- 10_state R48, R49: PSTATE and DRAWBUF are never observable by a command: whatever they hold, the outcome differs in
nothing but PSTATE and DRAWBUF themselves. -/
def Obligations.GeneratorStateNeverObserved : Prop :=
  ∀ (i : Instr) (s : State) (p : Nat) (b : List Nat),
    (∀ t, exec i s = .next t →
      ∃ p' b', exec i { s with pstate := p, drawBuf := b } = .next { t with pstate := p', drawBuf := b' }) ∧
    (∀ f, exec i s = .fault f → exec i { s with pstate := p, drawBuf := b } = .fault f)

/-! ### Invariants -/

/-- 10_state R32, R40, R42, R43, R51, 20_memory R70 (derived): every step keeps the invariant: legal parameters,
memories in canonical form and inside their spaces, pixels and MAXI inside PIX_W bits, BUSY exactly while a command is
pending, KIND and ERR those of DETAIL, HCOLS = 2^HROWS - 1, DRAWBUF empty. -/
def Obligations.StepKeepsInvariant : Prop :=
  ∀ s t : State, s.Inv → step s = .next t → t.Inv

/-- The invariant holds at reset (10_state R54; the parameters of the reset instance are log 3). -/
def Obligations.ResetMeetsInvariant : Prop := State.reset.Inv

/-- 10_state R52, R32, 60_exceptions R308: HAZ, once set, is never cleared, not even by reset; HAF, once set, stays 1
until a reset transaction. -/
def Obligations.FaultBitsAreSticky : Prop :=
  ∀ s t : State, step s = .next t →
    (s.haz = true → t.haz = true) ∧
      (s.status.haf = true → (∀ rest, s.inbox ≠ .transact .reset :: rest) → t.status.haf = true)

/-! ### Reset and the host port -/

/-- 10_state R54, R55, 70_reset R340, R341, R342: the state after reset, and the reset transaction, which, busy or not,
gives every register, field and hidden state its reset value, leaves no cell written, and keeps HAZ (10_state R52). PSTATE
and DRAWBUF, which the spec leaves unspecified, and the model's own fields stand as logs 10 and 14 say. -/
def Obligations.ResetValues : Prop :=
  (∀ s : State, s = State.reset →
    s.cmd = 0 ∧ statusWord s.status = 0 ∧ s.pending = none ∧
      s.arg0 = 0 ∧ s.arg1 = 0 ∧ s.arg2 = 0 ∧ s.arg3 = 0 ∧ s.res0 = 0 ∧ s.res1 = 0 ∧ s.modcnt = 0 ∧ s.seed = 0 ∧
      s.maxi = 0 ∧ s.nseed = 0 ∧ s.nstate = 0 ∧ s.hvalid = false ∧ s.hrows = 0 ∧ s.hcols = 0 ∧ s.mspace = .pix ∧
      s.maddr = 0 ∧
      ∀ a, s.pix.read a = none ∧ s.bit.read a = none ∧ Mem.read s.byte a = none ∧ s.idx.read a = none) ∧
  ∀ (s : State) (rest : List Event), s.inbox = .transact .reset :: rest →
    step s = .next { State.reset with
      cfg := s.cfg, haz := s.haz, drawCount := s.drawCount, inbox := rest, trace := s.trace }

/-- 70_reset R345, 60_exceptions R309, 93 U2, 10_state R31, R32: while BUSY = 1 the host may read STATUS (0x08) and ID
(0x00) and reset; any other transaction sets HAZ and has no other effect. While BUSY = 0 no transaction sets HAZ, also
where the completion was not read yet, which the model notes in `awaitPoll` and which changes no other effect (92 D42; log 7).
A STATUS read returns the STATUS word and an ID read the constant, in every state. -/
def Obligations.HazardWindow : Prop :=
  ∀ (s : State) (rest : List Event),
    (s.status.busy = true →
      (∀ off, off ≠ 0x08 → off ≠ 0x00 → s.inbox = .transact (.read off) :: rest →
        step s = .next { s with inbox := rest, haz := true }) ∧
      (∀ off w, s.inbox = .transact (.write off w) :: rest →
        step s = .next { s with inbox := rest, haz := true })) ∧
    (s.status.busy = false → ∀ tr : Transaction, s.inbox = .transact tr :: rest →
      ∃ t, step s = .next t ∧ t.haz = s.haz ∧
        ∀ b, ∃ b', step { s with awaitPoll := b } = .next { t with awaitPoll := b' }) ∧
    (s.inbox = .transact (.read 0x08) :: rest →
      step s = .next { s with
        inbox := rest
        trace := statusWord s.status :: s.trace
        awaitPoll := s.awaitPoll && s.status.busy }) ∧
    (s.inbox = .transact (.read 0x00) :: rest →
      step s = .next { s with inbox := rest, trace := 0x48504345 :: s.trace })

/-- 10_state R32, R33, R42, 60_exceptions R300, R303: the fields of the words STATUS, CFG (for legal parameters,
00_scope R8) and HCFG read as, every other bit 0; the numbers of the error kinds and of the detail codes, and the kind
number that each detail code fixes. -/
def Obligations.StatusCfgHcfgLayout : Prop :=
  (∀ st : Status,
    let w := statusWord st
    w.getLsbD 0 = st.busy ∧ w.getLsbD 1 = st.err ∧ w.extractLsb' 5 3 = 0 ∧ w.getLsbD 8 = st.haf ∧
      w.extractLsb' 9 7 = 0 ∧ w.extractLsb' 24 8 = st.lastop ∧
      w.extractLsb' 2 3 = (match st.kind with
        | .none => 0
        | .invalidArgument => 1
        | .capacityExceeded => 2
        | .internalInvariantViolation => 3
        | .resourceExhausted => 4) ∧
      w.extractLsb' 16 8 = (match st.detail with
        | .none => 0x00
        | .badOpcode => 0x01
        | .rsvdBits => 0x02
        | .noMatrix => 0x03
        | .codeTooSmall => 0x04
        | .rowsRange => 0x05
        | .colsMismatch => 0x06
        | .colIndex => 0x07
        | .rowIndex => 0x08
        | .maxiZero => 0x09
        | .pixelRange => 0x0A
        | .bitValue => 0x0B
        | .extTooLong => 0x0C
        | .extMalformed => 0x0D
        | .streamShort => 0x0E
        | .rangeOrder => 0x0F
        | .hammingCapacity => 0x20
        | .noColumn => 0x30
        | .pixBounds => 0x40
        | .bitBounds => 0x41
        | .byteBounds => 0x42
        | .idxBounds => 0x43
        | .permLimit => 0x44)) ∧
  (∀ d : Detail,
    d.kind = if d = .none then .none
      else if d = .hammingCapacity then .capacityExceeded
      else if d = .noColumn then .internalInvariantViolation
      else if d ∈ [Detail.pixBounds, .bitBounds, .byteBounds, .idxBounds, .permLimit] then .resourceExhausted
      else .invalidArgument) ∧
  (∀ p : Config.Params, p.WellFormed →
    let w := cfgWord p
    (w.extractLsb' 0 6).toNat = p.rowsMax ∧ w.extractLsb' 6 2 = 0 ∧ (w.extractLsb' 8 6).toNat = p.pixW ∧
      w.extractLsb' 14 2 = 0 ∧ w.getLsbD 16 = p.hash64 ∧ w.getLsbD 17 = p.charSigned ∧ w.extractLsb' 18 14 = 0) ∧
  ∀ (valid : Bool) (rows : BitVec 6),
    let w := hcfgWord valid rows
    w.extractLsb' 0 6 = rows ∧ w.extractLsb' 6 25 = 0 ∧ w.getLsbD 31 = valid

/-- 20_memory R81, R82, 10_state R30: while BUSY = 0 an access at a misaligned offset, or at 0x4C or from 0x64 on, sets
HAF; a read returns 0 and a write changes nothing else. -/
def Obligations.PortFaultsSetHaf : Prop :=
  ∀ (s : State) (rest : List Event) (off : BitVec 8), s.status.busy = false →
    off.toNat % 4 ≠ 0 ∨ off = 0x4C ∨ 0x64 ≤ off.toNat →
    let u : State := { s with inbox := rest }
    (s.inbox = .transact (.read off) :: rest →
      step s = .next { u with trace := 0 :: s.trace, status := { s.status with haf := true } }) ∧
    (∀ w, s.inbox = .transact (.write off w) :: rest →
      step s = .next { u with status := { s.status with haf := true } })

/-- 20_memory R83: while BUSY = 0 a write to a read-only register changes nothing and sets no HAF, and the read of a
register other than STATUS and MDATA returns its value with no side effect. The offsets are those of 10_state R30, the
numbers of MSPACE those of R45. -/
def Obligations.ReadOnlyWritesAndPlainReads : Prop :=
  ∀ (s : State) (rest : List Event), s.status.busy = false →
    let u : State := { s with inbox := rest }
    (∀ off w, off ∈ ([0x00, 0x08, 0x0C, 0x20, 0x24, 0x28, 0x38, 0x3C, 0x50, 0x54, 0x58, 0x5C, 0x60] : List (BitVec 8)) →
      s.inbox = .transact (.write off w) :: rest → step s = .next u) ∧
    (∀ off v, (off, v) ∈
        ([(0x04, s.cmd), (0x0C, cfgWord s.cfg), (0x10, s.arg0), (0x14, s.arg1), (0x18, s.arg2), (0x1C, s.arg3),
          (0x20, s.res0), (0x24, s.res1), (0x28, s.modcnt), (0x2C, s.seed), (0x30, s.maxi), (0x34, s.nseed),
          (0x38, hcfgWord s.hvalid s.hrows), (0x3C, s.hcols), (0x44, s.maddr), (0x50, s.cfg.pixDepth), (0x54, s.cfg.bitDepth),
          (0x58, s.cfg.byteDepth), (0x5C, s.cfg.idxDepth), (0x60, s.cfg.permMax)] : List (BitVec 8 × Word)) →
      s.inbox = .transact (.read off) :: rest → step s = .next { u with trace := v :: s.trace }) ∧
    (s.inbox = .transact (.read 0x40) :: rest →
      step s = .next { u with
        trace := (match s.mspace with
          | .pix => 0
          | .bit => 1
          | .byte => 2
          | .idx => 3) :: s.trace })

/-- 10_state R35, R39, R40, R41, R45, R46: while BUSY = 0, what a write of each operand, seed and window register stores;
MAXI keeps PIX_W bits, MSPACE selects PIX, BIT, BYTE or IDX by bits 1:0, and NSEED also sets NSTATE. -/
def Obligations.RegisterWritesStore : Prop :=
  ∀ (s : State) (rest : List Event) (w : Word), s.status.busy = false →
    let u : State := { s with inbox := rest }
    (s.inbox = .transact (.write 0x10 w) :: rest → step s = .next { u with arg0 := w }) ∧
    (s.inbox = .transact (.write 0x14 w) :: rest → step s = .next { u with arg1 := w }) ∧
    (s.inbox = .transact (.write 0x18 w) :: rest → step s = .next { u with arg2 := w }) ∧
    (s.inbox = .transact (.write 0x1C w) :: rest → step s = .next { u with arg3 := w }) ∧
    (s.inbox = .transact (.write 0x2C w) :: rest → step s = .next { u with seed := w }) ∧
    (s.inbox = .transact (.write 0x34 w) :: rest → step s = .next { u with nseed := w, nstate := w }) ∧
    (s.inbox = .transact (.write 0x44 w) :: rest → step s = .next { u with maddr := w }) ∧
    (s.inbox = .transact (.write 0x30 w) :: rest →
      ∃ v : Word, step s = .next { u with maxi := v } ∧
        ∀ k, v.getLsbD k = (decide (k < s.cfg.pixW) && w.getLsbD k)) ∧
    (s.inbox = .transact (.write 0x40 w) :: rest →
      ∃ sp : Space, step s = .next { u with mspace := sp } ∧
        (w.extractLsb' 0 2 = 0 → sp = .pix) ∧ (w.extractLsb' 0 2 = 1 → sp = .bit) ∧
        (w.extractLsb' 0 2 = 2 → sp = .byte) ∧ (w.extractLsb' 0 2 = 3 → sp = .idx))

/-- 20_memory R75, R77, R78: while BUSY = 0, a read of MDATA (0x48): a written cell's value zero-extended, a free value of
the cell's width for a cell never written (log 9), 0 with HAF out of range; MADDR goes on by one modulo 2^32 in every
case. -/
def Obligations.WindowReadReturnsCell : Prop :=
  ∀ (s : State) (rest : List Event), s.status.busy = false →
    s.inbox = .transact (.read 0x48) :: rest →
    let u : State := { s with inbox := rest }
    (∀ x, s.mspace = .pix → s.maddr.toNat < s.cfg.pixDepth.toNat → s.pix.read s.maddr.toNat = some x →
      step s = .next { u with trace := x :: s.trace, maddr := s.maddr + 1 }) ∧
    (∀ x, s.mspace = .bit → s.maddr.toNat < s.cfg.bitDepth.toNat → s.bit.read s.maddr.toNat = some x →
      step s = .next { u with trace := (if x then 1 else 0) :: s.trace, maddr := s.maddr + 1 }) ∧
    (∀ x, s.mspace = .byte → s.maddr.toNat < s.cfg.byteDepth.toNat → Mem.read s.byte s.maddr.toNat = some x →
      step s = .next { u with trace := BitVec.ofNat 32 x.toNat :: s.trace, maddr := s.maddr + 1 }) ∧
    (∀ x, s.mspace = .idx → s.maddr.toNat < s.cfg.idxDepth.toNat → s.idx.read s.maddr.toNat = some x →
      step s = .next { u with trace := x :: s.trace, maddr := s.maddr + 1 }) ∧
    ((match s.mspace with
        | .pix => s.pix.read s.maddr.toNat = none
        | .bit => s.bit.read s.maddr.toNat = none
        | .byte => Mem.read s.byte s.maddr.toNat = none
        | .idx => s.idx.read s.maddr.toNat = none) →
      s.maddr.toNat < depth s.cfg s.mspace →
      ∃ v : Word, (∀ k, k < 32 →
          v.getLsbD k = (decide (k < cellWidth s.cfg s.mspace) && (Config.freeCell s.drawCount).getLsbD k)) ∧
        step s = .next { u with trace := v :: s.trace, maddr := s.maddr + 1, drawCount := s.drawCount + 1 }) ∧
    (depth s.cfg s.mspace ≤ s.maddr.toNat →
      step s = .next { u with trace := 0 :: s.trace, maddr := s.maddr + 1, status := { s.status with haf := true } })

/-- 20_memory R76, R77, R78: while BUSY = 0, a write of MDATA (0x48): the low cell-width bits are stored in the selected
cell and no other cell changes, or HAF is set out of range; MADDR goes on by one modulo 2^32. -/
def Obligations.WindowWriteStoresCell : Prop :=
  ∀ (s : State) (rest : List Event) (w : Word), s.status.busy = false →
    s.inbox = .transact (.write 0x48 w) :: rest →
    let u : State := { s with inbox := rest }
    let a := s.maddr.toNat
    (s.mspace = .pix → a < s.cfg.pixDepth.toNat →
      ∃ m x, step s = .next { u with pix := m, maddr := s.maddr + 1 } ∧ m.read a = some x ∧
        (∀ k, x.getLsbD k = (decide (k < s.cfg.pixW) && w.getLsbD k)) ∧ s.pix.SameOutside m a 1) ∧
    (s.mspace = .bit → a < s.cfg.bitDepth.toNat →
      ∃ m, step s = .next { u with bit := m, maddr := s.maddr + 1 } ∧
        m.read a = some (w.getLsbD 0) ∧ s.bit.SameOutside m a 1) ∧
    (s.mspace = .byte → a < s.cfg.byteDepth.toNat →
      ∃ m : Mem Byte, step s = .next { u with byte := m, maddr := s.maddr + 1 } ∧
        m.read a = some (w.extractLsb' 0 8) ∧ Mem.SameOutside s.byte m a 1) ∧
    (s.mspace = .idx → a < s.cfg.idxDepth.toNat →
      ∃ m, step s = .next { u with idx := m, maddr := s.maddr + 1 } ∧
        m.read a = some w ∧ s.idx.SameOutside m a 1) ∧
    (depth s.cfg s.mspace ≤ a →
      step s = .next { u with maddr := s.maddr + 1, status := { s.status with haf := true } })

/-! ### CODEC -/

/-- 41_codec R152, R150: B2BITS completes, writes each byte's bits most significant first, RES0 = 8n, and changes nothing
else. -/
def Obligations.B2bitsExpandsBytes : Prop :=
  ∀ (s : State) (bytes : List Byte), bytes.length = s.arg1.toNat → Mem.Holds s.byte s.arg0.toNat bytes →
    s.arg0.toNat + s.arg1.toNat ≤ s.cfg.byteDepth.toNat →
    s.arg2.toNat + 8 * s.arg1.toNat ≤ s.cfg.bitDepth.toNat →
    ∃ t, exec .b2bits s = .next t ∧
      (∀ k, (h : k < bytes.length) → ∀ j, j < 8 →
        t.bit.read (s.arg2.toNat + 8 * k + j) = some (bytes[k].getLsbD (7 - j))) ∧
      s.bit.SameOutside t.bit s.arg2.toNat (8 * s.arg1.toNat) ∧
      t = { s with bit := t.bit, res0 := BitVec.ofNat 32 (8 * s.arg1.toNat) }

/-- 41_codec R153, R154: BITS2B completes, packs whole groups of eight bits, drops the rest unread, and reports both
counts. -/
def Obligations.Bits2bPacksBytes : Prop :=
  ∀ (s : State) (bits : List Bool), bits.length = 8 * (s.arg1.toNat / 8) → s.bit.Holds s.arg0.toNat bits →
    s.arg0.toNat + s.arg1.toNat ≤ s.cfg.bitDepth.toNat →
    s.arg2.toNat + s.arg1.toNat / 8 ≤ s.cfg.byteDepth.toNat →
    ∃ t, exec .bits2b s = .next t ∧
      (∀ k, k < s.arg1.toNat / 8 → ∃ y : Byte, Mem.read t.byte (s.arg2.toNat + k) = some y ∧
        ∀ j, j < 8 → bits[8 * k + j]? = some (y.getLsbD (7 - j))) ∧
      Mem.SameOutside s.byte t.byte s.arg2.toNat (s.arg1.toNat / 8) ∧
      t = { s with
        byte := t.byte
        res0 := BitVec.ofNat 32 (s.arg1.toNat / 8)
        res1 := BitVec.ofNat 32 (s.arg1.toNat % 8) }

/-- 41_codec R155, R156: for the length `k` with `2^(k-1) ≤ n < 2^k` (0 for n = 0), MINBITS completes and writes the `k`
bits of `n`, most significant first. -/
def Obligations.MinbitsWritesShortestBinary : Prop :=
  ∀ (s : State) (k : Nat), s.arg0.toNat < 2 ^ k → (k = 0 ∨ 2 ^ (k - 1) ≤ s.arg0.toNat) →
    s.arg1.toNat + k ≤ s.cfg.bitDepth.toNat →
    ∃ t, exec .minbits s = .next t ∧
      (∀ q, q < k → t.bit.read (s.arg1.toNat + q) = some (s.arg0.getLsbD (k - 1 - q))) ∧
      s.bit.SameOutside t.bit s.arg1.toNat k ∧
      t = { s with bit := t.bit, res0 := BitVec.ofNat 32 k }

/-- 41_codec R157, R158: for an extension of 1 to 5 bytes that begins with the dot and holds no zero byte after it, EXTENC
completes and appends the five slots, zero where the extension has ended. -/
def Obligations.ExtencAppendsSuffix : Prop :=
  ∀ (s : State) (tail : List Byte), s.arg1.toNat = tail.length + 1 → tail.length ≤ 4 → (0 : Byte) ∉ tail →
    Mem.Holds s.byte s.arg0.toNat (0x2E :: tail) →
    s.arg0.toNat + s.arg1.toNat ≤ s.cfg.byteDepth.toNat →
    s.arg2.toNat + (s.arg3.toNat + 40) ≤ s.cfg.bitDepth.toNat →
    ∃ t, exec .extenc s = .next t ∧
      (∀ q j, q < 5 → j < 8 →
        t.bit.read (s.arg2.toNat + s.arg3.toNat + 8 * q + j) = some ((tail[q]?.getD 0).getLsbD (7 - j))) ∧
      s.bit.SameOutside t.bit (s.arg2.toNat + s.arg3.toNat) 40 ∧
      t = { s with bit := t.bit, res0 := BitVec.ofNat 32 (s.arg3.toNat + 40) }

/-- 41_codec R159: with the five slots in the last 40 bits of the stream and `z` the first zero slot (or 5), EXTDEC
completes, writes the dot and the slots before `z`, and reports the length. -/
def Obligations.ExtdecReadsSuffix : Prop :=
  ∀ (s : State) (slots : List Byte) (z : Nat), slots.length = 5 → 40 ≤ s.arg1.toNat →
    (∀ q j, (h : q < slots.length) → j < 8 →
      s.bit.read (s.arg0.toNat + (s.arg1.toNat - 40) + 8 * q + j) = some (slots[q].getLsbD (7 - j))) →
    s.arg0.toNat + s.arg1.toNat ≤ s.cfg.bitDepth.toNat → s.arg2.toNat + 6 ≤ s.cfg.byteDepth.toNat →
    z ≤ 5 → (z = 5 ∨ slots[z]? = some 0) → (∀ q, q < z → slots[q]? ≠ some 0) →
    ∃ t, exec .extdec s = .next t ∧
      Mem.Holds t.byte s.arg2.toNat (0x2E :: slots.take z) ∧
      Mem.SameOutside s.byte t.byte s.arg2.toNat (1 + z) ∧
      t = { s with byte := t.byte, res0 := BitVec.ofNat 32 (1 + z) }

/-- 41_codec R152, R154, R156, R158, R159: the errors of the CODEC commands, each where the checks before it pass. -/
def Obligations.CodecChecksRaise : Prop :=
  ∀ s : State,
    (s.cfg.byteDepth.toNat < s.arg0.toNat + s.arg1.toNat →
      exec .b2bits s = .next (s.Raised .resourceExhausted .byteBounds)) ∧
    (s.arg0.toNat + s.arg1.toNat ≤ s.cfg.byteDepth.toNat →
      s.cfg.bitDepth.toNat < s.arg2.toNat + 8 * s.arg1.toNat →
      exec .b2bits s = .next (s.Raised .resourceExhausted .bitBounds)) ∧
    (s.cfg.bitDepth.toNat < s.arg0.toNat + s.arg1.toNat →
      exec .bits2b s = .next (s.Raised .resourceExhausted .bitBounds)) ∧
    (s.arg0.toNat + s.arg1.toNat ≤ s.cfg.bitDepth.toNat →
      s.cfg.byteDepth.toNat < s.arg2.toNat + s.arg1.toNat / 8 →
      exec .bits2b s = .next (s.Raised .resourceExhausted .byteBounds)) ∧
    (∀ k, (k = 0 ∨ 2 ^ (k - 1) ≤ s.arg0.toNat) → s.cfg.bitDepth.toNat < s.arg1.toNat + k →
      exec .minbits s = .next (s.Raised .resourceExhausted .bitBounds)) ∧
    (5 < s.arg1.toNat → exec .extenc s = .next (s.Raised .invalidArgument .extTooLong)) ∧
    (s.arg1 = 0 → exec .extenc s = .next (s.Raised .invalidArgument .extMalformed)) ∧
    (1 ≤ s.arg1.toNat → s.arg1.toNat ≤ 5 → s.cfg.byteDepth.toNat < s.arg0.toNat + s.arg1.toNat →
      exec .extenc s = .next (s.Raised .resourceExhausted .byteBounds)) ∧
    (1 ≤ s.arg1.toNat → s.arg1.toNat ≤ 5 → s.arg0.toNat + s.arg1.toNat ≤ s.cfg.byteDepth.toNat →
      s.cfg.bitDepth.toNat < s.arg2.toNat + (s.arg3.toNat + 40) →
      exec .extenc s = .next (s.Raised .resourceExhausted .bitBounds)) ∧
    (∀ c : Byte, 1 ≤ s.arg1.toNat → s.arg1.toNat ≤ 5 → s.arg0.toNat + s.arg1.toNat ≤ s.cfg.byteDepth.toNat →
      s.arg2.toNat + (s.arg3.toNat + 40) ≤ s.cfg.bitDepth.toNat → Mem.read s.byte s.arg0.toNat = some c → c ≠ 0x2E →
      exec .extenc s = .next (s.Raised .invalidArgument .extMalformed)) ∧
    (∀ tail : List Byte, tail.length + 1 = s.arg1.toNat → s.arg1.toNat ≤ 5 →
      s.arg0.toNat + s.arg1.toNat ≤ s.cfg.byteDepth.toNat →
      s.arg2.toNat + (s.arg3.toNat + 40) ≤ s.cfg.bitDepth.toNat → Mem.Holds s.byte s.arg0.toNat (0x2E :: tail) →
      (0 : Byte) ∈ tail → exec .extenc s = .next (s.Raised .invalidArgument .extMalformed)) ∧
    (s.arg1.toNat < 40 → exec .extdec s = .next (s.Raised .invalidArgument .streamShort)) ∧
    (40 ≤ s.arg1.toNat → s.cfg.bitDepth.toNat < s.arg0.toNat + s.arg1.toNat →
      exec .extdec s = .next (s.Raised .resourceExhausted .bitBounds)) ∧
    (40 ≤ s.arg1.toNat → s.arg0.toNat + s.arg1.toNat ≤ s.cfg.bitDepth.toNat →
      s.cfg.byteDepth.toNat < s.arg2.toNat + 6 →
      exec .extdec s = .next (s.Raised .resourceExhausted .byteBounds))

/-- 41_codec R160, R161: BITS2B of the stream B2BITS wrote restores the bytes with RES1 = 0; EXTDEC of the stream EXTENC
produced writes exactly the extension and returns its length. -/
def Obligations.CodecRoundTrips : Prop :=
  (∀ (s : State) (bytes : List Byte) (d : Word), bytes.length = s.arg1.toNat →
    Mem.Holds s.byte s.arg0.toNat bytes →
    s.arg0.toNat + s.arg1.toNat ≤ s.cfg.byteDepth.toNat →
    s.arg2.toNat + 8 * s.arg1.toNat ≤ s.cfg.bitDepth.toNat → d.toNat + s.arg1.toNat ≤ s.cfg.byteDepth.toNat →
    ∃ t u, exec .b2bits s = .next t ∧
      exec .bits2b { t with arg0 := s.arg2, arg1 := t.res0, arg2 := d } = .next u ∧
      Mem.Holds u.byte d.toNat bytes ∧ u.res0 = s.arg1 ∧ u.res1 = 0) ∧
  ∀ (s : State) (tail : List Byte) (d : Word), s.arg1.toNat = tail.length + 1 → tail.length ≤ 4 →
    (0 : Byte) ∉ tail → Mem.Holds s.byte s.arg0.toNat (0x2E :: tail) →
    s.arg0.toNat + s.arg1.toNat ≤ s.cfg.byteDepth.toNat →
    s.arg2.toNat + (s.arg3.toNat + 40) ≤ s.cfg.bitDepth.toNat → d.toNat + 6 ≤ s.cfg.byteDepth.toNat →
    ∃ t u, exec .extenc s = .next t ∧
      exec .extdec { t with arg0 := s.arg2, arg1 := t.res0, arg2 := d } = .next u ∧
      Mem.Holds u.byte d.toNat (0x2E :: tail) ∧ Mem.SameOutside t.byte u.byte d.toNat s.arg1.toNat ∧
      u.res0 = s.arg1

/-! ### NUDGE -/

/-- 42_nudge R181: for `M ≥ 1` and `0 ≤ x ≤ M` the nudge stays in `[0, M]`, moves by exactly 1 and flips the parity, for
both direction bits; for `M = 0` it leaves the range, and above `M` it can move further out. -/
def Obligations.NudgeStaysInRange : Prop :=
  (∀ (M x : Int) (b : Bool), 1 ≤ M → 0 ≤ x → x ≤ M →
    (0 ≤ nudge M x b ∧ nudge M x b ≤ M) ∧ (nudge M x b = x + 1 ∨ nudge M x b = x - 1) ∧
      nudge M x b % 2 = 1 - x % 2) ∧
    (nudge 0 0 true = -1 ∧ nudge 0 0 false = 1) ∧ ∀ M x : Int, M < x → x < nudge M x true

/-- 42_nudge R180, R183, R184: NUDGE completes; a pixel whose LSB is the target is left and no draw is taken; otherwise
one direction bit `b` decides the new value by the nudge rule. The bit is the free value or, under the reference
realisation, that of NSTATE (log 5). -/
def Obligations.NudgeSetsPixelLsb : Prop :=
  ∀ (s : State) (x : Word), s.maxi ≠ 0 → s.arg1.toNat ≤ 1 → s.arg0.toNat < s.cfg.pixDepth.toNat →
    s.pix.read s.arg0.toNat = some x → x.toNat ≤ s.maxi.toNat →
    ((x.getLsbD 0).toNat = s.arg1.toNat → exec .nudge s = .next { s with res0 := x, res1 := 0 }) ∧
    ((x.getLsbD 0).toNat ≠ s.arg1.toNat →
      ∃ t y b, exec .nudge s = .next t ∧ t.pix.read s.arg0.toNat = some y ∧
        y.toNat = (if b then (if x = s.maxi then x.toNat - 1 else x.toNat + 1)
          else (if x = 0 then x.toNat + 1 else x.toNat - 1)) ∧
        (y.getLsbD 0).toNat = s.arg1.toNat ∧
        s.pix.SameOutside t.pix s.arg0.toNat 1 ∧
        (s.cfg.nudgeSrc = .draw → b = Config.freeNudge s.drawCount ∧
          t = { s with pix := t.pix, res0 := y, res1 := 1, drawCount := s.drawCount + 1 }) ∧
        (s.cfg.nudgeSrc = .reference →
          (b = true ↔ (s.nstate * 1103515245 + 12345).toNat / 65536 % 32768 % 2 = 1) ∧
          t = { s with pix := t.pix, res0 := y, res1 := 1, nstate := s.nstate * 1103515245 + 12345 }))

/-- 42_nudge R183: the errors of NUDGE, each where the checks before it pass. -/
def Obligations.NudgeChecksRaise : Prop :=
  ∀ s : State,
    (s.maxi = 0 → exec .nudge s = .next (s.Raised .invalidArgument .maxiZero)) ∧
    (s.maxi ≠ 0 → 1 < s.arg1.toNat → exec .nudge s = .next (s.Raised .invalidArgument .bitValue)) ∧
    (s.maxi ≠ 0 → s.arg1.toNat ≤ 1 → s.cfg.pixDepth.toNat ≤ s.arg0.toNat →
      exec .nudge s = .next (s.Raised .resourceExhausted .pixBounds)) ∧
    (∀ x, s.maxi ≠ 0 → s.arg1.toNat ≤ 1 → s.arg0.toNat < s.cfg.pixDepth.toNat →
      s.pix.read s.arg0.toNat = some x → s.maxi.toNat < x.toNat →
      exec .nudge s = .next (s.Raised .invalidArgument .pixelRange))

/-! ### PERM -/

/-- 43_permutation R193, R194: HASH completes with RES0 and SEED the low and RES1 the high half of djb2 of the bytes, where
djb2 starts at 5381 and takes each byte in by `h × 33 + v` modulo 2^HASH_W, `v` sign-extended when CHAR_SIGNED. -/
def Obligations.HashDerivesSeed : Prop :=
  decode 0x00000030 = .ok .hash ∧
  (∀ (s : State) (bytes : List Byte), bytes.length = s.arg1.toNat → Mem.Holds s.byte s.arg0.toNat bytes →
    s.arg0.toNat + s.arg1.toNat ≤ s.cfg.byteDepth.toNat →
    exec .hash s = .next { s with
      res0 := BitVec.ofNat 32 (djb2 s.cfg bytes % 2 ^ 32)
      res1 := BitVec.ofNat 32 (djb2 s.cfg bytes / 2 ^ 32)
      seed := BitVec.ofNat 32 (djb2 s.cfg bytes % 2 ^ 32) }) ∧
  (∀ s : State, s.cfg.byteDepth.toNat < s.arg0.toNat + s.arg1.toNat →
    exec .hash s = .next (s.Raised .resourceExhausted .byteBounds)) ∧
  ∀ (p : Config.Params) (cs : List Byte) (c : Byte),
    djb2 p [] = 5381 ∧
      ((djb2 p (cs ++ [c]) : Nat) : Int) =
        ((djb2 p cs : Int) * 33 + (if p.charSigned then c.toInt else (c.toNat : Int))) %
          2 ^ (if p.hash64 then 64 else 32)

/-- 43_permutation R192, R195, R196, R199, R201, R203: PERMFWD completes on either space: with the draws `j` of a generator
seeded from SEED, the cells hold `fwd` of the sequence, no other cell changes, and PSTATE is the last generator state. -/
def Obligations.PermfwdAppliesDraws : Prop :=
  ∀ (s : State) (st j : Nat → Nat), s.DrawsFrom s.arg1.toNat s.arg2.toNat st j →
    (∀ l : List Bool, s.PermOperandsOk s.cfg.bitDepth.toNat → l.length = s.arg1.toNat →
      s.bit.HoldsFrom s.arg0.toNat s.arg2.toNat l →
      ∃ t, exec .permfwdBit s = .next t ∧
        t.bit.HoldsFrom s.arg0.toNat s.arg2.toNat (fwdSwaps j s.arg1.toNat s.arg2.toNat l) ∧
        s.bit.SameOutside t.bit (s.arg0.toNat + s.arg2.toNat) (s.arg1.toNat - s.arg2.toNat) ∧
        t = { s with bit := t.bit, pstate := st s.arg2.toNat }) ∧
    (∀ l : List Word, s.PermOperandsOk s.cfg.idxDepth.toNat → l.length = s.arg1.toNat →
      s.idx.HoldsFrom s.arg0.toNat s.arg2.toNat l →
      ∃ t, exec .permfwdIdx s = .next t ∧
        t.idx.HoldsFrom s.arg0.toNat s.arg2.toNat (fwdSwaps j s.arg1.toNat s.arg2.toNat l) ∧
        s.idx.SameOutside t.idx (s.arg0.toNat + s.arg2.toNat) (s.arg1.toNat - s.arg2.toNat) ∧
        t = { s with idx := t.idx, pstate := st s.arg2.toNat })

/-- 43_permutation R192, R197, R200, R201, R203: PERMINV completes on either space with `inv` of the sequence for the same
draws. DRAWBUF is empty afterwards (log 10). -/
def Obligations.PerminvAppliesDraws : Prop :=
  ∀ (s : State) (st j : Nat → Nat), s.DrawsFrom s.arg1.toNat s.arg2.toNat st j →
    (∀ l : List Bool, s.PermOperandsOk s.cfg.bitDepth.toNat → l.length = s.arg1.toNat →
      s.bit.HoldsFrom s.arg0.toNat s.arg2.toNat l →
      ∃ t, exec .perminvBit s = .next t ∧
        t.bit.HoldsFrom s.arg0.toNat s.arg2.toNat (invSwaps j s.arg1.toNat s.arg2.toNat l) ∧
        s.bit.SameOutside t.bit (s.arg0.toNat + s.arg2.toNat) (s.arg1.toNat - s.arg2.toNat) ∧
        t = { s with bit := t.bit, pstate := st s.arg2.toNat, drawBuf := [] }) ∧
    (∀ l : List Word, s.PermOperandsOk s.cfg.idxDepth.toNat → l.length = s.arg1.toNat →
      s.idx.HoldsFrom s.arg0.toNat s.arg2.toNat l →
      ∃ t, exec .perminvIdx s = .next t ∧
        t.idx.HoldsFrom s.arg0.toNat s.arg2.toNat (invSwaps j s.arg1.toNat s.arg2.toNat l) ∧
        s.idx.SameOutside t.idx (s.arg0.toNat + s.arg2.toNat) (s.arg1.toNat - s.arg2.toNat) ∧
        t = { s with idx := t.idx, pstate := st s.arg2.toNat, drawBuf := [] })

/-- 43_permutation R204, R205: PERMIDX completes and leaves in IDX the identity table permuted forward; no cell outside
the table changes. -/
def Obligations.PermidxBuildsTable : Prop :=
  ∀ (s : State) (st j : Nat → Nat), s.DrawsFrom s.arg1.toNat s.arg2.toNat st j →
    s.PermOperandsOk s.cfg.idxDepth.toNat →
    ∃ t, exec .permidx s = .next t ∧
      t.idx.Holds s.arg0.toNat
        (fwdSwaps j s.arg1.toNat s.arg2.toNat ((List.range s.arg1.toNat).map (BitVec.ofNat 32))) ∧
      s.idx.SameOutside t.idx s.arg0.toNat s.arg1.toNat ∧
      t = { s with idx := t.idx, pstate := st s.arg2.toNat }

/-- 43_permutation R198: for every seed and every sequence, PERMINV after PERMFWD, and PERMFWD after PERMINV, with the same
SEED and operands, restore every cell. -/
def Obligations.PermutationInvertible : Prop :=
  ∀ s : State,
    (s.PermOperandsOk s.cfg.bitDepth.toNat →
      (∀ k, s.arg2.toNat ≤ k → k < s.arg1.toNat → s.bit.read (s.arg0.toNat + k) ≠ none) →
      (∃ t u, exec .permfwdBit s = .next t ∧ exec .perminvBit t = .next u ∧
        ∀ a, u.bit.read a = s.bit.read a) ∧
      ∃ t u, exec .perminvBit s = .next t ∧ exec .permfwdBit t = .next u ∧
        ∀ a, u.bit.read a = s.bit.read a) ∧
    (s.PermOperandsOk s.cfg.idxDepth.toNat →
      (∀ k, s.arg2.toNat ≤ k → k < s.arg1.toNat → s.idx.read (s.arg0.toNat + k) ≠ none) →
      (∃ t u, exec .permfwdIdx s = .next t ∧ exec .perminvIdx t = .next u ∧
        ∀ a, u.idx.read a = s.idx.read a) ∧
      ∃ t u, exec .perminvIdx s = .next t ∧ exec .permfwdIdx t = .next u ∧
        ∀ a, u.idx.read a = s.idx.read a)

/-- 43_permutation R202: the errors of the PERM commands in their order, in the space each permutes. -/
def Obligations.PermChecksRaise : Prop :=
  ∀ s : State,
    (∀ i ∈ [Instr.permfwdBit, .perminvBit, .permfwdIdx, .perminvIdx, .permidx], s.arg1.toNat < s.arg2.toNat →
      exec i s = .next (s.Raised .invalidArgument .rangeOrder)) ∧
    (∀ i ∈ [Instr.permfwdBit, .perminvBit], s.arg2.toNat ≤ s.arg1.toNat →
      s.cfg.bitDepth.toNat < s.arg0.toNat + s.arg1.toNat →
      exec i s = .next (s.Raised .resourceExhausted .bitBounds)) ∧
    (∀ i ∈ [Instr.permfwdIdx, .perminvIdx, .permidx], s.arg2.toNat ≤ s.arg1.toNat →
      s.cfg.idxDepth.toNat < s.arg0.toNat + s.arg1.toNat →
      exec i s = .next (s.Raised .resourceExhausted .idxBounds)) ∧
    (∀ i ∈ [Instr.permfwdBit, .perminvBit], s.arg2.toNat ≤ s.arg1.toNat →
      s.arg0.toNat + s.arg1.toNat ≤ s.cfg.bitDepth.toNat →
      s.cfg.permMax.toNat < s.arg1.toNat - s.arg2.toNat →
      exec i s = .next (s.Raised .resourceExhausted .permLimit)) ∧
    (∀ i ∈ [Instr.permfwdIdx, .perminvIdx, .permidx], s.arg2.toNat ≤ s.arg1.toNat →
      s.arg0.toNat + s.arg1.toNat ≤ s.cfg.idxDepth.toNat →
      s.cfg.permMax.toNat < s.arg1.toNat - s.arg2.toNat →
      exec i s = .next (s.Raised .resourceExhausted .permLimit))

/-- 43_permutation R191: the reference generator, its seeding and RAND_MAX, and the range of every generator's values. -/
def Obligations.GeneratorDraws : Prop :=
  (∀ st : Nat, st < 2 ^ 32 →
    (prngNext .reference st).2 = (st * 1103515245 + 12345) % 2 ^ 32 ∧
      (prngNext .reference st).1 = (st * 1103515245 + 12345) % 2 ^ 32 / 65536 % 32768) ∧
  (∀ seed : Word, prngInit .reference seed = seed.toNat) ∧ randMax .reference = 32767 ∧
  ∀ (g : Config.Prng) (st : Nat), (prngNext g st).1 ≤ randMax g ∧ 1 ≤ randMax g

/-! ### HMAT -/

/-- 44_hamming_matrix R224, R225: HBEST (word 0x40) always completes; with `R` the first `rows ≥ 2` whose capacity does not exceed
`P`, the result is `R`, or `R - 1` where the capacity at `R` is below `P`; RES1 saturates. -/
def Obligations.HbestSearches : Prop :=
  decode 0x00000040 = .ok .hbest ∧
  ∀ s : State, ∃ R r : Nat, 2 ≤ R ∧ R ≤ 33 ∧
    s.arg0.toNat / (2 ^ R - 1) * R ≤ s.arg1.toNat ∧
    (∀ q, 2 ≤ q → q < R → s.arg1.toNat < s.arg0.toNat / (2 ^ q - 1) * q) ∧
    r = (if s.arg0.toNat / (2 ^ R - 1) * R < s.arg1.toNat then R - 1 else R) ∧
    exec .hbest s = .next { s with
      res0 := BitVec.ofNat 32 r
      res1 := BitVec.ofNat 32 (min (2 ^ r - 1) (2 ^ 32 - 1)) }

/-- 44_hamming_matrix R226 law 3: for `P > 0` and a result with at least two rows, the capacity holds the payload and no
larger `rows` does. -/
def Obligations.HbestIsOptimal : Prop :=
  ∀ s t : State, exec .hbest s = .next t → 0 < s.arg1.toNat → 2 ≤ t.res0.toNat →
    s.arg1.toNat ≤ s.arg0.toNat / (2 ^ t.res0.toNat - 1) * t.res0.toNat ∧
      ∀ q, t.res0.toNat < q → s.arg0.toNat / (2 ^ q - 1) * q < s.arg1.toNat

/-- 44_hamming_matrix R227: HGEN whole: its word, its two errors in order, and otherwise the matrix registers. HROWS is the 6-bit
field of 10_state R42, which holds every `rows` up to a legal ROWS_MAX (00_scope R8). -/
def Obligations.HgenMakesMatrixCurrent : Prop :=
  decode 0x00000041 = .ok .hgen ∧
  ∀ s : State,
    (s.arg0.toNat < 1 ∨ s.cfg.rowsMax < s.arg0.toNat →
      exec .hgen s = .next (s.Raised .invalidArgument .rowsRange)) ∧
    (1 ≤ s.arg0.toNat → s.arg0.toNat ≤ s.cfg.rowsMax → s.arg1.toNat ≠ 2 ^ s.arg0.toNat - 1 →
      exec .hgen s = .next (s.Raised .invalidArgument .colsMismatch)) ∧
    (1 ≤ s.arg0.toNat → s.arg0.toNat ≤ s.cfg.rowsMax → s.arg1.toNat = 2 ^ s.arg0.toNat - 1 →
      exec .hgen s = .next { s with hrows := s.arg0.extractLsb' 0 6, hcols := s.arg1, hvalid := true })

/-- 44_hamming_matrix R228: HCOL whole: its word, its two errors in order, and otherwise RES0 = c + 1. -/
def Obligations.HcolReadsColumn : Prop :=
  decode 0x00000042 = .ok .hcol ∧
  ∀ s : State,
    (s.hvalid = false → exec .hcol s = .next (s.Raised .invalidArgument .noMatrix)) ∧
    (s.hvalid = true → s.hcols.toNat ≤ s.arg0.toNat →
      exec .hcol s = .next (s.Raised .invalidArgument .colIndex)) ∧
    (s.hvalid = true → s.arg0.toNat < s.hcols.toNat → exec .hcol s = .next { s with res0 := s.arg0 + 1 })

/-- 44_hamming_matrix R231: HADD (word 0x45) always completes with the XOR of all 32 bits. -/
def Obligations.HaddXors : Prop :=
  decode 0x00000045 = .ok .hadd ∧
  ∀ s : State, exec .hadd s = .next { s with res0 := s.arg0 ^^^ s.arg1 }

/-- 44_hamming_matrix R229, R221: HROW completes and writes row `t` of the matrix, entry `c` being bit `t` of `c + 1`. -/
def Obligations.HrowWritesRow : Prop :=
  ∀ s : State, s.hvalid = true → s.arg0.toNat < s.hrows.toNat →
    s.arg1.toNat + s.hcols.toNat ≤ s.cfg.bitDepth.toNat →
    ∃ t, exec .hrow s = .next t ∧
      (∀ c, c < s.hcols.toNat → t.bit.read (s.arg1.toNat + c) = some ((c + 1).testBit s.arg0.toNat)) ∧
      s.bit.SameOutside t.bit s.arg1.toNat s.hcols.toNat ∧ t = { s with bit := t.bit }

/-- 44_hamming_matrix R230, R222: HMUL completes with RES0 the packed product of the matrix and the vector. -/
def Obligations.HmulMultiplies : Prop :=
  ∀ (s : State) (v : List Bool), s.hvalid = true → v.length = s.hcols.toNat → s.bit.Holds s.arg0.toNat v →
    s.arg0.toNat + s.hcols.toNat ≤ s.cfg.bitDepth.toNat →
    ∃ x : Word, exec .hmul s = .next { s with res0 := x } ∧
      ∀ t, t < 32 → x.getLsbD t = gf2Product (fun c => v.getD c false) s.hcols.toNat t

/-- 44_hamming_matrix R232, R233: HFIND whole: its word, NO_MATRIX, the column `target - 1` exactly when `1 ≤ target ≤ HCOLS`, and
NO_COLUMN otherwise. -/
def Obligations.HfindFindsColumn : Prop :=
  decode 0x00000046 = .ok .hfind ∧
  ∀ s : State,
    (s.hvalid = false → exec .hfind s = .next (s.Raised .invalidArgument .noMatrix)) ∧
    (s.hvalid = true → 1 ≤ s.arg0.toNat → s.arg0.toNat ≤ s.hcols.toNat →
      exec .hfind s = .next { s with res0 := s.arg0 - 1 }) ∧
    (s.hvalid = true → s.arg0 = 0 ∨ s.hcols.toNat < s.arg0.toNat →
      exec .hfind s = .next (s.Raised .internalInvariantViolation .noColumn))

/-- 44_hamming_matrix R234, 45_syndrome_embed R266: HSYN completes with the packed syndrome of the block's LSBs, the filler
1 at and past `dim`. -/
def Obligations.HsynReadsBlock : Prop :=
  ∀ (s : State) (v : Nat → Bool), s.hvalid = true → s.arg1.toNat ≤ s.cfg.pixDepth.toNat →
    (∀ c, c < s.hcols.toNat → s.arg0.toNat + c < s.arg1.toNat →
      ∃ x, s.pix.read (s.arg0.toNat + c) = some x ∧ x.getLsbD 0 = v c) →
    (∀ c, c < s.hcols.toNat → s.arg1.toNat ≤ s.arg0.toNat + c → v c = true) →
    ∃ x : Word, exec .hsyn s = .next { s with res0 := x } ∧
      ∀ t, t < 32 → x.getLsbD t = gf2Product v s.hcols.toNat t

/-- 44_hamming_matrix R229, R230, R234: the errors of HROW, HMUL and HSYN in their order. -/
def Obligations.MatrixChecksRaise : Prop :=
  ∀ s : State,
    (∀ i ∈ [Instr.hrow, .hmul, .hsyn], s.hvalid = false →
      exec i s = .next (s.Raised .invalidArgument .noMatrix)) ∧
    (s.hvalid = true → s.hrows.toNat ≤ s.arg0.toNat →
      exec .hrow s = .next (s.Raised .invalidArgument .rowIndex)) ∧
    (s.hvalid = true → s.arg0.toNat < s.hrows.toNat → s.cfg.bitDepth.toNat < s.arg1.toNat + s.hcols.toNat →
      exec .hrow s = .next (s.Raised .resourceExhausted .bitBounds)) ∧
    (s.hvalid = true → s.cfg.bitDepth.toNat < s.arg0.toNat + s.hcols.toNat →
      exec .hmul s = .next (s.Raised .resourceExhausted .bitBounds)) ∧
    (s.hvalid = true → s.cfg.pixDepth.toNat < s.arg1.toNat →
      exec .hsyn s = .next (s.Raised .resourceExhausted .pixBounds))

/-- 44_hamming_matrix R222, R235: the packed syndrome is the GF(2) product, element `t` at bit `t`, and flipping `v[c]`
changes it by `c + 1`. -/
def Obligations.SyndromeIsLinear : Prop :=
  (∀ (v : List Bool) (t : Nat), (syn v).testBit t = gf2Product (fun c => v.getD c false) v.length t) ∧
    ∀ (v : List Bool) (c : Nat), (h : c < v.length) → syn (v.set c (!v[c])) = syn v ^^^ (c + 1)

/-- 44_hamming_matrix R223: for `r` rows the columns are pairwise distinct non-zero `r`-bit vectors, and each non-zero
`r`-bit vector is exactly one column, the one numbered value - 1; columns are read through HCOL. -/
def Obligations.ColumnsAreDistinctAndComplete : Prop :=
  ∀ s : State, s.hvalid = true → 1 ≤ s.hrows.toNat → s.hrows.toNat ≤ 32 →
    s.hcols.toNat = 2 ^ s.hrows.toNat - 1 →
    (∀ c, c < s.hcols.toNat → ∃ x : Word, exec .hcol { s with arg0 := BitVec.ofNat 32 c } =
        .next { s with arg0 := BitVec.ofNat 32 c, res0 := x } ∧ x ≠ 0 ∧ x.toNat < 2 ^ s.hrows.toNat) ∧
    ∀ x : Word, x ≠ 0 → x.toNat < 2 ^ s.hrows.toNat → x.toNat - 1 < s.hcols.toNat ∧
      ∀ c, c < s.hcols.toNat →
        (exec .hcol { s with arg0 := BitVec.ofNat 32 c } = .next { s with arg0 := BitVec.ofNat 32 c, res0 := x } ↔
          c = x.toNat - 1)

/-! ### HSYN unit -/

/-- 45_syndrome_embed R263, R264, 42_nudge R180, R184: HEMBED completes where its checks pass; RES0 and MODCNT count the
changed pixels, no pixel outside the blocks changes, and nothing else changes but the nudge source, which gives one draw
per changed pixel: the free draws, or the reference generator on NSTATE (42_nudge R182, 43_permutation R191; log 5). A
changed pixel takes the value of the nudge rule for its own draw, the draws being taken in increasing block order: the
pixel with `n` changed pixels before it takes draw `n`, and the reference bit is bit 16 of the state that draw leaves. -/
def Obligations.HembedCompletes : Prop :=
  ∀ (s : State) (B : Nat) (pl : List Bool) (px : List Word), s.EmbedOk B pl px →
    let ref := fun n => (fun st => (st * 1103515245 + 12345) % 2 ^ 32)^[n] s.nstate.toNat
    ∃ (t : State) (px' : List Word) (cnt : Nat), exec .hembed s = .next t ∧ px'.length = px.length ∧
      t.pix.Holds s.arg2.toNat px' ∧ s.pix.SameOutside t.pix s.arg2.toNat px.length ∧
      cnt = ((List.range px.length).filter fun k => px'[k]? ≠ px[k]?).length ∧
      (∀ k x y, px[k]? = some x → px'[k]? = some y → y ≠ x →
        let n := ((List.range k).filter fun j => px'[j]? ≠ px[j]?).length
        let moved := fun b : Bool => if b then (if x = s.maxi then x.toNat - 1 else x.toNat + 1)
          else (if x = 0 then x.toNat + 1 else x.toNat - 1)
        (s.cfg.nudgeSrc = .draw → y.toNat = moved (Config.freeNudge (s.drawCount + n))) ∧
        (s.cfg.nudgeSrc = .reference → y.toNat = moved (decide (ref (n + 1) / 65536 % 32768 % 2 = 1)))) ∧
      (s.cfg.nudgeSrc = .draw →
        t = { s with
          pix := t.pix, res0 := BitVec.ofNat 32 cnt, modcnt := BitVec.ofNat 32 cnt
          drawCount := s.drawCount + cnt }) ∧
      (s.cfg.nudgeSrc = .reference →
        t = { s with
          pix := t.pix, res0 := BitVec.ofNat 32 cnt, modcnt := BitVec.ofNat 32 cnt
          nstate := BitVec.ofNat 32 (ref cnt) })

/-- 45_syndrome_embed R262, R265: after HEMBED each block's syndrome is its message (1 past the payload end); a block whose
syndrome was the message already is unchanged; in any other exactly one pixel changes, by 1, and stays in
`[0, MAXI]`. -/
def Obligations.HembedBlockProperties : Prop :=
  ∀ (s t : State) (B : Nat) (pl : List Bool) (px px' : List Word), s.EmbedOk B pl px → exec .hembed s = .next t →
    px'.length = px.length → t.pix.Holds s.arg2.toNat px' →
    ∀ i, i < B →
      let C := s.hcols.toNat
      let lsbOf := fun (l : List Word) (c : Nat) => (l.getD (i * C + c) 0).getLsbD 0
      let message := fun r =>
        if i * s.hrows.toNat + r < s.arg1.toNat then pl.getD (i * s.hrows.toNat + r) false else true
      let encodes := fun l => ∀ r, r < s.hrows.toNat → gf2Product (lsbOf l) C r = message r
      encodes px' ∧
        (encodes px → ∀ c, c < C → px'[i * C + c]? = px[i * C + c]?) ∧
        (¬encodes px → ∃ p x y, p < C ∧ px[i * C + p]? = some x ∧ px'[i * C + p]? = some y ∧
          (y.toNat = x.toNat + 1 ∨ x.toNat = y.toNat + 1) ∧ y.toNat ≤ s.maxi.toNat ∧
          ∀ c, c < C → c ≠ p → px'[i * C + c]? = px[i * C + c]?)

/-- 45_syndrome_embed R266 to R268, R270: HEXTRACT completes and writes exactly `P` bits: bit `q` is element `q mod r` of
the syndrome of block `q / r`, whose pixels at and past `dim` read as 1. -/
def Obligations.HextractReadsSyndromes : Prop :=
  ∀ (s : State) (B : Nat) (f : Nat → Bool), s.UsefulCode → s.BlockCount B →
    s.arg0.toNat + s.arg1.toNat ≤ s.cfg.bitDepth.toNat → s.arg3.toNat ≤ s.cfg.pixDepth.toNat →
    (∀ k, s.arg2.toNat ≤ k → k < s.arg2.toNat + B * s.hcols.toNat → k < s.arg3.toNat →
      ∃ x, s.pix.read k = some x ∧ x.getLsbD 0 = f k) →
    (∀ k, s.arg3.toNat ≤ k → f k = true) →
    ∃ t, exec .hextract s = .next t ∧
      (∀ q, q < s.arg1.toNat →
        t.bit.read (s.arg0.toNat + q) =
          some (gf2Product (fun c => f (s.arg2.toNat + q / s.hrows.toNat * s.hcols.toNat + c)) s.hcols.toNat
            (q % s.hrows.toNat))) ∧
      s.bit.SameOutside t.bit s.arg0.toNat s.arg1.toNat ∧ t = { s with bit := t.bit, res0 := s.arg1 }

/-- 45_syndrome_embed R269: a HEXTRACT with the same `P`, `base`, `dim` and matrix, from any state whose block pixels are
those HEMBED left, writes back the payload, whatever the nudge draws were. -/
def Obligations.EmbedExtractRoundTrip : Prop :=
  ∀ (s : State) (B : Nat) (pl : List Bool) (px : List Word), s.EmbedOk B pl px →
    ∃ t, exec .hembed s = .next t ∧
      ∀ u : State, u.hvalid = true → u.hrows = s.hrows → u.hcols = s.hcols → u.arg1 = s.arg1 → u.arg2 = s.arg2 →
        u.arg3 = s.arg3 → u.arg3.toNat ≤ u.cfg.pixDepth.toNat →
        u.arg0.toNat + u.arg1.toNat ≤ u.cfg.bitDepth.toNat →
        (∀ k, s.arg2.toNat ≤ k → k < s.arg2.toNat + B * s.hcols.toNat → u.pix.read k = t.pix.read k) →
        ∃ v, exec .hextract u = .next v ∧ v.bit.Holds u.arg0.toNat pl ∧ v.res0 = s.arg1

/-- 70_reset R350: only the direction of a pixel change depends on the nudge draws: two HEMBEDs from states that differ in
NSTATE, the free draws and NUDGE_SRC only give the same RES0, the same MODCNT and the same LSB of every pixel. -/
def Obligations.NudgeDrawsNeverReachLsbs : Prop :=
  ∀ (s t t' : State) (src : Config.NudgeSrc) (ns : Word) (dc : Nat), exec .hembed s = .next t →
    exec .hembed { s with cfg := { s.cfg with nudgeSrc := src }, nstate := ns, drawCount := dc } = .next t' →
    t'.res0 = t.res0 ∧ t'.modcnt = t.modcnt ∧ t'.status = t.status ∧
      ∀ a, (t'.pix.read a).map (fun x => x.getLsbD 0) = (t.pix.read a).map fun x => x.getLsbD 0

/-- 45_syndrome_embed R261, R263, R270: the errors of HEMBED and HEXTRACT in their order. -/
def Obligations.EmbedChecksRaise : Prop :=
  ∀ s : State,
    (∀ i ∈ [Instr.hembed, .hextract], s.hvalid = false →
      exec i s = .next (s.Raised .invalidArgument .noMatrix)) ∧
    (∀ i ∈ [Instr.hembed, .hextract], s.hvalid = true → s.hrows.toNat ≤ 1 ∨ s.hcols.toNat ≤ 2 →
      exec i s = .next (s.Raised .invalidArgument .codeTooSmall)) ∧
    (s.UsefulCode → s.maxi = 0 → exec .hembed s = .next (s.Raised .invalidArgument .maxiZero)) ∧
    (s.UsefulCode → s.maxi ≠ 0 → s.cfg.bitDepth.toNat < s.arg0.toNat + s.arg1.toNat →
      exec .hembed s = .next (s.Raised .resourceExhausted .bitBounds)) ∧
    (s.UsefulCode → s.cfg.bitDepth.toNat < s.arg0.toNat + s.arg1.toNat →
      exec .hextract s = .next (s.Raised .resourceExhausted .bitBounds)) ∧
    (s.UsefulCode → s.maxi ≠ 0 → s.arg0.toNat + s.arg1.toNat ≤ s.cfg.bitDepth.toNat →
      s.cfg.pixDepth.toNat < s.arg3.toNat → exec .hembed s = .next (s.Raised .resourceExhausted .pixBounds)) ∧
    (s.UsefulCode → s.arg0.toNat + s.arg1.toNat ≤ s.cfg.bitDepth.toNat →
      s.cfg.pixDepth.toNat < s.arg3.toNat → exec .hextract s = .next (s.Raised .resourceExhausted .pixBounds)) ∧
    (∀ B, s.UsefulCode → s.maxi ≠ 0 → s.BlockCount B →
      s.arg0.toNat + s.arg1.toNat ≤ s.cfg.bitDepth.toNat → s.arg3.toNat ≤ s.cfg.pixDepth.toNat →
      s.arg3.toNat < s.arg2.toNat + B * s.hcols.toNat →
      exec .hembed s = .next (s.Raised .capacityExceeded .hammingCapacity)) ∧
    (∀ B (px : List Word), s.UsefulCode → s.maxi ≠ 0 → s.BlockCount B →
      s.arg0.toNat + s.arg1.toNat ≤ s.cfg.bitDepth.toNat → s.arg3.toNat ≤ s.cfg.pixDepth.toNat →
      s.arg2.toNat + B * s.hcols.toNat ≤ s.arg3.toNat → px.length = B * s.hcols.toNat →
      s.pix.Holds s.arg2.toNat px → (∃ x ∈ px, s.maxi.toNat < x.toNat) →
      exec .hembed s = .next (s.Raised .invalidArgument .pixelRange))
end

