-- ==== Sys2Proof/Laws/Memory.lean ====
section
/-! SUPPORT. What the memory operations do: reads after writes, the canonical form, ranges. -/

namespace Sys2Proof.Machine

variable {α : Type}

@[simp] theorem Mem.read_nil (a : Nat) : Mem.read ([] : Mem α) a = none := rfl

theorem Mem.read_write (m : Mem α) (a b : Nat) (v : α) :
    (m.write a v).read b = if b = a then some v else m.read b := by
  induction m with
  | nil => simp [Mem.write, Mem.read]
  | cons e m ih =>
    obtain ⟨c, x⟩ := e
    simp only [Mem.write]
    split
    · simp [Mem.read]
    · split
      · subst_vars; simp only [Mem.read]; split <;> simp_all
      · simp only [Mem.read, ih]; split <;> simp_all; omega

@[simp] theorem Mem.read_write_self (m : Mem α) (a : Nat) (v : α) : (m.write a v).read a = some v := by
  simp [Mem.read_write]

theorem Mem.read_write_ne (m : Mem α) {a b : Nat} (v : α) (h : b ≠ a) : (m.write a v).read b = m.read b := by
  simp [Mem.read_write, h]

theorem Mem.mem_of_mem_write {m : Mem α} {a : Nat} {v : α} {e : Nat × α} (h : e ∈ m.write a v) :
    e = (a, v) ∨ e ∈ m := by
  induction m with
  | nil => simpa [Mem.write] using h
  | cons c m ih =>
    obtain ⟨c, x⟩ := c
    simp only [Mem.write] at h
    split at h
    · simpa using h
    · split at h
      · simp only [List.mem_cons] at h ⊢; tauto
      · simp only [List.mem_cons] at h ⊢
        rcases h with h | h
        · exact .inr (.inl h)
        · rcases ih h with h | h <;> simp [h]

/-- A write keeps the canonical form. -/
theorem Mem.wf_write {m : Mem α} (a : Nat) (v : α) (h : m.wf) : (m.write a v).wf := by
  induction m with
  | nil => simp [Mem.write]
  | cons e m ih =>
    obtain ⟨b, x⟩ := e
    obtain ⟨hb, hm⟩ := List.pairwise_cons.mp h
    simp only [Mem.write]
    split
    · rename_i hab
      refine List.pairwise_cons.mpr ⟨?_, h⟩
      intro e he
      rcases List.mem_cons.mp he with rfl | he
      · exact hab
      · exact hab.trans (hb e he)
    · split
      · subst_vars; exact List.pairwise_cons.mpr ⟨hb, hm⟩
      · refine List.pairwise_cons.mpr ⟨?_, ih hm⟩
        intro e he
        rcases Mem.mem_of_mem_write he with rfl | he
        · simp only; omega
        · exact hb e he

theorem Mem.within_write {m : Mem α} {a d : Nat} {v : α} (h : m.Within d) (ha : a < d) : (m.write a v).Within d := by
  intro e he
  rcases Mem.mem_of_mem_write he with rfl | he
  · exact ha
  · exact h e he

/-- A cell that reads as a value is listed with it. -/
theorem Mem.mem_of_read {m : Mem α} {a : Nat} {v : α} (h : m.read a = some v) : (a, v) ∈ m := by
  induction m with
  | nil => simp at h
  | cons e m ih =>
    obtain ⟨b, x⟩ := e
    simp only [Mem.read] at h
    split at h
    · simp_all
    · exact List.mem_cons_of_mem _ (ih h)

theorem Mem.read_writeList (vs : List α) : ∀ (m : Mem α) (a b : Nat),
    (m.writeList a vs).read b = if a ≤ b ∧ b < a + vs.length then vs[b - a]? else m.read b := by
  induction vs with
  | nil => intro m a b; simp only [Mem.writeList, List.length_nil]; rw [if_neg (by omega)]
  | cons v vs ih =>
    intro m a b
    simp only [Mem.writeList, ih, Mem.read_write, List.length_cons]
    by_cases h1 : a + 1 ≤ b ∧ b < a + 1 + vs.length
    · rw [if_pos h1, if_pos (by omega), show b - a = (b - (a + 1)) + 1 by omega, List.getElem?_cons_succ]
    · rw [if_neg h1]
      by_cases h2 : b = a
      · subst h2; simp
      · rw [if_neg h2, if_neg (by omega)]

theorem Mem.read_writeList_at (m : Mem α) (a : Nat) (vs : List α) {k : Nat} (h : k < vs.length) :
    (m.writeList a vs).read (a + k) = some vs[k] := by
  rw [Mem.read_writeList, if_pos (by omega), Nat.add_sub_cancel_left, List.getElem?_eq_getElem h]

/-- After a range write the range holds the list. -/
theorem Mem.holds_writeList (m : Mem α) (a : Nat) (vs : List α) : (m.writeList a vs).Holds a vs :=
  fun _ h => m.read_writeList_at a vs h

/-- A range write changes no cell outside the range. -/
theorem Mem.sameOutside_writeList (m : Mem α) (a : Nat) (vs : List α) :
    m.SameOutside (m.writeList a vs) a vs.length := by
  intro b hb; rw [Mem.read_writeList, if_neg hb]

theorem Mem.wf_writeList (vs : List α) : ∀ {m : Mem α} (a : Nat), m.wf → (m.writeList a vs).wf := by
  induction vs with
  | nil => intro m a h; exact h
  | cons v vs ih => intro m a h; exact ih _ (Mem.wf_write a v h)

theorem Mem.within_writeList (vs : List α) : ∀ {m : Mem α} {a d : Nat}, m.Within d → a + vs.length ≤ d →
    (m.writeList a vs).Within d := by
  induction vs with
  | nil => intro m a d h _; exact h
  | cons v vs ih =>
    intro m a d h hd
    simp only [List.length_cons] at hd
    exact ih (Mem.within_write h (by omega)) (by omega)

/-! ### Reads made by commands -/

theorem fetch_ok {sp : Space} {m : Mem α} {a : Nat} {v : α} : fetch sp m a = .ok v ↔ m.read a = some v := by
  unfold fetch; cases m.read a <;> simp

theorem fetch_error {sp : Space} {m : Mem α} {a : Nat} {e : Stop} :
    fetch sp m a = .error e ↔ m.read a = none ∧ e = .uninit sp a := by
  unfold fetch; cases m.read a <;> simp [eq_comm]

/-- What a range read answers: the list the range holds. -/
theorem fetchList_ok {sp : Space} {m : Mem α} : ∀ {n a : Nat} {vs : List α},
    fetchList sp m a n = .ok vs ↔ vs.length = n ∧ m.Holds a vs := by
  intro n
  induction n with
  | zero =>
    intro a vs
    simp only [fetchList, Except.ok.injEq]
    constructor
    · rintro rfl; exact ⟨rfl, fun k hk => absurd hk (Nat.not_lt_zero k)⟩
    · rintro ⟨h, -⟩; simpa [eq_comm] using h
  | succ n ih =>
    intro a vs
    simp only [fetchList]
    cases h : fetch sp m a with
    | error e =>
      simp only [reduceCtorEq, false_iff, not_and]
      intro hl hh
      have := hh 0 (by omega)
      rw [Nat.add_zero, (fetch_error.mp h).1] at this
      simp at this
    | ok v =>
      rw [fetch_ok] at h
      cases h2 : fetchList sp m (a + 1) n with
      | error e =>
        simp only [reduceCtorEq, false_iff, not_and]
        intro hl hh
        cases vs with
        | nil => simp at hl
        | cons w ws =>
          have : fetchList sp m (a + 1) n = .ok ws := by
            refine ih.mpr ⟨by simpa using hl, ?_⟩
            intro k hk
            have := hh (k + 1) (by simpa using hk)
            simpa [Nat.add_assoc, Nat.add_comm 1 k] using this
          rw [this] at h2; cases h2
      | ok ws =>
        have hw := ih.mp h2
        simp only [Except.ok.injEq]
        constructor
        · rintro rfl
          refine ⟨by simp [hw.1], ?_⟩
          intro k hk
          cases k with
          | zero => simpa using h
          | succ k =>
            have := hw.2 k (by simpa using hk)
            simpa [Nat.add_assoc, Nat.add_comm 1 k] using this
        · rintro ⟨hl, hh⟩
          cases vs with
          | nil => simp at hl
          | cons x xs =>
            have hx := hh 0 (by simp)
            rw [Nat.add_zero, h] at hx
            have : fetchList sp m (a + 1) n = .ok xs := by
              refine ih.mpr ⟨by simpa using hl, ?_⟩
              intro k hk
              have := hh (k + 1) (by simpa using hk)
              simpa [Nat.add_assoc, Nat.add_comm 1 k] using this
            rw [this] at h2
            simp_all

/-- A range read that stops does so at an unwritten cell of the range. -/
theorem fetchList_error {sp : Space} {m : Mem α} : ∀ {n a : Nat} {e : Stop},
    fetchList sp m a n = .error e → ∃ b, a ≤ b ∧ b < a + n ∧ m.read b = none ∧ e = .uninit sp b := by
  intro n
  induction n with
  | zero => intro a e h; simp [fetchList] at h
  | succ n ih =>
    intro a e h
    simp only [fetchList] at h
    cases h1 : fetch sp m a with
    | error e' =>
      rw [h1] at h
      simp only [Except.error.injEq] at h
      subst h
      exact ⟨a, le_rfl, by omega, fetch_error.mp h1⟩
    | ok v =>
      rw [h1] at h
      cases h2 : fetchList sp m (a + 1) n with
      | error e' =>
        rw [h2] at h
        simp only [Except.error.injEq] at h
        subst h
        obtain ⟨b, hb1, hb2, hb⟩ := ih h2
        exact ⟨b, by omega, by omega, hb⟩
      | ok vs => rw [h2] at h; simp at h

/-- What a filled read answers: the bits read below the limit and 1 from it on. -/
theorem fetchFilled_ok {get : Nat → Cmd Bool} {lim : Nat} : ∀ {n k : Nat} {vs : List Bool},
    fetchFilled get lim k n = .ok vs ↔
      vs.length = n ∧ ∀ c, (h : c < vs.length) → (if k + c < lim then get (k + c) else .ok true) = .ok vs[c] := by
  intro n
  induction n with
  | zero =>
    intro k vs
    simp only [fetchFilled, Except.ok.injEq]
    constructor
    · rintro rfl; simp
    · rintro ⟨h, -⟩; simpa [eq_comm] using h
  | succ n ih =>
    intro k vs
    simp only [fetchFilled]
    generalize hg : (if k < lim then get k else .ok true : Cmd Bool) = g
    cases g with
    | error e =>
      simp only [reduceCtorEq, false_iff, not_and]
      intro hl hh
      have := hh 0 (by omega)
      rw [Nat.add_zero, hg] at this
      simp at this
    | ok v =>
      have key : ∀ ws : List Bool, (∀ c, (h : c < (v :: ws).length) →
          (if k + c < lim then get (k + c) else .ok true : Cmd Bool) = .ok (v :: ws)[c]) ↔
          ∀ c, (h : c < ws.length) →
            (if k + 1 + c < lim then get (k + 1 + c) else .ok true : Cmd Bool) = .ok ws[c] := by
        intro ws
        constructor
        · intro h c hc
          have := h (c + 1) (by simpa using hc)
          simpa [Nat.add_assoc, Nat.add_comm 1 c] using this
        · intro h c hc
          cases c with
          | zero => simpa using hg
          | succ c =>
            have := h c (by simpa using hc)
            simpa [Nat.add_assoc, Nat.add_comm 1 c] using this
      cases vs with
      | nil =>
        cases h2 : fetchFilled get lim (k + 1) n <;> simp
      | cons w ws =>
        cases h2 : fetchFilled get lim (k + 1) n with
        | error e =>
          simp only [reduceCtorEq, false_iff, not_and, List.length_cons, Nat.add_right_cancel_iff]
          intro hl hh
          have hw := hh 0 (by simp)
          rw [Nat.add_zero, hg] at hw
          have hw : v = w := by simpa using hw
          subst hw
          have := ih.mpr ⟨hl, (key ws).mp hh⟩
          rw [this] at h2; cases h2
        | ok us =>
          have hu := ih.mp h2
          simp only [Except.ok.injEq, List.cons.injEq, List.length_cons, Nat.add_right_cancel_iff]
          constructor
          · rintro ⟨rfl, rfl⟩; exact ⟨hu.1, (key us).mpr hu.2⟩
          · rintro ⟨hl, hh⟩
            have hw := hh 0 (by simp)
            rw [Nat.add_zero, hg] at hw
            have hw : v = w := by simpa using hw
            subst hw
            have := ih.mpr ⟨hl, (key ws).mp hh⟩
            rw [this] at h2
            exact ⟨rfl, by simpa [eq_comm] using h2⟩

/-- A filled read that stops does so at a read below the limit. -/
theorem fetchFilled_error {get : Nat → Cmd Bool} {lim : Nat} : ∀ {n k : Nat} {e : Stop},
    fetchFilled get lim k n = .error e → ∃ q, k ≤ q ∧ q < k + n ∧ q < lim ∧ get q = .error e := by
  intro n
  induction n with
  | zero => intro k e h; simp [fetchFilled] at h
  | succ n ih =>
    intro k e h
    simp only [fetchFilled] at h
    by_cases hk : k < lim
    · rw [if_pos hk] at h
      cases hg : get k with
      | error e' => rw [hg] at h; simp only [Except.error.injEq] at h; subst h; exact ⟨k, le_rfl, by omega, hk, hg⟩
      | ok v =>
        rw [hg] at h
        cases h2 : fetchFilled get lim (k + 1) n with
        | error e' =>
          rw [h2] at h; simp only [Except.error.injEq] at h; subst h
          obtain ⟨q, h1, h3, h4⟩ := ih h2
          exact ⟨q, by omega, by omega, h4⟩
        | ok vs => rw [h2] at h; simp at h
    · rw [if_neg hk] at h
      simp only at h
      cases h2 : fetchFilled get lim (k + 1) n with
      | error e' =>
        rw [h2] at h; simp only [Except.error.injEq] at h; subst h
        obtain ⟨q, h1, h3, h4⟩ := ih h2
        exact ⟨q, by omega, by omega, h4⟩
      | ok vs => rw [h2] at h; simp at h

end Sys2Proof.Machine
end

