-- ==== Sys2Proof/Laws/State.lean ====
section
/-! SUPPORT. What each named update of the state leaves in each field. -/

namespace Sys2Proof.Machine

@[simp] theorem State.fail_cfg (s : State) (d : Detail) : (s.fail d).cfg = s.cfg := rfl
@[simp] theorem State.fail_cmd (s : State) (d : Detail) : (s.fail d).cmd = s.cmd := rfl
@[simp] theorem State.fail_pending (s : State) (d : Detail) : (s.fail d).pending = s.pending := rfl
@[simp] theorem State.fail_status (s : State) (d : Detail) :
    (s.fail d).status =
      { s.status with err := true, kind := d.kind, detail := d } := rfl
@[simp] theorem State.fail_arg0 (s : State) (d : Detail) : (s.fail d).arg0 = s.arg0 := rfl
@[simp] theorem State.fail_arg1 (s : State) (d : Detail) : (s.fail d).arg1 = s.arg1 := rfl
@[simp] theorem State.fail_arg2 (s : State) (d : Detail) : (s.fail d).arg2 = s.arg2 := rfl
@[simp] theorem State.fail_arg3 (s : State) (d : Detail) : (s.fail d).arg3 = s.arg3 := rfl
@[simp] theorem State.fail_res0 (s : State) (d : Detail) : (s.fail d).res0 = s.res0 := rfl
@[simp] theorem State.fail_res1 (s : State) (d : Detail) : (s.fail d).res1 = s.res1 := rfl
@[simp] theorem State.fail_modcnt (s : State) (d : Detail) : (s.fail d).modcnt = s.modcnt := rfl
@[simp] theorem State.fail_seed (s : State) (d : Detail) : (s.fail d).seed = s.seed := rfl
@[simp] theorem State.fail_maxi (s : State) (d : Detail) : (s.fail d).maxi = s.maxi := rfl
@[simp] theorem State.fail_nseed (s : State) (d : Detail) : (s.fail d).nseed = s.nseed := rfl
@[simp] theorem State.fail_hrows (s : State) (d : Detail) : (s.fail d).hrows = s.hrows := rfl
@[simp] theorem State.fail_hvalid (s : State) (d : Detail) : (s.fail d).hvalid = s.hvalid := rfl
@[simp] theorem State.fail_hcols (s : State) (d : Detail) : (s.fail d).hcols = s.hcols := rfl
@[simp] theorem State.fail_mspace (s : State) (d : Detail) : (s.fail d).mspace = s.mspace := rfl
@[simp] theorem State.fail_maddr (s : State) (d : Detail) : (s.fail d).maddr = s.maddr := rfl
@[simp] theorem State.fail_pstate (s : State) (d : Detail) : (s.fail d).pstate = s.pstate := rfl
@[simp] theorem State.fail_drawBuf (s : State) (d : Detail) : (s.fail d).drawBuf = s.drawBuf := rfl
@[simp] theorem State.fail_nstate (s : State) (d : Detail) : (s.fail d).nstate = s.nstate := rfl
@[simp] theorem State.fail_pix (s : State) (d : Detail) : (s.fail d).pix = s.pix := rfl
@[simp] theorem State.fail_bit (s : State) (d : Detail) : (s.fail d).bit = s.bit := rfl
@[simp] theorem State.fail_byte (s : State) (d : Detail) : (s.fail d).byte = s.byte := rfl
@[simp] theorem State.fail_idx (s : State) (d : Detail) : (s.fail d).idx = s.idx := rfl
@[simp] theorem State.fail_haz (s : State) (d : Detail) : (s.fail d).haz = s.haz := rfl
@[simp] theorem State.fail_awaitPoll (s : State) (d : Detail) : (s.fail d).awaitPoll = s.awaitPoll := rfl
@[simp] theorem State.fail_drawCount (s : State) (d : Detail) : (s.fail d).drawCount = s.drawCount := rfl
@[simp] theorem State.fail_inbox (s : State) (d : Detail) : (s.fail d).inbox = s.inbox := rfl
@[simp] theorem State.fail_trace (s : State) (d : Detail) : (s.fail d).trace = s.trace := rfl

@[simp] theorem State.start_cfg (s : State) (w : Word) : (s.start w).cfg = s.cfg := rfl
@[simp] theorem State.start_cmd (s : State) (w : Word) : (s.start w).cmd = w := rfl
@[simp] theorem State.start_pending (s : State) (w : Word) : (s.start w).pending = some w := rfl
@[simp] theorem State.start_status (s : State) (w : Word) :
    (s.start w).status =
      { s.status with busy := true, err := false, kind := .none, detail := .none, lastop := w.extractLsb' 0 8 } := rfl
@[simp] theorem State.start_arg0 (s : State) (w : Word) : (s.start w).arg0 = s.arg0 := rfl
@[simp] theorem State.start_arg1 (s : State) (w : Word) : (s.start w).arg1 = s.arg1 := rfl
@[simp] theorem State.start_arg2 (s : State) (w : Word) : (s.start w).arg2 = s.arg2 := rfl
@[simp] theorem State.start_arg3 (s : State) (w : Word) : (s.start w).arg3 = s.arg3 := rfl
@[simp] theorem State.start_res0 (s : State) (w : Word) : (s.start w).res0 = s.res0 := rfl
@[simp] theorem State.start_res1 (s : State) (w : Word) : (s.start w).res1 = s.res1 := rfl
@[simp] theorem State.start_modcnt (s : State) (w : Word) : (s.start w).modcnt = s.modcnt := rfl
@[simp] theorem State.start_seed (s : State) (w : Word) : (s.start w).seed = s.seed := rfl
@[simp] theorem State.start_maxi (s : State) (w : Word) : (s.start w).maxi = s.maxi := rfl
@[simp] theorem State.start_nseed (s : State) (w : Word) : (s.start w).nseed = s.nseed := rfl
@[simp] theorem State.start_hrows (s : State) (w : Word) : (s.start w).hrows = s.hrows := rfl
@[simp] theorem State.start_hvalid (s : State) (w : Word) : (s.start w).hvalid = s.hvalid := rfl
@[simp] theorem State.start_hcols (s : State) (w : Word) : (s.start w).hcols = s.hcols := rfl
@[simp] theorem State.start_mspace (s : State) (w : Word) : (s.start w).mspace = s.mspace := rfl
@[simp] theorem State.start_maddr (s : State) (w : Word) : (s.start w).maddr = s.maddr := rfl
@[simp] theorem State.start_pstate (s : State) (w : Word) : (s.start w).pstate = s.pstate := rfl
@[simp] theorem State.start_drawBuf (s : State) (w : Word) : (s.start w).drawBuf = s.drawBuf := rfl
@[simp] theorem State.start_nstate (s : State) (w : Word) : (s.start w).nstate = s.nstate := rfl
@[simp] theorem State.start_pix (s : State) (w : Word) : (s.start w).pix = s.pix := rfl
@[simp] theorem State.start_bit (s : State) (w : Word) : (s.start w).bit = s.bit := rfl
@[simp] theorem State.start_byte (s : State) (w : Word) : (s.start w).byte = s.byte := rfl
@[simp] theorem State.start_idx (s : State) (w : Word) : (s.start w).idx = s.idx := rfl
@[simp] theorem State.start_haz (s : State) (w : Word) : (s.start w).haz = s.haz := rfl
@[simp] theorem State.start_awaitPoll (s : State) (w : Word) : (s.start w).awaitPoll = true := rfl
@[simp] theorem State.start_drawCount (s : State) (w : Word) : (s.start w).drawCount = s.drawCount := rfl
@[simp] theorem State.start_inbox (s : State) (w : Word) : (s.start w).inbox = s.inbox := rfl
@[simp] theorem State.start_trace (s : State) (w : Word) : (s.start w).trace = s.trace := rfl

@[simp] theorem State.finish_cfg (s : State) : (s.finish).cfg = s.cfg := rfl
@[simp] theorem State.finish_cmd (s : State) : (s.finish).cmd = s.cmd := rfl
@[simp] theorem State.finish_pending (s : State) : (s.finish).pending = none := rfl
@[simp] theorem State.finish_status (s : State) : (s.finish).status = { s.status with busy := false } := rfl
@[simp] theorem State.finish_arg0 (s : State) : (s.finish).arg0 = s.arg0 := rfl
@[simp] theorem State.finish_arg1 (s : State) : (s.finish).arg1 = s.arg1 := rfl
@[simp] theorem State.finish_arg2 (s : State) : (s.finish).arg2 = s.arg2 := rfl
@[simp] theorem State.finish_arg3 (s : State) : (s.finish).arg3 = s.arg3 := rfl
@[simp] theorem State.finish_res0 (s : State) : (s.finish).res0 = s.res0 := rfl
@[simp] theorem State.finish_res1 (s : State) : (s.finish).res1 = s.res1 := rfl
@[simp] theorem State.finish_modcnt (s : State) : (s.finish).modcnt = s.modcnt := rfl
@[simp] theorem State.finish_seed (s : State) : (s.finish).seed = s.seed := rfl
@[simp] theorem State.finish_maxi (s : State) : (s.finish).maxi = s.maxi := rfl
@[simp] theorem State.finish_nseed (s : State) : (s.finish).nseed = s.nseed := rfl
@[simp] theorem State.finish_hrows (s : State) : (s.finish).hrows = s.hrows := rfl
@[simp] theorem State.finish_hvalid (s : State) : (s.finish).hvalid = s.hvalid := rfl
@[simp] theorem State.finish_hcols (s : State) : (s.finish).hcols = s.hcols := rfl
@[simp] theorem State.finish_mspace (s : State) : (s.finish).mspace = s.mspace := rfl
@[simp] theorem State.finish_maddr (s : State) : (s.finish).maddr = s.maddr := rfl
@[simp] theorem State.finish_pstate (s : State) : (s.finish).pstate = s.pstate := rfl
@[simp] theorem State.finish_drawBuf (s : State) : (s.finish).drawBuf = s.drawBuf := rfl
@[simp] theorem State.finish_nstate (s : State) : (s.finish).nstate = s.nstate := rfl
@[simp] theorem State.finish_pix (s : State) : (s.finish).pix = s.pix := rfl
@[simp] theorem State.finish_bit (s : State) : (s.finish).bit = s.bit := rfl
@[simp] theorem State.finish_byte (s : State) : (s.finish).byte = s.byte := rfl
@[simp] theorem State.finish_idx (s : State) : (s.finish).idx = s.idx := rfl
@[simp] theorem State.finish_haz (s : State) : (s.finish).haz = s.haz := rfl
@[simp] theorem State.finish_awaitPoll (s : State) : (s.finish).awaitPoll = s.awaitPoll := rfl
@[simp] theorem State.finish_drawCount (s : State) : (s.finish).drawCount = s.drawCount := rfl
@[simp] theorem State.finish_inbox (s : State) : (s.finish).inbox = s.inbox := rfl
@[simp] theorem State.finish_trace (s : State) : (s.finish).trace = s.trace := rfl

@[simp] theorem State.afterReset_cfg (s : State) : (s.afterReset).cfg = s.cfg := rfl
@[simp] theorem State.afterReset_cmd (s : State) : (s.afterReset).cmd = State.reset.cmd := rfl
@[simp] theorem State.afterReset_pending (s : State) : (s.afterReset).pending = State.reset.pending := rfl
@[simp] theorem State.afterReset_status (s : State) : (s.afterReset).status = State.reset.status := rfl
@[simp] theorem State.afterReset_arg0 (s : State) : (s.afterReset).arg0 = State.reset.arg0 := rfl
@[simp] theorem State.afterReset_arg1 (s : State) : (s.afterReset).arg1 = State.reset.arg1 := rfl
@[simp] theorem State.afterReset_arg2 (s : State) : (s.afterReset).arg2 = State.reset.arg2 := rfl
@[simp] theorem State.afterReset_arg3 (s : State) : (s.afterReset).arg3 = State.reset.arg3 := rfl
@[simp] theorem State.afterReset_res0 (s : State) : (s.afterReset).res0 = State.reset.res0 := rfl
@[simp] theorem State.afterReset_res1 (s : State) : (s.afterReset).res1 = State.reset.res1 := rfl
@[simp] theorem State.afterReset_modcnt (s : State) : (s.afterReset).modcnt = State.reset.modcnt := rfl
@[simp] theorem State.afterReset_seed (s : State) : (s.afterReset).seed = State.reset.seed := rfl
@[simp] theorem State.afterReset_maxi (s : State) : (s.afterReset).maxi = State.reset.maxi := rfl
@[simp] theorem State.afterReset_nseed (s : State) : (s.afterReset).nseed = State.reset.nseed := rfl
@[simp] theorem State.afterReset_hrows (s : State) : (s.afterReset).hrows = State.reset.hrows := rfl
@[simp] theorem State.afterReset_hvalid (s : State) : (s.afterReset).hvalid = State.reset.hvalid := rfl
@[simp] theorem State.afterReset_hcols (s : State) : (s.afterReset).hcols = State.reset.hcols := rfl
@[simp] theorem State.afterReset_mspace (s : State) : (s.afterReset).mspace = State.reset.mspace := rfl
@[simp] theorem State.afterReset_maddr (s : State) : (s.afterReset).maddr = State.reset.maddr := rfl
@[simp] theorem State.afterReset_pstate (s : State) : (s.afterReset).pstate = State.reset.pstate := rfl
@[simp] theorem State.afterReset_drawBuf (s : State) : (s.afterReset).drawBuf = State.reset.drawBuf := rfl
@[simp] theorem State.afterReset_nstate (s : State) : (s.afterReset).nstate = State.reset.nstate := rfl
@[simp] theorem State.afterReset_pix (s : State) : (s.afterReset).pix = State.reset.pix := rfl
@[simp] theorem State.afterReset_bit (s : State) : (s.afterReset).bit = State.reset.bit := rfl
@[simp] theorem State.afterReset_byte (s : State) : (s.afterReset).byte = State.reset.byte := rfl
@[simp] theorem State.afterReset_idx (s : State) : (s.afterReset).idx = State.reset.idx := rfl
@[simp] theorem State.afterReset_haz (s : State) : (s.afterReset).haz = s.haz := rfl
@[simp] theorem State.afterReset_awaitPoll (s : State) : (s.afterReset).awaitPoll = State.reset.awaitPoll := rfl
@[simp] theorem State.afterReset_drawCount (s : State) : (s.afterReset).drawCount = s.drawCount := rfl
@[simp] theorem State.afterReset_inbox (s : State) : (s.afterReset).inbox = s.inbox := rfl
@[simp] theorem State.afterReset_trace (s : State) : (s.afterReset).trace = s.trace := rfl

@[simp] theorem State.setHaf_cfg (s : State) : (s.setHaf).cfg = s.cfg := rfl
@[simp] theorem State.setHaf_cmd (s : State) : (s.setHaf).cmd = s.cmd := rfl
@[simp] theorem State.setHaf_pending (s : State) : (s.setHaf).pending = s.pending := rfl
@[simp] theorem State.setHaf_status (s : State) : (s.setHaf).status = { s.status with haf := true } := rfl
@[simp] theorem State.setHaf_arg0 (s : State) : (s.setHaf).arg0 = s.arg0 := rfl
@[simp] theorem State.setHaf_arg1 (s : State) : (s.setHaf).arg1 = s.arg1 := rfl
@[simp] theorem State.setHaf_arg2 (s : State) : (s.setHaf).arg2 = s.arg2 := rfl
@[simp] theorem State.setHaf_arg3 (s : State) : (s.setHaf).arg3 = s.arg3 := rfl
@[simp] theorem State.setHaf_res0 (s : State) : (s.setHaf).res0 = s.res0 := rfl
@[simp] theorem State.setHaf_res1 (s : State) : (s.setHaf).res1 = s.res1 := rfl
@[simp] theorem State.setHaf_modcnt (s : State) : (s.setHaf).modcnt = s.modcnt := rfl
@[simp] theorem State.setHaf_seed (s : State) : (s.setHaf).seed = s.seed := rfl
@[simp] theorem State.setHaf_maxi (s : State) : (s.setHaf).maxi = s.maxi := rfl
@[simp] theorem State.setHaf_nseed (s : State) : (s.setHaf).nseed = s.nseed := rfl
@[simp] theorem State.setHaf_hrows (s : State) : (s.setHaf).hrows = s.hrows := rfl
@[simp] theorem State.setHaf_hvalid (s : State) : (s.setHaf).hvalid = s.hvalid := rfl
@[simp] theorem State.setHaf_hcols (s : State) : (s.setHaf).hcols = s.hcols := rfl
@[simp] theorem State.setHaf_mspace (s : State) : (s.setHaf).mspace = s.mspace := rfl
@[simp] theorem State.setHaf_maddr (s : State) : (s.setHaf).maddr = s.maddr := rfl
@[simp] theorem State.setHaf_pstate (s : State) : (s.setHaf).pstate = s.pstate := rfl
@[simp] theorem State.setHaf_drawBuf (s : State) : (s.setHaf).drawBuf = s.drawBuf := rfl
@[simp] theorem State.setHaf_nstate (s : State) : (s.setHaf).nstate = s.nstate := rfl
@[simp] theorem State.setHaf_pix (s : State) : (s.setHaf).pix = s.pix := rfl
@[simp] theorem State.setHaf_bit (s : State) : (s.setHaf).bit = s.bit := rfl
@[simp] theorem State.setHaf_byte (s : State) : (s.setHaf).byte = s.byte := rfl
@[simp] theorem State.setHaf_idx (s : State) : (s.setHaf).idx = s.idx := rfl
@[simp] theorem State.setHaf_haz (s : State) : (s.setHaf).haz = s.haz := rfl
@[simp] theorem State.setHaf_awaitPoll (s : State) : (s.setHaf).awaitPoll = s.awaitPoll := rfl
@[simp] theorem State.setHaf_drawCount (s : State) : (s.setHaf).drawCount = s.drawCount := rfl
@[simp] theorem State.setHaf_inbox (s : State) : (s.setHaf).inbox = s.inbox := rfl
@[simp] theorem State.setHaf_trace (s : State) : (s.setHaf).trace = s.trace := rfl

@[simp] theorem State.setHaz_cfg (s : State) : (s.setHaz).cfg = s.cfg := rfl
@[simp] theorem State.setHaz_cmd (s : State) : (s.setHaz).cmd = s.cmd := rfl
@[simp] theorem State.setHaz_pending (s : State) : (s.setHaz).pending = s.pending := rfl
@[simp] theorem State.setHaz_status (s : State) : (s.setHaz).status = s.status := rfl
@[simp] theorem State.setHaz_arg0 (s : State) : (s.setHaz).arg0 = s.arg0 := rfl
@[simp] theorem State.setHaz_arg1 (s : State) : (s.setHaz).arg1 = s.arg1 := rfl
@[simp] theorem State.setHaz_arg2 (s : State) : (s.setHaz).arg2 = s.arg2 := rfl
@[simp] theorem State.setHaz_arg3 (s : State) : (s.setHaz).arg3 = s.arg3 := rfl
@[simp] theorem State.setHaz_res0 (s : State) : (s.setHaz).res0 = s.res0 := rfl
@[simp] theorem State.setHaz_res1 (s : State) : (s.setHaz).res1 = s.res1 := rfl
@[simp] theorem State.setHaz_modcnt (s : State) : (s.setHaz).modcnt = s.modcnt := rfl
@[simp] theorem State.setHaz_seed (s : State) : (s.setHaz).seed = s.seed := rfl
@[simp] theorem State.setHaz_maxi (s : State) : (s.setHaz).maxi = s.maxi := rfl
@[simp] theorem State.setHaz_nseed (s : State) : (s.setHaz).nseed = s.nseed := rfl
@[simp] theorem State.setHaz_hrows (s : State) : (s.setHaz).hrows = s.hrows := rfl
@[simp] theorem State.setHaz_hvalid (s : State) : (s.setHaz).hvalid = s.hvalid := rfl
@[simp] theorem State.setHaz_hcols (s : State) : (s.setHaz).hcols = s.hcols := rfl
@[simp] theorem State.setHaz_mspace (s : State) : (s.setHaz).mspace = s.mspace := rfl
@[simp] theorem State.setHaz_maddr (s : State) : (s.setHaz).maddr = s.maddr := rfl
@[simp] theorem State.setHaz_pstate (s : State) : (s.setHaz).pstate = s.pstate := rfl
@[simp] theorem State.setHaz_drawBuf (s : State) : (s.setHaz).drawBuf = s.drawBuf := rfl
@[simp] theorem State.setHaz_nstate (s : State) : (s.setHaz).nstate = s.nstate := rfl
@[simp] theorem State.setHaz_pix (s : State) : (s.setHaz).pix = s.pix := rfl
@[simp] theorem State.setHaz_bit (s : State) : (s.setHaz).bit = s.bit := rfl
@[simp] theorem State.setHaz_byte (s : State) : (s.setHaz).byte = s.byte := rfl
@[simp] theorem State.setHaz_idx (s : State) : (s.setHaz).idx = s.idx := rfl
@[simp] theorem State.setHaz_haz (s : State) : (s.setHaz).haz = true := rfl
@[simp] theorem State.setHaz_awaitPoll (s : State) : (s.setHaz).awaitPoll = s.awaitPoll := rfl
@[simp] theorem State.setHaz_drawCount (s : State) : (s.setHaz).drawCount = s.drawCount := rfl
@[simp] theorem State.setHaz_inbox (s : State) : (s.setHaz).inbox = s.inbox := rfl
@[simp] theorem State.setHaz_trace (s : State) : (s.setHaz).trace = s.trace := rfl

@[simp] theorem State.bumpMaddr_cfg (s : State) : (s.bumpMaddr).cfg = s.cfg := rfl
@[simp] theorem State.bumpMaddr_cmd (s : State) : (s.bumpMaddr).cmd = s.cmd := rfl
@[simp] theorem State.bumpMaddr_pending (s : State) : (s.bumpMaddr).pending = s.pending := rfl
@[simp] theorem State.bumpMaddr_status (s : State) : (s.bumpMaddr).status = s.status := rfl
@[simp] theorem State.bumpMaddr_arg0 (s : State) : (s.bumpMaddr).arg0 = s.arg0 := rfl
@[simp] theorem State.bumpMaddr_arg1 (s : State) : (s.bumpMaddr).arg1 = s.arg1 := rfl
@[simp] theorem State.bumpMaddr_arg2 (s : State) : (s.bumpMaddr).arg2 = s.arg2 := rfl
@[simp] theorem State.bumpMaddr_arg3 (s : State) : (s.bumpMaddr).arg3 = s.arg3 := rfl
@[simp] theorem State.bumpMaddr_res0 (s : State) : (s.bumpMaddr).res0 = s.res0 := rfl
@[simp] theorem State.bumpMaddr_res1 (s : State) : (s.bumpMaddr).res1 = s.res1 := rfl
@[simp] theorem State.bumpMaddr_modcnt (s : State) : (s.bumpMaddr).modcnt = s.modcnt := rfl
@[simp] theorem State.bumpMaddr_seed (s : State) : (s.bumpMaddr).seed = s.seed := rfl
@[simp] theorem State.bumpMaddr_maxi (s : State) : (s.bumpMaddr).maxi = s.maxi := rfl
@[simp] theorem State.bumpMaddr_nseed (s : State) : (s.bumpMaddr).nseed = s.nseed := rfl
@[simp] theorem State.bumpMaddr_hrows (s : State) : (s.bumpMaddr).hrows = s.hrows := rfl
@[simp] theorem State.bumpMaddr_hvalid (s : State) : (s.bumpMaddr).hvalid = s.hvalid := rfl
@[simp] theorem State.bumpMaddr_hcols (s : State) : (s.bumpMaddr).hcols = s.hcols := rfl
@[simp] theorem State.bumpMaddr_mspace (s : State) : (s.bumpMaddr).mspace = s.mspace := rfl
@[simp] theorem State.bumpMaddr_maddr (s : State) : (s.bumpMaddr).maddr = s.maddr + 1 := rfl
@[simp] theorem State.bumpMaddr_pstate (s : State) : (s.bumpMaddr).pstate = s.pstate := rfl
@[simp] theorem State.bumpMaddr_drawBuf (s : State) : (s.bumpMaddr).drawBuf = s.drawBuf := rfl
@[simp] theorem State.bumpMaddr_nstate (s : State) : (s.bumpMaddr).nstate = s.nstate := rfl
@[simp] theorem State.bumpMaddr_pix (s : State) : (s.bumpMaddr).pix = s.pix := rfl
@[simp] theorem State.bumpMaddr_bit (s : State) : (s.bumpMaddr).bit = s.bit := rfl
@[simp] theorem State.bumpMaddr_byte (s : State) : (s.bumpMaddr).byte = s.byte := rfl
@[simp] theorem State.bumpMaddr_idx (s : State) : (s.bumpMaddr).idx = s.idx := rfl
@[simp] theorem State.bumpMaddr_haz (s : State) : (s.bumpMaddr).haz = s.haz := rfl
@[simp] theorem State.bumpMaddr_awaitPoll (s : State) : (s.bumpMaddr).awaitPoll = s.awaitPoll := rfl
@[simp] theorem State.bumpMaddr_drawCount (s : State) : (s.bumpMaddr).drawCount = s.drawCount := rfl
@[simp] theorem State.bumpMaddr_inbox (s : State) : (s.bumpMaddr).inbox = s.inbox := rfl
@[simp] theorem State.bumpMaddr_trace (s : State) : (s.bumpMaddr).trace = s.trace := rfl

@[simp] theorem State.answer_cfg (s : State) (v : Word) : (s.answer v).cfg = s.cfg := rfl
@[simp] theorem State.answer_cmd (s : State) (v : Word) : (s.answer v).cmd = s.cmd := rfl
@[simp] theorem State.answer_pending (s : State) (v : Word) : (s.answer v).pending = s.pending := rfl
@[simp] theorem State.answer_status (s : State) (v : Word) : (s.answer v).status = s.status := rfl
@[simp] theorem State.answer_arg0 (s : State) (v : Word) : (s.answer v).arg0 = s.arg0 := rfl
@[simp] theorem State.answer_arg1 (s : State) (v : Word) : (s.answer v).arg1 = s.arg1 := rfl
@[simp] theorem State.answer_arg2 (s : State) (v : Word) : (s.answer v).arg2 = s.arg2 := rfl
@[simp] theorem State.answer_arg3 (s : State) (v : Word) : (s.answer v).arg3 = s.arg3 := rfl
@[simp] theorem State.answer_res0 (s : State) (v : Word) : (s.answer v).res0 = s.res0 := rfl
@[simp] theorem State.answer_res1 (s : State) (v : Word) : (s.answer v).res1 = s.res1 := rfl
@[simp] theorem State.answer_modcnt (s : State) (v : Word) : (s.answer v).modcnt = s.modcnt := rfl
@[simp] theorem State.answer_seed (s : State) (v : Word) : (s.answer v).seed = s.seed := rfl
@[simp] theorem State.answer_maxi (s : State) (v : Word) : (s.answer v).maxi = s.maxi := rfl
@[simp] theorem State.answer_nseed (s : State) (v : Word) : (s.answer v).nseed = s.nseed := rfl
@[simp] theorem State.answer_hrows (s : State) (v : Word) : (s.answer v).hrows = s.hrows := rfl
@[simp] theorem State.answer_hvalid (s : State) (v : Word) : (s.answer v).hvalid = s.hvalid := rfl
@[simp] theorem State.answer_hcols (s : State) (v : Word) : (s.answer v).hcols = s.hcols := rfl
@[simp] theorem State.answer_mspace (s : State) (v : Word) : (s.answer v).mspace = s.mspace := rfl
@[simp] theorem State.answer_maddr (s : State) (v : Word) : (s.answer v).maddr = s.maddr := rfl
@[simp] theorem State.answer_pstate (s : State) (v : Word) : (s.answer v).pstate = s.pstate := rfl
@[simp] theorem State.answer_drawBuf (s : State) (v : Word) : (s.answer v).drawBuf = s.drawBuf := rfl
@[simp] theorem State.answer_nstate (s : State) (v : Word) : (s.answer v).nstate = s.nstate := rfl
@[simp] theorem State.answer_pix (s : State) (v : Word) : (s.answer v).pix = s.pix := rfl
@[simp] theorem State.answer_bit (s : State) (v : Word) : (s.answer v).bit = s.bit := rfl
@[simp] theorem State.answer_byte (s : State) (v : Word) : (s.answer v).byte = s.byte := rfl
@[simp] theorem State.answer_idx (s : State) (v : Word) : (s.answer v).idx = s.idx := rfl
@[simp] theorem State.answer_haz (s : State) (v : Word) : (s.answer v).haz = s.haz := rfl
@[simp] theorem State.answer_awaitPoll (s : State) (v : Word) : (s.answer v).awaitPoll = s.awaitPoll := rfl
@[simp] theorem State.answer_drawCount (s : State) (v : Word) : (s.answer v).drawCount = s.drawCount := rfl
@[simp] theorem State.answer_inbox (s : State) (v : Word) : (s.answer v).inbox = s.inbox := rfl
@[simp] theorem State.answer_trace (s : State) (v : Word) : (s.answer v).trace = v :: s.trace := rfl

end Sys2Proof.Machine
end

