-- ==== Sys2Proof/Laws/Command.lean ====
section
/-! SUPPORT. How a command's checks and reads combine, and the outcome it gives. -/

namespace Sys2Proof.Machine

theorem ok_bind {α β : Type} (a : α) (k : α → Cmd β) : ((Except.ok a : Cmd α) >>= k) = k a := rfl

theorem error_bind {α β : Type} (e : Stop) (k : α → Cmd β) : ((Except.error e : Cmd α) >>= k) = .error e := rfl

/-- A sequence answers a value exactly when each part does. -/
theorem bind_ok {α β : Type} {c : Cmd α} {k : α → Cmd β} {b : β} :
    (c >>= k) = .ok b ↔ ∃ a, c = .ok a ∧ k a = .ok b := by
  cases c with
  | error e => simp [error_bind]
  | ok a => simp [ok_bind]

/-- A sequence stops where its first part stops, or where the rest does. -/
theorem bind_error {α β : Type} {c : Cmd α} {k : α → Cmd β} {e : Stop} :
    (c >>= k) = .error e ↔ c = .error e ∨ ∃ a, c = .ok a ∧ k a = .error e := by
  cases c with
  | error e => simp [error_bind]
  | ok a => simp [ok_bind]

theorem pure_eq_ok {α : Type} (a : α) : (pure a : Cmd α) = .ok a := rfl

theorem require_bind {β : Type} (p : Prop) [Decidable p] (d : Detail) (k : Unit → Cmd β) :
    (require p d >>= k) = if p then k () else .error (.raise d) := by
  unfold require; split <;> rfl

/-- A check that passes goes on. -/
theorem require_pass {β : Type} {p : Prop} [Decidable p] {d : Detail} {k : Unit → Cmd β} (h : p) :
    (require p d >>= k) = k () := by
  rw [require_bind, if_pos h]

/-- A check that fails ends the command. -/
theorem require_stop {β : Type} {p : Prop} [Decidable p] {d : Detail} {k : Unit → Cmd β} (h : ¬p) :
    (require p d >>= k) = .error (.raise d) := by
  rw [require_bind, if_neg h]

/-- A bounds check that passes goes on. -/
theorem need_pass {β : Type} {p : Config.Params} {sp : Space} {a n : Nat} {k : Unit → Cmd β} (h : a + n ≤ depth p sp) :
    (need p sp a n >>= k) = k () := require_pass h

/-- A bounds check that fails ends the command. -/
theorem need_stop {β : Type} {p : Config.Params} {sp : Space} {a n : Nat} {k : Unit → Cmd β}
    (h : depth p sp < a + n) : (need p sp a n >>= k) = .error (.raise sp.boundsDetail) :=
  require_stop (Nat.not_le.mpr h)

@[simp] theorem require_ok {p : Prop} [Decidable p] {d : Detail} {u : Unit} : require p d = .ok u ↔ p := by
  unfold require; split <;> simp_all

@[simp] theorem require_error {p : Prop} [Decidable p] {d : Detail} {e : Stop} :
    require p d = .error e ↔ ¬p ∧ e = .raise d := by
  unfold require; split <;> simp_all [eq_comm]

@[simp] theorem need_ok {p : Config.Params} {sp : Space} {a n : Nat} {u : Unit} :
    need p sp a n = .ok u ↔ a + n ≤ depth p sp := by
  simp [need]

@[simp] theorem need_error {p : Config.Params} {sp : Space} {a n : Nat} {e : Stop} :
    need p sp a n = .error e ↔ depth p sp < a + n ∧ e = .raise sp.boundsDetail := by
  simp [need]

/-! ### Outcomes -/

/-- A command answers a next state exactly when it succeeds in it or fails into it. -/
theorem runCmd_next {s t : State} {c : Cmd State} :
    runCmd s c = .next t ↔ c = .ok t ∨ ∃ d, c = .error (.raise d) ∧ t = s.fail d := by
  unfold runCmd; split <;> simp [eq_comm]

/-- A command faults exactly when it reads an unwritten cell. -/
theorem runCmd_fault {s : State} {c : Cmd State} {f : Fault} :
    runCmd s c = .fault f ↔ ∃ sp a, c = .error (.uninit sp a) ∧ f = .uninitRead sp a := by
  unfold runCmd; split <;> simp [eq_comm]

theorem runCmd_not_refused {s : State} {c : Cmd State} {r : Refusal} : runCmd s c ≠ .refused r := by
  unfold runCmd; split <;> simp

/-- The command behind each constructor. -/
def cmdOf : Instr → State → Cmd State
  | .nop => .ok
  | .b2bits => cmdB2bits
  | .bits2b => cmdBits2b
  | .minbits => cmdMinbits
  | .extenc => cmdExtenc
  | .extdec => cmdExtdec
  | .nudge => cmdNudge
  | .hash => cmdHash
  | .permfwdBit => cmdPermfwdBit
  | .permfwdIdx => cmdPermfwdIdx
  | .perminvBit => cmdPerminvBit
  | .perminvIdx => cmdPerminvIdx
  | .permidx => cmdPermidx
  | .hbest => cmdHbest
  | .hgen => cmdHgen
  | .hcol => cmdHcol
  | .hrow => cmdHrow
  | .hmul => cmdHmul
  | .hadd => cmdHadd
  | .hfind => cmdHfind
  | .hsyn => cmdHsyn
  | .hembed => cmdHembed
  | .hextract => cmdHextract

/-- Every command is its checks and effect, run by the one shared operation. -/
theorem exec_eq_runCmd (i : Instr) (s : State) : exec i s = runCmd s (cmdOf i s) := by
  cases i <;> rfl

/-- A step answers by a host transaction, an idle ENGINE, an illegal word or a command. -/
theorem step_eq (s : State) :
    step s = match s.inbox with
      | [] => engineTurn s
      | .engineTurn :: rest => engineTurn { s with inbox := rest }
      | .transact t :: rest => .next (hostStep t { s with inbox := rest }) := rfl

/-! ### Host transactions -/

/-- What a host transaction can do: only HAZ recorded, for a hazard, or else its effect at the port (70_reset R345). -/
theorem hostStep_cases (t : Transaction) (s : State) :
    s.status.busy = true ∧ t.harmless = false ∧ hostStep t s = s.setHaz ∨
      (s.status.busy = false ∨ t.harmless = true) ∧ hostStep t s = portStep t s := by
  cases hb : s.status.busy <;> cases hh : t.harmless <;> simp [hostStep, State.hazardous, hb, hh]

/-- While BUSY = 0 every transaction has its own effect (10_state R34, 40_command_cycle R130). -/
theorem hostStep_idle {t : Transaction} {s : State} (h : s.status.busy = false) : hostStep t s = portStep t s := by
  simp [hostStep, State.hazardous, h]

/-- What the host may always do has its own effect in every state (70_reset R342, R345). -/
theorem hostStep_harmless {t : Transaction} {s : State} (h : t.harmless = true) : hostStep t s = portStep t s := by
  simp [hostStep, State.hazardous, h]

/-- A read is harmless exactly at the offsets of STATUS and ID (10_state R30). -/
theorem harmless_read (off : BitVec 8) : (Transaction.read off).harmless = true ↔ off = 0x08 ∨ off = 0x00 := by
  revert off; decide +kernel

end Sys2Proof.Machine
end

