-- ==== Sys2Proof/Laws/Success.lean ====
section
/-! SUPPORT. For each command, exactly when it succeeds and the state it then gives: every check that passed, every list it
read. Later proofs cite these and do not unfold the commands. -/

namespace Sys2Proof.Machine

variable {s t : State}

theorem cmdB2bits_ok : cmdB2bits s = .ok t ↔
    s.a0 + s.a1 ≤ depth s.cfg .byte ∧ s.a2 + 8 * s.a1 ≤ depth s.cfg .bit ∧
      ∃ bytes : List Byte, (bytes.length = s.a1 ∧ Mem.Holds s.byte s.a0 bytes) ∧
        t = { s with bit := s.bit.writeList s.a2 (bytes.flatMap bits8), res0 := result (8 * s.a1) } := by
  simp [cmdB2bits, bind_ok, fetchList_ok, pure_eq_ok, eq_comm (b := t)]

theorem cmdBits2b_ok : cmdBits2b s = .ok t ↔
    s.a0 + s.a1 ≤ depth s.cfg .bit ∧ s.a2 + s.a1 / 8 ≤ depth s.cfg .byte ∧
      ∃ bits : List Bool, (bits.length = 8 * (s.a1 / 8) ∧ s.bit.Holds s.a0 bits) ∧
        t = { s with
          byte := Mem.writeList s.byte s.a2 (packBytes bits)
          res0 := result (s.a1 / 8)
          res1 := result (s.a1 % 8) } := by
  simp [cmdBits2b, bind_ok, fetchList_ok, pure_eq_ok, eq_comm (b := t)]

theorem cmdMinbits_ok : cmdMinbits s = .ok t ↔
    s.a1 + mlen s.a0 ≤ depth s.cfg .bit ∧
      t = { s with
        bit := s.bit.writeList s.a1 (bitsMsbFirst s.a0 (mlen s.a0))
        res0 := result (mlen s.a0) } := by
  simp [cmdMinbits, bind_ok, pure_eq_ok, eq_comm (b := t)]

theorem cmdExtenc_ok : cmdExtenc s = .ok t ↔
    s.a1 ≤ 5 ∧ s.a1 ≠ 0 ∧ s.a0 + s.a1 ≤ depth s.cfg .byte ∧ s.a2 + (s.a3 + 40) ≤ depth s.cfg .bit ∧
      Mem.read s.byte s.a0 = some 0x2E ∧
      ∃ tail : List Byte, (tail.length = s.a1 - 1 ∧ Mem.Holds s.byte (s.a0 + 1) tail) ∧ 0 ∉ tail ∧
        t = { s with
          bit := s.bit.writeList (s.a2 + s.a3) ((suffixSlots tail).flatMap bits8)
          res0 := result (s.a3 + 40) } := by
  constructor
  · intro h
    simp only [cmdExtenc, bind_ok, require_ok, need_ok, fetchList_ok, fetch_ok, pure_eq_ok, exists_const] at h
    obtain ⟨h1, h2, h3, h4, dot, h5, rfl, tail, h6, h7, h8⟩ := h
    exact ⟨h1, h2, h3, h4, h5, tail, h6, h7, by simpa [eq_comm] using h8⟩
  · rintro ⟨h1, h2, h3, h4, h5, tail, h6, h7, rfl⟩
    simp only [cmdExtenc, bind_ok, require_ok, need_ok, fetchList_ok, fetch_ok, pure_eq_ok, exists_const]
    exact ⟨h1, h2, h3, h4, _, h5, rfl, tail, h6, h7, rfl⟩

theorem cmdExtdec_ok : cmdExtdec s = .ok t ↔
    40 ≤ s.a1 ∧ s.a0 + s.a1 ≤ depth s.cfg .bit ∧ s.a2 + 6 ≤ depth s.cfg .byte ∧
      ∃ bits : List Bool, (bits.length = 40 ∧ s.bit.Holds (s.a0 + s.a1 - 40) bits) ∧
        t = { s with
          byte := Mem.writeList s.byte s.a2 (suffixString (packBytes bits))
          res0 := result (suffixString (packBytes bits)).length } := by
  simp [cmdExtdec, bind_ok, fetchList_ok, pure_eq_ok, eq_comm (b := t)]

theorem cmdNudge_ok : cmdNudge s = .ok t ↔
    s.maxi ≠ 0 ∧ s.a1 ≤ 1 ∧ s.a0 + 1 ≤ depth s.cfg .pix ∧
      ∃ x, s.pix.read s.a0 = some x ∧ x.toNat ≤ s.maxi.toNat ∧
        ((lsb x).toNat = s.a1 ∧ t = { s with res0 := x, res1 := 0 } ∨
          (lsb x).toNat ≠ s.a1 ∧
            t = { (drawNudge s).2 with
              pix := s.pix.write s.a0 (nudgePixel s.maxi x (drawNudge s).1)
              res0 := nudgePixel s.maxi x (drawNudge s).1
              res1 := 1 }) := by
  simp only [cmdNudge, bind_ok, require_ok, need_ok, fetch_ok, pure_eq_ok, exists_const]
  refine and_congr Iff.rfl (and_congr Iff.rfl (and_congr Iff.rfl
    (exists_congr fun x => and_congr Iff.rfl (and_congr Iff.rfl ?_))))
  split <;> rename_i hx <;> simp [hx, eq_comm]

theorem cmdHash_ok : cmdHash s = .ok t ↔
    s.a0 + s.a1 ≤ depth s.cfg .byte ∧
      ∃ bytes : List Byte, (bytes.length = s.a1 ∧ Mem.Holds s.byte s.a0 bytes) ∧
        t = { s with
          res0 := result (djb2 s.cfg bytes)
          res1 := result (djb2 s.cfg bytes / 2 ^ 32)
          seed := result (djb2 s.cfg bytes) } := by
  simp [cmdHash, bind_ok, fetchList_ok, pure_eq_ok, eq_comm (b := t)]

theorem permChecks_ok {sp : Space} {u : Unit} : permChecks s sp = .ok u ↔
    s.a2 ≤ s.a1 ∧ s.a0 + s.a1 ≤ depth s.cfg sp ∧ s.a1 - s.a2 ≤ s.cfg.permMax.toNat := by
  simp [permChecks, bind_ok]

theorem permForward_ok {α : Type} {sp : Space} {m : Mem α} {r : Mem α × Nat} : permForward s sp m = .ok r ↔
    swapsDown sp s.a0 s.a2 (drawSequence s s.a1 s.a2).1 m = .ok r.1 ∧ r.2 = (drawSequence s s.a1 s.a2).2 := by
  obtain ⟨m', p⟩ := r
  simp only [permForward, bind_ok, pure_eq_ok, Except.ok.injEq, Prod.mk.injEq]
  constructor
  · rintro ⟨a, h, rfl, rfl⟩; exact ⟨h, rfl⟩
  · rintro ⟨h, rfl⟩; exact ⟨_, h, rfl, rfl⟩

theorem cmdPermfwdBit_ok : cmdPermfwdBit s = .ok t ↔
    (s.a2 ≤ s.a1 ∧ s.a0 + s.a1 ≤ depth s.cfg .bit ∧ s.a1 - s.a2 ≤ s.cfg.permMax.toNat) ∧
      ∃ m, swapsDown .bit s.a0 s.a2 (drawSequence s s.a1 s.a2).1 s.bit = .ok m ∧
        t = { s with bit := m, pstate := (drawSequence s s.a1 s.a2).2 } := by
  simp only [cmdPermfwdBit, bind_ok, permChecks_ok, permForward_ok, pure_eq_ok, exists_const, Except.ok.injEq]
  refine and_congr Iff.rfl ⟨?_, ?_⟩
  · rintro ⟨r, ⟨h, h2⟩, rfl⟩; exact ⟨_, h, by simp [h2]⟩
  · rintro ⟨m, h, rfl⟩; exact ⟨(m, _), ⟨h, rfl⟩, rfl⟩

theorem cmdPermfwdIdx_ok : cmdPermfwdIdx s = .ok t ↔
    (s.a2 ≤ s.a1 ∧ s.a0 + s.a1 ≤ depth s.cfg .idx ∧ s.a1 - s.a2 ≤ s.cfg.permMax.toNat) ∧
      ∃ m, swapsDown .idx s.a0 s.a2 (drawSequence s s.a1 s.a2).1 s.idx = .ok m ∧
        t = { s with idx := m, pstate := (drawSequence s s.a1 s.a2).2 } := by
  simp only [cmdPermfwdIdx, bind_ok, permChecks_ok, permForward_ok, pure_eq_ok, exists_const, Except.ok.injEq]
  refine and_congr Iff.rfl ⟨?_, ?_⟩
  · rintro ⟨r, ⟨h, h2⟩, rfl⟩; exact ⟨_, h, by simp [h2]⟩
  · rintro ⟨m, h, rfl⟩; exact ⟨(m, _), ⟨h, rfl⟩, rfl⟩

theorem cmdPerminvBit_ok : cmdPerminvBit s = .ok t ↔
    (s.a2 ≤ s.a1 ∧ s.a0 + s.a1 ≤ depth s.cfg .bit ∧ s.a1 - s.a2 ≤ s.cfg.permMax.toNat) ∧
      ∃ m, swapsUp .bit s.a0 s.a2 (drawSequence s s.a1 s.a2).1.reverse s.bit = .ok m ∧
        t = { s with bit := m, pstate := (drawSequence s s.a1 s.a2).2, drawBuf := [] } := by
  simp only [cmdPerminvBit, bind_ok, permChecks_ok, permInverse, fillDrawBuf, pure_eq_ok, exists_const,
    Except.ok.injEq, State.a0, State.a1, State.a2, eq_comm (b := t)]

theorem cmdPerminvIdx_ok : cmdPerminvIdx s = .ok t ↔
    (s.a2 ≤ s.a1 ∧ s.a0 + s.a1 ≤ depth s.cfg .idx ∧ s.a1 - s.a2 ≤ s.cfg.permMax.toNat) ∧
      ∃ m, swapsUp .idx s.a0 s.a2 (drawSequence s s.a1 s.a2).1.reverse s.idx = .ok m ∧
        t = { s with idx := m, pstate := (drawSequence s s.a1 s.a2).2, drawBuf := [] } := by
  simp only [cmdPerminvIdx, bind_ok, permChecks_ok, permInverse, fillDrawBuf, pure_eq_ok, exists_const,
    Except.ok.injEq, State.a0, State.a1, State.a2, eq_comm (b := t)]

theorem cmdPermidx_ok : cmdPermidx s = .ok t ↔
    (s.a2 ≤ s.a1 ∧ s.a0 + s.a1 ≤ depth s.cfg .idx ∧ s.a1 - s.a2 ≤ s.cfg.permMax.toNat) ∧
      ∃ m, swapsDown .idx s.a0 s.a2 (drawSequence s s.a1 s.a2).1
          (s.idx.writeList s.a0 (identityTable s.a1)) = .ok m ∧
        t = { s with idx := m, pstate := (drawSequence s s.a1 s.a2).2 } := by
  simp only [cmdPermidx, bind_ok, permChecks_ok, permForward_ok, pure_eq_ok, exists_const, Except.ok.injEq]
  refine and_congr Iff.rfl ⟨?_, ?_⟩
  · rintro ⟨r, ⟨h, h2⟩, rfl⟩; exact ⟨_, h, by simp [h2]⟩
  · rintro ⟨m, h, rfl⟩; exact ⟨(m, _), ⟨h, rfl⟩, rfl⟩

theorem cmdHbest_ok : cmdHbest s = .ok t ↔
    t = { s with
      res0 := result (hbest s.a0 s.a1).1
      res1 := result (min (hbest s.a0 s.a1).2 (2 ^ 32 - 1)) } := by
  simp [cmdHbest, eq_comm (b := t)]

theorem cmdHgen_ok : cmdHgen s = .ok t ↔
    (1 ≤ s.a0 ∧ s.a0 ≤ s.cfg.rowsMax) ∧ s.a1 = 2 ^ s.a0 - 1 ∧
      t = { s with hrows := BitVec.ofNat 6 s.a0, hcols := s.arg1, hvalid := true } := by
  simp only [cmdHgen, bind_ok, require_ok, pure_eq_ok, exists_const, Except.ok.injEq, eq_comm (b := t)]

theorem needMatrix_ok {u : Unit} : needMatrix s = .ok u ↔ s.hvalid = true := by simp [needMatrix]

theorem cmdHcol_ok : cmdHcol s = .ok t ↔
    s.hvalid = true ∧ s.a0 < s.cols ∧ t = { s with res0 := result (s.a0 + 1) } := by
  simp [cmdHcol, bind_ok, needMatrix_ok, pure_eq_ok, eq_comm (b := t)]

theorem cmdHrow_ok : cmdHrow s = .ok t ↔
    s.hvalid = true ∧ s.a0 < s.rows ∧ s.a1 + s.cols ≤ depth s.cfg .bit ∧
      t = { s with bit := s.bit.writeList s.a1 ((List.range s.cols).map (hEntry s.a0)) } := by
  simp [cmdHrow, bind_ok, needMatrix_ok, pure_eq_ok, eq_comm (b := t)]

theorem cmdHmul_ok : cmdHmul s = .ok t ↔
    s.hvalid = true ∧ s.a0 + s.cols ≤ depth s.cfg .bit ∧
      ∃ v : List Bool, (v.length = s.cols ∧ s.bit.Holds s.a0 v) ∧ t = { s with res0 := result (syn v) } := by
  simp [cmdHmul, bind_ok, needMatrix_ok, fetchList_ok, pure_eq_ok, eq_comm (b := t)]

theorem cmdHadd_ok : cmdHadd s = .ok t ↔ t = { s with res0 := s.arg0 ^^^ s.arg1 } := by
  simp [cmdHadd, eq_comm (b := t)]

theorem findColumn_ok {C target c : Nat} : findColumn C target = .ok c ↔ findFrom target 0 C = some c := by
  unfold findColumn; split <;> simp_all

theorem cmdHfind_ok : cmdHfind s = .ok t ↔
    s.hvalid = true ∧ ∃ c, findFrom s.a0 0 s.cols = some c ∧ t = { s with res0 := result c } := by
  simp [cmdHfind, bind_ok, needMatrix_ok, findColumn_ok, pure_eq_ok, eq_comm (b := t)]

theorem fetchLsb_ok {m : Mem Word} {k : Nat} {b : Bool} :
    fetchLsb m k = .ok b ↔ ∃ x, m.read k = some x ∧ lsb x = b := by
  unfold fetchLsb fetch; cases m.read k <;> simp

theorem fetchLsb_error {m : Mem Word} {k : Nat} {e : Stop} :
    fetchLsb m k = .error e ↔ m.read k = none ∧ e = .uninit .pix k := by
  unfold fetchLsb fetch; cases m.read k <;> simp [eq_comm]

/-- What the pixel LSBs of a block are: those of the cells below the dimension, 1 from it on. -/
theorem blockBits_ok {m : Mem Word} {dim o C : Nat} {v : List Bool} : blockBits m dim o C = .ok v ↔
    v.length = C ∧ ∀ c, (h : c < v.length) →
      (o + c < dim → ∃ x, m.read (o + c) = some x ∧ lsb x = v[c]) ∧ (dim ≤ o + c → v[c] = true) := by
  unfold blockBits
  rw [fetchFilled_ok]
  refine and_congr Iff.rfl (forall_congr' fun c => forall_congr' fun h => ?_)
  by_cases hc : o + c < dim
  · rw [if_pos hc, fetchLsb_ok]
    exact ⟨fun hx => ⟨fun _ => hx, fun hd => absurd hc (Nat.not_lt.mpr hd)⟩, fun hx => hx.1 hc⟩
  · rw [if_neg hc, Except.ok.injEq]
    exact ⟨fun hx => ⟨fun hd => absurd hd hc, fun _ => hx.symm⟩, fun hx => (hx.2 (Nat.not_lt.mp hc)).symm⟩

theorem cmdHsyn_ok : cmdHsyn s = .ok t ↔
    s.hvalid = true ∧ s.a1 ≤ depth s.cfg .pix ∧
      ∃ v, blockBits s.pix s.a1 s.a0 s.cols = .ok v ∧ t = { s with res0 := result (syn v) } := by
  simp [cmdHsyn, bind_ok, needMatrix_ok, pure_eq_ok, eq_comm (b := t)]

theorem needUsefulCode_ok {u : Unit} : needUsefulCode s = .ok u ↔ ¬(s.rows ≤ 1 ∨ s.cols ≤ 2) := by
  simp [needUsefulCode]

theorem cmdHembed_ok : cmdHembed s = .ok t ↔
    s.hvalid = true ∧ ¬(s.rows ≤ 1 ∨ s.cols ≤ 2) ∧ s.maxi ≠ 0 ∧ s.a0 + s.a1 ≤ depth s.cfg .bit ∧
      s.a3 ≤ depth s.cfg .pix ∧ s.a2 + s.blocks * s.cols ≤ s.a3 ∧
      ∃ px : List Word, (px.length = s.blocks * s.cols ∧ s.pix.Holds s.a2 px) ∧
        (∀ x ∈ px, x.toNat ≤ s.maxi.toNat) ∧
        ∃ r, embedBlocks 0 s.blocks s = .ok r ∧
          t = { r.1 with modcnt := result r.2, res0 := result r.2 } := by
  simp only [cmdHembed, bind_ok, needMatrix_ok, needUsefulCode_ok, require_ok, need_ok, fetchList_ok, pure_eq_ok,
    exists_const, Except.ok.injEq, eq_comm (b := t), Nat.zero_add, List.all_eq_true, decide_eq_true_eq]

theorem cmdHextract_ok : cmdHextract s = .ok t ↔
    s.hvalid = true ∧ ¬(s.rows ≤ 1 ∨ s.cols ≤ 2) ∧ s.a0 + s.a1 ≤ depth s.cfg .bit ∧ s.a3 ≤ depth s.cfg .pix ∧
      ∃ bits, extractBlocks s 0 s.blocks = .ok bits ∧
        t = { s with bit := s.bit.writeList s.a0 (bits.take s.a1), res0 := s.arg1 } := by
  simp only [cmdHextract, bind_ok, needMatrix_ok, needUsefulCode_ok, need_ok, pure_eq_ok,
    exists_const, Except.ok.injEq, eq_comm (b := t), Nat.zero_add]

end Sys2Proof.Machine
end

