-- ==== Sys2Proof/Laws/Frame.lean ====
section
/-! SUPPORT. What a command that succeeds may have written, said once for all commands; the steps of HEMBED's loop. -/

namespace Sys2Proof.Machine

theorem drawNudge_frame (s : State) : ∃ ns dc, (drawNudge s).2 = { s with nstate := ns, drawCount := dc } := by
  unfold drawNudge
  split
  · exact ⟨s.nstate, _, rfl⟩
  · exact ⟨_, s.drawCount, rfl⟩

theorem embedBlock_ok {s t : State} {i c : Nat} : embedBlock s i = .ok (t, c) ↔
    ∃ v m, blockBits s.pix s.a3 (s.blockStart i) s.cols = .ok v ∧ messageBits s i = .ok m ∧
      (syn v ^^^ packBits m = 0 ∧ t = s ∧ c = 0 ∨
        syn v ^^^ packBits m ≠ 0 ∧ c = 1 ∧
          ∃ x, s.pix.read (s.blockStart i + ((syn v ^^^ packBits m) - 1)) = some x ∧
            t = { (drawNudge s).2 with
              pix := s.pix.write (s.blockStart i + ((syn v ^^^ packBits m) - 1))
                (nudgePixel s.maxi x (drawNudge s).1) }) := by
  simp only [embedBlock, bind_ok]
  constructor
  · rintro ⟨v, hv, m, hm, h⟩
    refine ⟨v, m, hv, hm, ?_⟩
    split at h <;> rename_i h0
    · simp only [pure_eq_ok, Except.ok.injEq, Prod.mk.injEq] at h
      exact .inl ⟨h0, h.1.symm, h.2.symm⟩
    · simp only [bind_ok, fetch_ok, pure_eq_ok, Except.ok.injEq, Prod.mk.injEq] at h
      obtain ⟨x, hx, ht, hc⟩ := h
      exact .inr ⟨h0, hc.symm, x, hx, ht.symm⟩
  · rintro ⟨v, m, hv, hm, ⟨h0, rfl, rfl⟩ | ⟨h0, rfl, x, hx, rfl⟩⟩
    · exact ⟨v, hv, m, hm, by rw [if_pos h0]; rfl⟩
    · exact ⟨v, hv, m, hm, by rw [if_neg h0]; simp only [bind_ok, fetch_ok]; exact ⟨x, hx, rfl⟩⟩

theorem embedBlocks_succ_ok {s u : State} {i n c : Nat} : embedBlocks i (n + 1) s = .ok (u, c) ↔
    ∃ t c1 c2, embedBlock s i = .ok (t, c1) ∧ embedBlocks (i + 1) n t = .ok (u, c2) ∧ c = c1 + c2 := by
  simp only [embedBlocks]
  cases h : embedBlock s i with
  | error e => simp
  | ok r =>
    obtain ⟨t, c1⟩ := r
    cases h2 : embedBlocks (i + 1) n t with
    | error e => simp [h2]
    | ok r2 => obtain ⟨u', c2⟩ := r2; simp [h2, eq_comm (a := c)]

theorem embedBlock_frame {s t : State} {i c : Nat} (h : embedBlock s i = .ok (t, c)) :
    ∃ pm ns dc, t = { s with pix := pm, nstate := ns, drawCount := dc } := by
  obtain ⟨v, m, _, _, ⟨_, rfl, _⟩ | ⟨_, _, x, _, rfl⟩⟩ := embedBlock_ok.mp h
  · exact ⟨_, _, _, rfl⟩
  · obtain ⟨ns, dc, hd⟩ := drawNudge_frame s
    exact ⟨_, ns, dc, by rw [hd]⟩

theorem embedBlocks_frame : ∀ {n i c : Nat} {s t : State}, embedBlocks i n s = .ok (t, c) →
    ∃ pm ns dc, t = { s with pix := pm, nstate := ns, drawCount := dc } := by
  intro n
  induction n with
  | zero =>
    intro i c s t h
    simp only [embedBlocks, Except.ok.injEq, Prod.mk.injEq] at h
    obtain ⟨rfl, _⟩ := h
    exact ⟨_, _, _, rfl⟩
  | succ n ih =>
    intro i c s t h
    obtain ⟨u, c1, c2, h1, h2, _⟩ := embedBlocks_succ_ok.mp h
    obtain ⟨pm, ns, dc, rfl⟩ := embedBlock_frame h1
    obtain ⟨pm', ns', dc', rfl⟩ := ih h2
    exact ⟨pm', ns', dc', rfl⟩

/-- What a command that succeeds may have written (40_command_cycle R138, 20_memory R72). -/
def Writes (s t : State) : Instr → Prop
  | .nop => t = s
  | .b2bits | .minbits | .extenc | .hextract => ∃ m r, t = { s with bit := m, res0 := r }
  | .bits2b => ∃ m r r', t = { s with byte := m, res0 := r, res1 := r' }
  | .extdec => ∃ m r, t = { s with byte := m, res0 := r }
  | .nudge => ∃ m r r' ns dc, t = { s with pix := m, res0 := r, res1 := r', nstate := ns, drawCount := dc }
  | .hash => ∃ r r', t = { s with res0 := r, res1 := r', seed := r }
  | .permfwdBit => ∃ m p, t = { s with bit := m, pstate := p }
  | .permfwdIdx | .permidx => ∃ m p, t = { s with idx := m, pstate := p }
  | .perminvBit => ∃ m p, t = { s with bit := m, pstate := p, drawBuf := [] }
  | .perminvIdx => ∃ m p, t = { s with idx := m, pstate := p, drawBuf := [] }
  | .hbest => ∃ r r', t = { s with res0 := r, res1 := r' }
  | .hgen => ∃ r, t = { s with hrows := r, hcols := s.arg1, hvalid := true }
  | .hcol | .hmul | .hadd | .hfind | .hsyn => ∃ r, t = { s with res0 := r }
  | .hrow => ∃ m, t = { s with bit := m }
  | .hembed => ∃ m r ns dc, t = { s with pix := m, res0 := r, modcnt := r, nstate := ns, drawCount := dc }

/-- A command that succeeds writes nothing but what its rule names. -/
theorem cmdOf_writes {i : Instr} {s t : State} (h : cmdOf i s = .ok t) : Writes s t i := by
  cases i <;> simp only [cmdOf] at h
  case nop => simp at h; exact h.symm
  case b2bits => obtain ⟨_, _, _, _, rfl⟩ := cmdB2bits_ok.mp h; exact ⟨_, _, rfl⟩
  case bits2b => obtain ⟨_, _, _, _, rfl⟩ := cmdBits2b_ok.mp h; exact ⟨_, _, _, rfl⟩
  case minbits => obtain ⟨_, rfl⟩ := cmdMinbits_ok.mp h; exact ⟨_, _, rfl⟩
  case extenc => obtain ⟨_, _, _, _, _, _, _, _, rfl⟩ := cmdExtenc_ok.mp h; exact ⟨_, _, rfl⟩
  case extdec => obtain ⟨_, _, _, _, _, rfl⟩ := cmdExtdec_ok.mp h; exact ⟨_, _, rfl⟩
  case nudge =>
    obtain ⟨_, _, _, x, _, _, ⟨_, rfl⟩ | ⟨_, rfl⟩⟩ := cmdNudge_ok.mp h
    · exact ⟨_, _, _, _, _, rfl⟩
    · obtain ⟨ns, dc, hd⟩ := drawNudge_frame s
      exact ⟨_, _, _, ns, dc, by rw [hd]⟩
  case hash => obtain ⟨_, _, _, rfl⟩ := cmdHash_ok.mp h; exact ⟨_, _, rfl⟩
  case permfwdBit => obtain ⟨_, _, _, rfl⟩ := cmdPermfwdBit_ok.mp h; exact ⟨_, _, rfl⟩
  case permfwdIdx => obtain ⟨_, _, _, rfl⟩ := cmdPermfwdIdx_ok.mp h; exact ⟨_, _, rfl⟩
  case perminvBit => obtain ⟨_, _, _, rfl⟩ := cmdPerminvBit_ok.mp h; exact ⟨_, _, rfl⟩
  case perminvIdx => obtain ⟨_, _, _, rfl⟩ := cmdPerminvIdx_ok.mp h; exact ⟨_, _, rfl⟩
  case permidx => obtain ⟨_, _, _, rfl⟩ := cmdPermidx_ok.mp h; exact ⟨_, _, rfl⟩
  case hbest => obtain rfl := cmdHbest_ok.mp h; exact ⟨_, _, rfl⟩
  case hgen => obtain ⟨_, _, rfl⟩ := cmdHgen_ok.mp h; exact ⟨_, rfl⟩
  case hcol => obtain ⟨_, _, rfl⟩ := cmdHcol_ok.mp h; exact ⟨_, rfl⟩
  case hrow => obtain ⟨_, _, _, rfl⟩ := cmdHrow_ok.mp h; exact ⟨_, rfl⟩
  case hmul => obtain ⟨_, _, _, _, rfl⟩ := cmdHmul_ok.mp h; exact ⟨_, rfl⟩
  case hadd => obtain rfl := cmdHadd_ok.mp h; exact ⟨_, rfl⟩
  case hfind => obtain ⟨_, _, _, rfl⟩ := cmdHfind_ok.mp h; exact ⟨_, rfl⟩
  case hsyn => obtain ⟨_, _, _, _, rfl⟩ := cmdHsyn_ok.mp h; exact ⟨_, rfl⟩
  case hembed =>
    obtain ⟨_, _, _, _, _, _, _, _, _, ⟨r1, r2⟩, hr, rfl⟩ := cmdHembed_ok.mp h
    obtain ⟨pm, ns, dc, rfl⟩ := embedBlocks_frame hr
    exact ⟨_, _, _, _, rfl⟩
  case hextract => obtain ⟨_, _, _, _, _, _, rfl⟩ := cmdHextract_ok.mp h; exact ⟨_, _, rfl⟩

theorem exec_next {i : Instr} {s t : State} :
    exec i s = .next t ↔ cmdOf i s = .ok t ∨ ∃ d, cmdOf i s = .error (.raise d) ∧ t = s.fail d := by
  rw [exec_eq_runCmd, runCmd_next]

/-- A command that raises an error fails with it, and with nothing else (40_command_cycle R132). -/
theorem exec_raise {i : Instr} {s : State} {d : Detail} (h : cmdOf i s = .error (.raise d)) :
    exec i s = .next (s.fail d) := exec_next.mpr (.inr ⟨d, h, rfl⟩)

theorem exec_fault {i : Instr} {s : State} {f : Fault} :
    exec i s = .fault f ↔ ∃ sp a, cmdOf i s = .error (.uninit sp a) ∧ f = .uninitRead sp a := by
  rw [exec_eq_runCmd, runCmd_fault]

end Sys2Proof.Machine
end

