-- ==== Sys2Proof/Laws/Errors.lean ====
section
/-! SUPPORT. How a command stops: the errors it may raise (60_exceptions R303) and the unwritten cells it may read
(10_state R55). -/

namespace Sys2Proof.Machine

theorem findColumn_error {C target : Nat} {e : Stop} :
    findColumn C target = .error e ↔ findFrom target 0 C = none ∧ e = .raise .noColumn := by
  unfold findColumn; cases findFrom target 0 C <;> simp [eq_comm]

theorem pure_ne_error {α : Type} {a : α} {e : Stop} : (pure a : Cmd α) ≠ .error e := by
  rw [pure_eq_ok]; simp

variable {α : Type}

theorem swapCells_ok {sp : Space} {m m' : Mem α} {p q : Nat} : swapCells sp m p q = .ok m' ↔
    ∃ x y, m.read p = some x ∧ m.read q = some y ∧ m' = (m.write p y).write q x := by
  simp [swapCells, bind_ok, fetch_ok, pure_eq_ok, eq_comm (b := m')]

theorem swapCells_error {sp : Space} {m : Mem α} {p q : Nat} {e : Stop} (h : swapCells sp m p q = .error e) :
    ∃ b, m.read b = none ∧ e = .uninit sp b ∧ (b = p ∨ b = q) := by
  simp only [swapCells, bind_error, fetch_error, pure_ne_error, and_false, exists_false, or_false] at h
  rcases h with ⟨h, rfl⟩ | ⟨_, _, h, rfl⟩
  · exact ⟨p, h, rfl, .inl rfl⟩
  · exact ⟨q, h, rfl, .inr rfl⟩

/-- A swap writes only cells that hold a value already. -/
theorem swapCells_unlisted {sp : Space} {m m' : Mem α} {p q b : Nat} (h : swapCells sp m p q = .ok m') :
    m'.read b = none ↔ m.read b = none := by
  obtain ⟨x, y, hx, hy, rfl⟩ := swapCells_ok.mp h
  rw [Mem.read_write, Mem.read_write]
  split
  · subst b; simp [hy]
  · split
    · subst b; simp [hx]
    · rfl

theorem swapsDown_error {sp : Space} {base start : Nat} : ∀ {js : List Nat} {m : Mem α} {e : Stop},
    swapsDown sp base start js m = .error e → ∃ b, m.read b = none ∧ e = .uninit sp b := by
  intro js
  induction js with
  | nil => intro m e h; simp [swapsDown] at h
  | cons j js ih =>
    intro m e h
    simp only [swapsDown] at h
    split at h
    · rename_i hs
      cases h
      obtain ⟨b, hb, he, _⟩ := swapCells_error hs
      exact ⟨b, hb, he⟩
    · rename_i m' hs
      obtain ⟨b, hb, he⟩ := ih h
      exact ⟨b, (swapCells_unlisted hs).mp hb, he⟩

theorem swapsUp_error {sp : Space} {base : Nat} : ∀ {js : List Nat} {i : Nat} {m : Mem α} {e : Stop},
    swapsUp sp base i js m = .error e → ∃ b, m.read b = none ∧ e = .uninit sp b := by
  intro js
  induction js with
  | nil => intro i m e h; simp [swapsUp] at h
  | cons j js ih =>
    intro i m e h
    simp only [swapsUp] at h
    split at h
    · rename_i hs
      cases h
      obtain ⟨b, hb, he, _⟩ := swapCells_error hs
      exact ⟨b, hb, he⟩
    · rename_i m' hs
      obtain ⟨b, hb, he⟩ := ih h
      exact ⟨b, (swapCells_unlisted hs).mp hb, he⟩

theorem permForward_error {s : State} {sp : Space} {m : Mem α} {e : Stop} (h : permForward s sp m = .error e) :
    ∃ b, m.read b = none ∧ e = .uninit sp b := by
  simp only [permForward, bind_error, pure_ne_error, and_false, exists_false, or_false] at h
  exact swapsDown_error h

theorem permInverse_error {s : State} {sp : Space} {m : Mem α} {e : Stop} (h : permInverse s sp m = .error e) :
    ∃ b, m.read b = none ∧ e = .uninit sp b := swapsUp_error h

theorem permChecks_error {s : State} {sp : Space} {e : Stop} (h : permChecks s sp = .error e) :
    e = .raise .rangeOrder ∨ e = .raise sp.boundsDetail ∨ e = .raise .permLimit := by
  simp only [permChecks, bind_error, require_error, need_error] at h
  rcases h with ⟨_, h⟩ | ⟨_, _, ⟨_, h⟩ | ⟨_, _, _, h⟩⟩ <;> simp [h]

theorem blockBits_error {m : Mem Word} {dim o C : Nat} {e : Stop} (h : blockBits m dim o C = .error e) :
    ∃ k, m.read k = none ∧ e = .uninit .pix k := by
  obtain ⟨q, _, _, _, hq⟩ := fetchFilled_error h
  exact ⟨q, fetchLsb_error.mp hq⟩

theorem messageBits_error {s : State} {i : Nat} {e : Stop} (h : messageBits s i = .error e) :
    ∃ k, s.bit.read k = none ∧ e = .uninit .bit k := by
  obtain ⟨q, _, _, _, hq⟩ := fetchFilled_error h
  exact ⟨s.a0 + q, fetch_error.mp hq⟩

theorem embedBlock_error {s : State} {i : Nat} {e : Stop} (h : embedBlock s i = .error e) :
    (∃ k, s.pix.read k = none ∧ e = .uninit .pix k) ∨ ∃ k, s.bit.read k = none ∧ e = .uninit .bit k := by
  simp only [embedBlock, bind_error] at h
  rcases h with h | ⟨v, _, h | ⟨m, _, h⟩⟩
  · exact .inl (blockBits_error h)
  · exact .inr (messageBits_error h)
  · split at h
    · exact absurd h pure_ne_error
    · simp only [bind_error, fetch_error, pure_ne_error, and_false, exists_false, or_false] at h
      exact .inl ⟨_, h⟩

/-- A block writes no cell of BIT and only a pixel that holds a value already. -/
theorem embedBlock_unlisted {s t : State} {i c k : Nat} (h : embedBlock s i = .ok (t, c)) :
    t.bit = s.bit ∧ (t.pix.read k = none ↔ s.pix.read k = none) := by
  obtain ⟨v, m, _, _, ⟨_, rfl, _⟩ | ⟨_, _, x, hx, rfl⟩⟩ := embedBlock_ok.mp h
  · exact ⟨rfl, Iff.rfl⟩
  · obtain ⟨ns, dc, hd⟩ := drawNudge_frame s
    rw [hd]
    refine ⟨rfl, ?_⟩
    rw [Mem.read_write]
    split
    · subst k; simp [hx]
    · rfl

theorem embedBlocks_error : ∀ {n i : Nat} {s : State} {e : Stop}, embedBlocks i n s = .error e →
    (∃ k, s.pix.read k = none ∧ e = .uninit .pix k) ∨ ∃ k, s.bit.read k = none ∧ e = .uninit .bit k := by
  intro n
  induction n with
  | zero => intro i s e h; simp [embedBlocks] at h
  | succ n ih =>
    intro i s e h
    simp only [embedBlocks] at h
    split at h
    · rename_i hb
      cases h
      exact embedBlock_error hb
    · rename_i t c hb
      split at h
      · rename_i hr
        cases h
        rcases ih hr with ⟨k, hk, he⟩ | ⟨k, hk, he⟩
        · exact .inl ⟨k, (embedBlock_unlisted hb).2.mp hk, he⟩
        · exact .inr ⟨k, (embedBlock_unlisted (k := k) hb).1 ▸ hk, he⟩
      · simp at h

theorem extractBlock_error {s : State} {i : Nat} {e : Stop} (h : extractBlock s i = .error e) :
    ∃ k, s.pix.read k = none ∧ e = .uninit .pix k := by
  simp only [extractBlock, bind_error, pure_ne_error, and_false, exists_false, or_false] at h
  exact blockBits_error h

theorem extractBlocks_error {s : State} : ∀ {n i : Nat} {e : Stop}, extractBlocks s i n = .error e →
    ∃ k, s.pix.read k = none ∧ e = .uninit .pix k := by
  intro n
  induction n with
  | zero => intro i e h; simp [extractBlocks] at h
  | succ n ih =>
    intro i e h
    simp only [extractBlocks] at h
    split at h
    · rename_i hb; cases h; exact extractBlock_error hb
    · split at h
      · rename_i hr; cases h; exact ih hr
      · simp at h

/-! ### The draws of a permutation -/

theorem drawPerm_mem (g : Config.Prng) {lo hi st : Nat} (h : lo ≤ hi) :
    lo ≤ (drawPerm g lo hi st).1 ∧ (drawPerm g lo hi st).1 ≤ hi := by
  have := Nat.mod_lt (prngNext g st).1 (show 0 < hi - lo + 1 by omega)
  simp only [drawPerm]; omega

theorem drawsDown_length (g : Config.Prng) (start : Nat) : ∀ (k st : Nat), (drawsDown g start k st).1.length = k := by
  intro k
  induction k with
  | zero => intro st; rfl
  | succ k ih => intro st; simp [drawsDown, ih]

/-- The draws after the first are those of the shorter range. -/
theorem drawsDown_succ (g : Config.Prng) (start k st : Nat) : (drawsDown g start (k + 1) st).1 =
    (drawPerm g start (start + k) st).1 :: (drawsDown g start k (drawPerm g start (start + k) st).2).1 := rfl

/-- Swaps whose cells all hold a value succeed. -/
theorem swapsDown_total {sp : Space} {base start : Nat} (g : Config.Prng) : ∀ {k st : Nat} {m : Mem α},
    (∀ i, start ≤ i → i < start + k → m.read (base + i) ≠ none) →
    ∃ m', swapsDown sp base start (drawsDown g start k st).1 m = .ok m' := by
  intro k
  induction k with
  | zero => intro st m _; exact ⟨m, rfl⟩
  | succ k ih =>
    intro st m hm
    have hj := drawPerm_mem g (st := st) (show start ≤ start + k by omega)
    rw [drawsDown_succ]
    simp only [swapsDown, drawsDown_length]
    cases hs : swapCells sp m (base + (start + k)) (base + (drawPerm g start (start + k) st).1) with
    | error e =>
      obtain ⟨b, hb, _, rfl | rfl⟩ := swapCells_error hs
      · exact absurd hb (hm _ (by omega) (by omega))
      · exact absurd hb (hm _ hj.1 (by omega))
    | ok m' =>
      exact ih fun i h1 h2 h => hm i h1 (by omega) ((swapCells_unlisted hs).mp h)

theorem drawSequence_length (s : State) (n start : Nat) : (drawSequence s n start).1.length = n - start :=
  drawsDown_length ..

/-- PERMIDX reads only cells it has just written. -/
theorem cmdPermidx_error {s : State} {e : Stop} (h : cmdPermidx s = .error e) :
    e = .raise .rangeOrder ∨ e = .raise .idxBounds ∨ e = .raise .permLimit := by
  simp only [cmdPermidx, bind_error, pure_ne_error, and_false, exists_false, or_false] at h
  rcases h with h | ⟨_, hc, h⟩
  · exact permChecks_error h
  · obtain ⟨hle, _, _⟩ := permChecks_ok.mp hc
    obtain ⟨m', hm⟩ := swapsDown_total (sp := .idx) (base := s.a0) (start := s.a2) s.cfg.prng (k := s.a1 - s.a2)
      (st := prngInit s.cfg.prng s.seed) (m := s.idx.writeList s.a0 (identityTable s.a1)) (by
        intro i _ h2
        rw [Mem.read_writeList_at _ _ _ (by simp [identityTable]; omega)]
        simp)
    simp only [permForward, bind_error, pure_ne_error, and_false, exists_false, or_false, drawSequence, hm] at h
    exact absurd h (by simp)

/-! ### What a command may raise and read -/

/-- The detail codes a decoded command may raise (60_exceptions R303). -/
def raises : Instr → List Detail
  | .nop | .hbest | .hadd => []
  | .b2bits => [.byteBounds, .bitBounds]
  | .bits2b => [.bitBounds, .byteBounds]
  | .minbits => [.bitBounds]
  | .extenc => [.extTooLong, .extMalformed, .byteBounds, .bitBounds]
  | .extdec => [.streamShort, .bitBounds, .byteBounds]
  | .nudge => [.maxiZero, .bitValue, .pixBounds, .pixelRange]
  | .hash => [.byteBounds]
  | .permfwdBit | .perminvBit => [.rangeOrder, .bitBounds, .permLimit]
  | .permfwdIdx | .perminvIdx | .permidx => [.rangeOrder, .idxBounds, .permLimit]
  | .hgen => [.rowsRange, .colsMismatch]
  | .hcol => [.noMatrix, .colIndex]
  | .hrow => [.noMatrix, .rowIndex, .bitBounds]
  | .hmul => [.noMatrix, .bitBounds]
  | .hfind => [.noMatrix, .noColumn]
  | .hsyn => [.noMatrix, .pixBounds]
  | .hembed => [.noMatrix, .codeTooSmall, .maxiZero, .bitBounds, .pixBounds, .hammingCapacity, .pixelRange]
  | .hextract => [.noMatrix, .codeTooSmall, .bitBounds, .pixBounds]

/-- The unwritten cells a command may stop at (20_memory R72). -/
def reads (i : Instr) (s : State) : Space → Nat → Prop
  | .pix, a => s.pix.read a = none ∧ i ∈ [Instr.nudge, .hsyn, .hembed, .hextract]
  | .bit, a => s.bit.read a = none ∧ i ∈ [Instr.bits2b, .extdec, .permfwdBit, .perminvBit, .hmul, .hembed]
  | .byte, a => Mem.read s.byte a = none ∧ i ∈ [Instr.b2bits, .extenc, .hash]
  | .idx, a => s.idx.read a = none ∧ i ∈ [Instr.permfwdIdx, .perminvIdx]

/-- How a command may stop. -/
def StopOk (i : Instr) (s : State) : Stop → Prop
  | .raise d => d ∈ raises i
  | .uninit sp a => reads i s sp a

/-- A command stops only by an error its rule names or at an unwritten cell of a space it reads. -/
theorem cmdOf_error {i : Instr} {s : State} {e : Stop} (h : cmdOf i s = .error e) : StopOk i s e := by
  cases i <;> simp only [cmdOf] at h
  case nop => simp at h
  case b2bits =>
    simp only [cmdB2bits, bind_error, need_error, pure_ne_error, and_false, exists_false, or_false] at h
    rcases h with ⟨_, rfl⟩ | ⟨_, _, ⟨_, rfl⟩ | ⟨_, _, h⟩⟩
    · simp [StopOk, raises, Space.boundsDetail]
    · simp [StopOk, raises, Space.boundsDetail]
    · obtain ⟨b, _, _, hb, rfl⟩ := fetchList_error h; simp [StopOk, reads, hb]
  case bits2b =>
    simp only [cmdBits2b, bind_error, need_error, pure_ne_error, and_false, exists_false, or_false] at h
    rcases h with ⟨_, rfl⟩ | ⟨_, _, ⟨_, rfl⟩ | ⟨_, _, h⟩⟩
    · simp [StopOk, raises, Space.boundsDetail]
    · simp [StopOk, raises, Space.boundsDetail]
    · obtain ⟨b, _, _, hb, rfl⟩ := fetchList_error h; simp [StopOk, reads, hb]
  case minbits =>
    simp only [cmdMinbits, bind_error, need_error, pure_ne_error, and_false, exists_false, or_false] at h
    obtain ⟨_, rfl⟩ := h
    simp [StopOk, raises, Space.boundsDetail]
  case extenc =>
    simp only [cmdExtenc, bind_error, need_error, require_error, fetch_error, pure_ne_error, and_false, exists_false,
      or_false] at h
    rcases h with ⟨_, rfl⟩ | ⟨_, _, ⟨_, rfl⟩ | ⟨_, _, ⟨_, rfl⟩ | ⟨_, _, ⟨_, rfl⟩ | ⟨_, _, ⟨hb, rfl⟩ |
      ⟨_, _, ⟨_, rfl⟩ | ⟨_, _, h | ⟨_, _, _, rfl⟩⟩⟩⟩⟩⟩⟩
    case inr.inr.inr.inr.inr.inr.inl =>
      obtain ⟨b, _, _, hb, rfl⟩ := fetchList_error h; simp [StopOk, reads, hb]
    all_goals simp_all [StopOk, raises, reads, Space.boundsDetail]
  case extdec =>
    simp only [cmdExtdec, bind_error, need_error, require_error, pure_ne_error, and_false, exists_false, or_false] at h
    rcases h with ⟨_, rfl⟩ | ⟨_, _, ⟨_, rfl⟩ | ⟨_, _, ⟨_, rfl⟩ | ⟨_, _, h⟩⟩⟩
    case inr.inr.inr => obtain ⟨b, _, _, hb, rfl⟩ := fetchList_error h; simp [StopOk, reads, hb]
    all_goals simp [StopOk, raises, Space.boundsDetail]
  case nudge =>
    simp only [cmdNudge, bind_error, need_error, require_error, fetch_error] at h
    rcases h with ⟨_, rfl⟩ | ⟨_, _, ⟨_, rfl⟩ | ⟨_, _, ⟨_, rfl⟩ | ⟨_, _, ⟨hb, rfl⟩ | ⟨_, _, ⟨_, rfl⟩ | ⟨_, _, h⟩⟩⟩⟩⟩
    case inr.inr.inr.inr.inr => split at h <;> exact absurd h pure_ne_error
    all_goals simp_all [StopOk, raises, reads, Space.boundsDetail]
  case hash =>
    simp only [cmdHash, bind_error, need_error, pure_ne_error, and_false, exists_false, or_false] at h
    rcases h with ⟨_, rfl⟩ | ⟨_, _, h⟩
    · simp [StopOk, raises, Space.boundsDetail]
    · obtain ⟨b, _, _, hb, rfl⟩ := fetchList_error h; simp [StopOk, reads, hb]
  case permfwdBit =>
    simp only [cmdPermfwdBit, bind_error, pure_ne_error, and_false, exists_false, or_false] at h
    rcases h with h | ⟨_, _, h⟩
    · rcases permChecks_error h with rfl | rfl | rfl <;> simp [StopOk, raises, Space.boundsDetail]
    · obtain ⟨b, hb, rfl⟩ := permForward_error h; simp [StopOk, reads, hb]
  case permfwdIdx =>
    simp only [cmdPermfwdIdx, bind_error, pure_ne_error, and_false, exists_false, or_false] at h
    rcases h with h | ⟨_, _, h⟩
    · rcases permChecks_error h with rfl | rfl | rfl <;> simp [StopOk, raises, Space.boundsDetail]
    · obtain ⟨b, hb, rfl⟩ := permForward_error h; simp [StopOk, reads, hb]
  case perminvBit =>
    simp only [cmdPerminvBit, bind_error, pure_ne_error, and_false, exists_false, or_false] at h
    rcases h with h | ⟨_, _, h⟩
    · rcases permChecks_error h with rfl | rfl | rfl <;> simp [StopOk, raises, Space.boundsDetail]
    · obtain ⟨b, hb, rfl⟩ := permInverse_error h; simp only [StopOk, reads]; exact ⟨hb, by simp⟩
  case perminvIdx =>
    simp only [cmdPerminvIdx, bind_error, pure_ne_error, and_false, exists_false, or_false] at h
    rcases h with h | ⟨_, _, h⟩
    · rcases permChecks_error h with rfl | rfl | rfl <;> simp [StopOk, raises, Space.boundsDetail]
    · obtain ⟨b, hb, rfl⟩ := permInverse_error h; simp only [StopOk, reads]; exact ⟨hb, by simp⟩
  case permidx => rcases cmdPermidx_error h with rfl | rfl | rfl <;> simp [StopOk, raises]
  case hbest => simp [cmdHbest] at h
  case hgen =>
    simp only [cmdHgen, bind_error, require_error, pure_ne_error, and_false, exists_false, or_false] at h
    rcases h with ⟨_, rfl⟩ | ⟨_, _, _, rfl⟩ <;> simp [StopOk, raises]
  case hcol =>
    simp only [cmdHcol, needMatrix, bind_error, require_error, pure_ne_error, and_false, exists_false, or_false] at h
    rcases h with ⟨_, rfl⟩ | ⟨_, _, _, rfl⟩ <;> simp [StopOk, raises]
  case hrow =>
    simp only [cmdHrow, needMatrix, bind_error, require_error, need_error, pure_ne_error, and_false, exists_false,
      or_false] at h
    rcases h with ⟨_, rfl⟩ | ⟨_, _, ⟨_, rfl⟩ | ⟨_, _, _, rfl⟩⟩ <;> simp [StopOk, raises, Space.boundsDetail]
  case hmul =>
    simp only [cmdHmul, needMatrix, bind_error, require_error, need_error, pure_ne_error, and_false, exists_false,
      or_false] at h
    rcases h with ⟨_, rfl⟩ | ⟨_, _, ⟨_, rfl⟩ | ⟨_, _, h⟩⟩
    · simp [StopOk, raises]
    · simp [StopOk, raises, Space.boundsDetail]
    · obtain ⟨b, _, _, hb, rfl⟩ := fetchList_error h; simp [StopOk, reads, hb]
  case hadd => simp [cmdHadd] at h
  case hfind =>
    simp only [cmdHfind, needMatrix, bind_error, require_error, findColumn_error, pure_ne_error, and_false,
      exists_false, or_false] at h
    rcases h with ⟨_, rfl⟩ | ⟨_, _, _, rfl⟩ <;> simp [StopOk, raises]
  case hsyn =>
    simp only [cmdHsyn, needMatrix, bind_error, require_error, need_error, pure_ne_error, and_false, exists_false,
      or_false] at h
    rcases h with ⟨_, rfl⟩ | ⟨_, _, ⟨_, rfl⟩ | ⟨_, _, h⟩⟩
    · simp [StopOk, raises]
    · simp [StopOk, raises, Space.boundsDetail]
    · obtain ⟨b, hb, rfl⟩ := blockBits_error h; simp [StopOk, reads, hb]
  case hembed =>
    simp only [cmdHembed, needMatrix, needUsefulCode, bind_error, require_error, need_error, pure_ne_error, and_false,
      exists_false, or_false] at h
    rcases h with ⟨_, rfl⟩ | ⟨_, _, ⟨_, rfl⟩ | ⟨_, _, ⟨_, rfl⟩ | ⟨_, _, ⟨_, rfl⟩ | ⟨_, _, ⟨_, rfl⟩ |
      ⟨_, _, ⟨_, rfl⟩ | ⟨_, _, h | ⟨_, _, ⟨_, rfl⟩ | ⟨_, _, h⟩⟩⟩⟩⟩⟩⟩⟩
    case inr.inr.inr.inr.inr.inr.inl => obtain ⟨b, _, _, hb, rfl⟩ := fetchList_error h; simp [StopOk, reads, hb]
    case inr.inr.inr.inr.inr.inr.inr.inr =>
      rcases embedBlocks_error h with ⟨b, hb, rfl⟩ | ⟨b, hb, rfl⟩ <;> simp [StopOk, reads, hb]
    all_goals simp [StopOk, raises, Space.boundsDetail]
  case hextract =>
    simp only [cmdHextract, needMatrix, needUsefulCode, bind_error, require_error, need_error, pure_ne_error, and_false,
      exists_false, or_false] at h
    rcases h with ⟨_, rfl⟩ | ⟨_, _, ⟨_, rfl⟩ | ⟨_, _, ⟨_, rfl⟩ | ⟨_, _, ⟨_, rfl⟩ | ⟨_, _, h⟩⟩⟩⟩
    case inr.inr.inr.inr => obtain ⟨b, hb, rfl⟩ := extractBlocks_error h; simp [StopOk, reads, hb]
    all_goals simp [StopOk, raises, Space.boundsDetail]

end Sys2Proof.Machine
end

