-- ==== Sys2Proof/Laws/Codec.lean ====
section
/-! SUPPORT. Bytes as bits and back (41_codec R150, R153), and the length of a shortest binary (R155). -/

namespace Sys2Proof.Machine

@[simp] theorem bits8_length (y : Byte) : (bits8 y).length = 8 := rfl

theorem bits8_getElem? (y : Byte) {j : Nat} (h : j < 8) : (bits8 y)[j]? = some (y.getLsbD (7 - j)) := by
  interval_cases j <;> rfl

@[simp] theorem flatMap_bits8_length (ys : List Byte) : (ys.flatMap bits8).length = 8 * ys.length := by
  induction ys with
  | nil => rfl
  | cons y ys ih => simp only [List.flatMap_cons, List.length_append, bits8_length, ih, List.length_cons]; omega

/-- Bit `j` of byte `k` stands at `8k + j`, most significant first. -/
theorem flatMap_bits8_getElem? : ∀ (ys : List Byte) (k j : Nat), (h : k < ys.length) → j < 8 →
    (ys.flatMap bits8)[8 * k + j]? = some (ys[k].getLsbD (7 - j)) := by
  intro ys
  induction ys with
  | nil => intro k j h; simp at h
  | cons y ys ih =>
    intro k j h hj
    cases k with
    | zero =>
      rw [List.flatMap_cons, List.getElem?_append_left (by simp; omega)]
      simpa using bits8_getElem? y hj
    | succ k =>
      rw [List.flatMap_cons, List.getElem?_append_right (by simp; omega), bits8_length,
        show 8 * (k + 1) + j - 8 = 8 * k + j by omega]
      simpa using ih k j (by simpa using h) hj

theorem bits8_byte8 (b0 b1 b2 b3 b4 b5 b6 b7 : Bool) :
    bits8 (byte8 b0 b1 b2 b3 b4 b5 b6 b7) = [b0, b1, b2, b3, b4, b5, b6, b7] := by
  cases b0 <;> cases b1 <;> cases b2 <;> cases b3 <;> cases b4 <;> cases b5 <;> cases b6 <;> cases b7 <;> rfl

theorem byte8_bits8 (y : Byte) : byte8 (y.getLsbD 7) (y.getLsbD 6) (y.getLsbD 5) (y.getLsbD 4) (y.getLsbD 3)
    (y.getLsbD 2) (y.getLsbD 1) (y.getLsbD 0) = y := by
  revert y; decide

/-- Packing undoes expansion (41_codec R150). -/
theorem packBytes_flatMap_bits8 (ys : List Byte) : packBytes (ys.flatMap bits8) = ys := by
  induction ys with
  | nil => rfl
  | cons y ys ih =>
    rw [List.flatMap_cons]
    simp only [bits8, List.cons_append, List.nil_append, packBytes, byte8_bits8]
    exact congrArg _ ih

/-- Whole groups of eight bits are the expansion of what they pack into. -/
theorem flatMap_bits8_packBytes : ∀ (n : Nat) (bits : List Bool), bits.length = 8 * n →
    (packBytes bits).flatMap bits8 = bits ∧ (packBytes bits).length = n := by
  intro n
  induction n with
  | zero =>
    intro bits h
    obtain rfl := List.eq_nil_of_length_eq_zero h
    exact ⟨rfl, rfl⟩
  | succ n ih =>
    intro bits h
    match bits, h with
    | b0 :: b1 :: b2 :: b3 :: b4 :: b5 :: b6 :: b7 :: rest, h =>
      obtain ⟨h1, h2⟩ := ih rest (by simp only [List.length_cons] at h; omega)
      simp only [packBytes, List.flatMap_cons, h1, bits8_byte8, List.length_cons, h2]
      exact ⟨rfl, trivial⟩

/-- The loop of `mlen` from a power of two that does not exceed what is left to exceed. -/
theorem mlenLoop_spec (n : Nat) : ∀ (fuel k : Nat), n < 2 ^ (k + fuel) → (k = 0 ∨ 2 ^ (k - 1) ≤ n) →
    n < 2 ^ mlenLoop n fuel (2 ^ k) k ∧
      (mlenLoop n fuel (2 ^ k) k = 0 ∨ 2 ^ (mlenLoop n fuel (2 ^ k) k - 1) ≤ n) := by
  intro fuel
  induction fuel with
  | zero => intro k h hk; simpa [mlenLoop] using ⟨h, hk⟩
  | succ fuel ih =>
    intro k h hk
    simp only [mlenLoop]
    split
    · rename_i hp
      have hs : 2 * 2 ^ k = 2 ^ (k + 1) := by rw [Nat.pow_succ]; omega
      rw [hs]
      exact ih (k + 1) (by rw [show k + 1 + fuel = k + (fuel + 1) by omega]; exact h) (.inr (by simpa using hp))
    · rename_i hp
      exact ⟨by omega, hk⟩

/-- `mlen(n)` is the smallest `k` with `n < 2^k` (41_codec R155). -/
theorem mlen_spec {n : Nat} (h : n < 2 ^ 32) : n < 2 ^ mlen n ∧ (mlen n = 0 ∨ 2 ^ (mlen n - 1) ≤ n) :=
  mlenLoop_spec n 33 0 (lt_of_lt_of_le h (Nat.pow_le_pow_right (by omega) (by omega))) (.inl rfl)

/-- The two bounds fix the length. -/
theorem length_unique {n k l : Nat} (h1 : n < 2 ^ k) (h2 : k = 0 ∨ 2 ^ (k - 1) ≤ n) (h3 : n < 2 ^ l)
    (h4 : l = 0 ∨ 2 ^ (l - 1) ≤ n) : k = l := by
  rcases Nat.lt_trichotomy k l with h | h | h
  · have := Nat.pow_le_pow_right (n := 2) (by omega) (show k ≤ l - 1 by omega); omega
  · exact h
  · have := Nat.pow_le_pow_right (n := 2) (by omega) (show l ≤ k - 1 by omega); omega

@[simp] theorem bitsMsbFirst_length (n k : Nat) : (bitsMsbFirst n k).length = k := by simp [bitsMsbFirst]

/-- A list the memory holds on a range is the only one of its length. -/
theorem Mem.holds_unique {α : Type} {m : Mem α} {a : Nat} {vs ws : List α} (h1 : m.Holds a vs) (h2 : m.Holds a ws)
    (h : vs.length = ws.length) : vs = ws :=
  List.ext_getElem h fun k hk hk' => by simpa [h1 k hk] using h2 k hk'

end Sys2Proof.Machine
end

