-- ==== Sys2Proof/Laws/Decode.lean ====
section
/-! SUPPORT. Words built from fields, bit by bit, and the opcode map read as a table (30_encoding R100, R102). -/

namespace Sys2Proof

theorem getLsbD_placeAt {n : Nat} (lo : Nat) (x : BitVec n) (i : Nat) :
    (placeAt lo x).getLsbD i = (decide (i < 32) && decide (lo ≤ i) && x.getLsbD (i - lo)) := by
  simp only [placeAt, BitVec.getLsbD_shiftLeft, BitVec.getLsbD_setWidth]
  by_cases h1 : i < 32
  · by_cases h2 : i < lo
    · simp [h1, h2, Nat.not_le.mpr h2]
    · simp [h1, h2, Nat.not_lt.mp h2, show i - lo < 32 by omega]
  · simp [h1]

theorem getLsbD_ofBool (b : Bool) (i : Nat) : (BitVec.ofBool b).getLsbD i = (decide (i = 0) && b) := by
  cases b <;> simp

/-- A word built from fields has those fields. -/
theorem fieldsOf_wordOf (f : Fields) : fieldsOf (wordOf f) = f := by
  obtain ⟨opc, sp, rsv⟩ := f
  simp only [fieldsOf, Fields.mk.injEq]
  refine ⟨?_, ?_, ?_⟩
  · apply BitVec.eq_of_getLsbD_eq
    intro i hi
    interval_cases i <;> simp [wordOf, getLsbD_placeAt, -BitVec.getLsbD_eq_getElem, BitVec.getLsbD_extractLsb']
  · simp [wordOf, getLsbD_placeAt, -BitVec.getLsbD_eq_getElem]
  · apply BitVec.eq_of_getLsbD_eq
    intro i hi
    interval_cases i <;>
      simp [wordOf, getLsbD_placeAt, -BitVec.getLsbD_eq_getElem, BitVec.getLsbD_extractLsb']

/-- A word is built from its fields: no bit is outside them. -/
theorem wordOf_fieldsOf (w : Word) : wordOf (fieldsOf w) = w := by
  apply BitVec.eq_of_getLsbD_eq
  intro i hi
  interval_cases i <;> simp [wordOf, getLsbD_placeAt, fieldsOf, hi, -BitVec.getLsbD_eq_getElem]

/-- The opcode map has one row for each command. -/
theorem instrAt_some {opc : BitVec 8} {sp : Bool} {i : Instr} : instrAt opc sp = some i ↔ opc = opcodeOf i ∧ sp = spOf i := by
  constructor
  · intro h
    unfold instrAt at h
    split at h <;> cases h <;> refine ⟨BitVec.eq_of_toNat_eq ?_, ?_⟩ <;> first | rfl | assumption
  · rintro ⟨rfl, rfl⟩
    cases i <;> rfl

end Sys2Proof
end

