-- ==== Sys2Proof/Laws/Hmat.lean ====
section
/-! SUPPORT. The Hamming matrix: the column search, and the syndrome as a GF(2) product (44_hamming_matrix R222, R232). -/

namespace Sys2Proof.Machine

/-- The scan finds the one column whose value is the target. -/
theorem findFrom_eq (target : Nat) : ∀ n c : Nat,
    findFrom target c n = if c + 1 ≤ target ∧ target ≤ c + n then some (target - 1) else none := by
  intro n
  induction n with
  | zero => intro c; simp only [findFrom]; rw [if_neg (by omega)]
  | succ n ih =>
    intro c
    simp only [findFrom, ih]
    split
    · rw [if_pos (by omega)]; congr 1; omega
    · by_cases h : c + 1 + 1 ≤ target ∧ target ≤ c + 1 + n
      · rw [if_pos h, if_pos (by omega)]
      · rw [if_neg h, if_neg (by omega)]

/-- One more column in the sum of a syndrome's element. -/
theorem gf2Product_succ (v : Nat → Bool) (C t : Nat) :
    gf2Product v (C + 1) t = (gf2Product v C t ^^ ((C + 1).testBit t && v C)) := by
  simp only [gf2Product, List.range_succ, List.filter_append, List.length_append]
  generalize ((List.range C).filter fun c => (c + 1).testBit t && v c).length = n
  cases h : (C + 1).testBit t && v C
  · simp [h]
  · have h1 : [C].filter (fun c => (c + 1).testBit t && v c) = [C] := by simpa [List.filter_cons] using h
    rw [h1, List.length_singleton]
    rcases Nat.mod_two_eq_zero_or_one n with hn | hn <;> simp [Nat.add_mod, hn]

/-- The sum depends on the columns below `C` only. -/
theorem gf2Product_congr {v w : Nat → Bool} {C t : Nat} (h : ∀ c, c < C → v c = w c) :
    gf2Product v C t = gf2Product w C t := by
  induction C with
  | zero => rfl
  | succ C ih => rw [gf2Product_succ, gf2Product_succ, ih fun c hc => h c (by omega), h C (by omega)]

theorem synFrom_append (v w : List Bool) : ∀ c : Nat, synFrom c (v ++ w) = synFrom c v ^^^ synFrom (c + v.length) w := by
  induction v with
  | nil => intro c; simp [synFrom]
  | cons b v ih =>
    intro c
    simp only [List.cons_append, synFrom, ih, List.length_cons, Nat.xor_assoc]
    congr 3; omega

/-- A syndrome of columns below `2^r` is an `r`-bit value. -/
theorem synFrom_lt {r : Nat} : ∀ {v : List Bool} {c : Nat}, c + v.length < 2 ^ r → synFrom c v < 2 ^ r := by
  intro v
  induction v with
  | nil => intro c h; simp only [synFrom]; exact Nat.two_pow_pos r
  | cons b v ih =>
    intro c h
    simp only [List.length_cons] at h
    simp only [synFrom]
    apply Nat.xor_lt_two_pow
    · split <;> omega
    · exact ih (by omega)

theorem syn_lt {r : Nat} {v : List Bool} (h : v.length < 2 ^ r) : syn v < 2 ^ r := synFrom_lt (by omega)

theorem packBits_testBit : ∀ (m : List Bool) (t : Nat), (packBits m).testBit t = m.getD t false := by
  intro m
  induction m with
  | nil => intro t; simp [packBits]
  | cons b m ih =>
    intro t
    cases t with
    | zero => cases b <;> simp [packBits, Nat.testBit_zero] 
    | succ t =>
      rw [Nat.testBit_succ]
      have : (packBits (b :: m)) / 2 = packBits m := by cases b <;> simp only [packBits, Bool.toNat_true, Bool.toNat_false] <;> omega
      rw [this, ih]; simp

theorem packBits_lt : ∀ (m : List Bool), packBits m < 2 ^ m.length := by
  intro m
  induction m with
  | nil => simp [packBits]
  | cons b m ih =>
    rw [List.length_cons, Nat.pow_succ]
    cases b <;> simp only [packBits, Bool.toNat_true, Bool.toNat_false] <;> omega

/-- A result that fits a register reads bit by bit as the integer. -/
theorem result_getLsbD {n k : Nat} (hk : k < 32) : (result n).getLsbD k = n.testBit k := by
  rw [result, BitVec.getLsbD_ofNat, decide_eq_true hk, Bool.true_and]

end Sys2Proof.Machine
end

