-- ==== Sys2Proof/Laws/PerInstr.lean ====
section
/-! SUPPORT. The family of per-instruction statements: the command word of a command decodes to it (30_encoding R102). -/

namespace Sys2Proof.Laws.RoundTrip

/-- The command's word is well formed and decodes to the command. -/
def Statement (i : Instr) : Prop := (fieldsOf (encode i)).WellFormed ∧ decode (encode i) = .ok i

theorem nop : Statement .nop := by unfold Statement; decide

theorem b2bits : Statement .b2bits := by unfold Statement; decide

theorem bits2b : Statement .bits2b := by unfold Statement; decide

theorem minbits : Statement .minbits := by unfold Statement; decide

theorem extenc : Statement .extenc := by unfold Statement; decide

theorem extdec : Statement .extdec := by unfold Statement; decide

theorem nudge : Statement .nudge := by unfold Statement; decide

theorem hash : Statement .hash := by unfold Statement; decide

theorem permfwdBit : Statement .permfwdBit := by unfold Statement; decide

theorem permfwdIdx : Statement .permfwdIdx := by unfold Statement; decide

theorem perminvBit : Statement .perminvBit := by unfold Statement; decide

theorem perminvIdx : Statement .perminvIdx := by unfold Statement; decide

theorem permidx : Statement .permidx := by unfold Statement; decide

theorem hbest : Statement .hbest := by unfold Statement; decide

theorem hgen : Statement .hgen := by unfold Statement; decide

theorem hcol : Statement .hcol := by unfold Statement; decide

theorem hrow : Statement .hrow := by unfold Statement; decide

theorem hmul : Statement .hmul := by unfold Statement; decide

theorem hadd : Statement .hadd := by unfold Statement; decide

theorem hfind : Statement .hfind := by unfold Statement; decide

theorem hsyn : Statement .hsyn := by unfold Statement; decide

theorem hembed : Statement .hembed := by unfold Statement; decide

theorem hextract : Statement .hextract := by unfold Statement; decide

end Sys2Proof.Laws.RoundTrip
end

