-- ==== Sys2Proof/Laws/Perm.lean ====
section
/-! SUPPORT. Swaps of memory cells as swaps of a sequence, and the draws of a permutation by position
(43_permutation R195 to R197). -/

namespace Sys2Proof.Machine

variable {α : Type}

@[simp] theorem swapAt_length (l : List α) (i j : Nat) : (swapAt l i j).length = l.length := by
  unfold swapAt; split <;> simp

theorem swapAt_getElem? {l : List α} {i j : Nat} (hi : i < l.length) (hj : j < l.length) (k : Nat) :
    (swapAt l i j)[k]? = if k = j then l[i]? else if k = i then l[j]? else l[k]? := by
  unfold swapAt
  rw [List.getElem?_eq_getElem hi, List.getElem?_eq_getElem hj]
  by_cases e1 : j = k
  · subst e1; simp [hj]
  · by_cases e2 : i = k
    · subst e2; simp [e1, Ne.symm e1, hi]
    · simp [e1, e2, Ne.symm e1, Ne.symm e2]

/-- The draws listed from the highest position down are those of a function of the position. -/
theorem drawsDown_eq {g : Config.Prng} {start : Nat} {st j : Nat → Nat} : ∀ k : Nat,
    (∀ i, start ≤ i → i < start + k → j i = start + (prngNext g (st (i + 1))).1 % (i - start + 1) ∧
      st i = (prngNext g (st (i + 1))).2) →
    drawsDown g start k (st (start + k)) = ((List.range k).reverse.map fun q => j (start + q), st start) := by
  intro k
  induction k with
  | zero => intro _; rfl
  | succ k ih =>
    intro h
    obtain ⟨h1, h2⟩ := h (start + k) (by omega) (by omega)
    rw [show start + k + 1 = start + (k + 1) by omega] at h1 h2
    have hd : drawPerm g start (start + k) (st (start + (k + 1))) = (j (start + k), st (start + k)) := by
      rw [drawPerm, h1, ← h2]
    simp only [drawsDown, hd, ih fun i a b => h i a (by omega), List.range_succ, List.reverse_append, List.reverse_cons,
      List.reverse_nil, List.nil_append, List.cons_append, List.map_cons]

/-- The draw of a position lies between the start and the position. -/
theorem draw_mem {s : State} {n start : Nat} {st j : Nat → Nat} (h : s.DrawsFrom n start st j) {i : Nat}
    (h1 : start ≤ i) (h2 : i < n) : start ≤ j i ∧ j i ≤ i := by
  have := (h.2 i h1 h2).1
  have := Nat.mod_lt (prngNext s.cfg.prng (st (i + 1))).1 (show 0 < i - start + 1 by omega)
  omega

/-- The draw sequence is the function of the position, listed down. -/
theorem drawSequence_eq {s : State} {n start : Nat} {st j : Nat → Nat} (h : s.DrawsFrom n start st j)
    (hn : start ≤ n) :
    drawSequence s n start = ((List.range (n - start)).reverse.map fun q => j (start + q), st start) := by
  have := drawsDown_eq (g := s.cfg.prng) (st := st) (j := j) (n - start) fun i a b => h.2 i a (by omega)
  rwa [show start + (n - start) = n by omega, h.1] at this

/-- One swap of cells is one swap of the sequence they hold. -/
theorem swapCells_holdsFrom {sp : Space} {m : Mem α} {base start i j : Nat} {l : List α}
    (h : m.HoldsFrom base start l) (hi1 : start ≤ i) (hi : i < l.length) (hj1 : start ≤ j) (hj : j < l.length) :
    ∃ m', swapCells sp m (base + i) (base + j) = .ok m' ∧ m'.HoldsFrom base start (swapAt l i j) ∧
      ∀ b, b ≠ base + i → b ≠ base + j → m'.read b = m.read b := by
  refine ⟨_, swapCells_ok.mpr ⟨_, _, h i hi1 hi, h j hj1 hj, rfl⟩, ?_, ?_⟩
  · intro k hk1 hk
    rw [swapAt_length] at hk
    rw [← List.getElem?_eq_getElem, swapAt_getElem? hi hj, Mem.read_write, Mem.read_write]
    by_cases e1 : k = j
    · rw [if_pos (by omega), if_pos e1, List.getElem?_eq_getElem hi]
    · rw [if_neg (by omega), if_neg e1]
      by_cases e2 : k = i
      · rw [if_pos (by omega), if_pos e2, List.getElem?_eq_getElem hj]
      · rw [if_neg (by omega), if_neg e2, h k hk1 hk, List.getElem?_eq_getElem hk]
  · intro b h1 h2; rw [Mem.read_write_ne _ _ h2, Mem.read_write_ne _ _ h1]

/-- A swap made twice restores every cell. -/
theorem swapCells_twice {sp : Space} {m m1 m2 : Mem α} {p q : Nat} (h : swapCells sp m p q = .ok m1)
    (h2 : ∀ b, m2.read b = m1.read b) :
    ∃ m3, swapCells sp m2 p q = .ok m3 ∧ ∀ b, m3.read b = m.read b := by
  obtain ⟨x, y, hx, hy, rfl⟩ := swapCells_ok.mp h
  refine ⟨_, swapCells_ok.mpr ⟨if p = q then x else y, x, ?_, ?_, rfl⟩, ?_⟩
  · rw [h2, Mem.read_write]; split
    · rfl
    · simp
  · rw [h2]; simp
  · intro b
    rw [Mem.read_write, Mem.read_write, h2, Mem.read_write, Mem.read_write]
    by_cases e1 : b = q
    · subst e1; rw [if_pos rfl, hy]; split
      · rename_i e; subst e; rw [← hx, hy]
      · rfl
    · rw [if_neg e1]
      by_cases e2 : b = p
      · subst e2; simp [hx]
      · simp [e1, e2]

theorem swapsUp_append {sp : Space} {base : Nat} (k : List Nat) : ∀ (js : List Nat) (i : Nat) (m : Mem α),
    swapsUp sp base i (js ++ k) m = (swapsUp sp base i js m >>= fun m' => swapsUp sp base (i + js.length) k m') := by
  intro js
  induction js with
  | nil => intro i m; rfl
  | cons j js ih =>
    intro i m
    simp only [List.cons_append, swapsUp]
    cases swapCells sp m (base + i) (base + j) with
    | error e => rfl
    | ok m' => simp only [ih, List.length_cons, Nat.add_assoc, Nat.add_comm 1]

end Sys2Proof.Machine
end

