-- ==== Sys2Proof/Laws/Unwritten.lean ====
section
/-! SUPPORT. Where the shared reads stop when a cell of their range was never written since reset (10_state R55). -/

namespace Sys2Proof.Machine

variable {α : Type}

/-- The first unwritten cell of a range that does not begin with it is the first of the rest. -/
theorem Mem.FirstUnwritten.tail {m : Mem α} {a n k : Nat} (h : m.FirstUnwritten a (n + 1) (k + 1)) :
    m.FirstUnwritten (a + 1) n k :=
  ⟨by have := h.1; omega, by have := h.2.1; rwa [Nat.add_right_comm],
    fun j hj => by have := h.2.2 (j + 1) (by omega); rwa [Nat.add_right_comm]⟩

/-- The first cell of the range holds a value where a later one is the first that does not. -/
theorem Mem.FirstUnwritten.head {m : Mem α} {a n k : Nat} (h : m.FirstUnwritten a n (k + 1)) : ∃ v, m.read a = some v :=
  Option.ne_none_iff_exists'.mp (h.2.2 0 (Nat.succ_pos k))

/-- A range read stops at the first unwritten cell of the range. -/
theorem fetchList_unwritten {sp : Space} {m : Mem α} : ∀ {n a k : Nat}, m.FirstUnwritten a n k →
    fetchList sp m a n = .error (.uninit sp (a + k)) := by
  intro n
  induction n with
  | zero => intro a k h; exact absurd h.1 (Nat.not_lt_zero k)
  | succ n ih =>
    intro a k h
    cases k with
    | zero =>
      have h0 : fetch sp m a = .error (.uninit sp a) := fetch_error.mpr ⟨h.2.1, rfl⟩
      simp only [fetchList, h0, Nat.add_zero]
    | succ k =>
      obtain ⟨v, hv⟩ := h.head
      simp only [fetchList, fetch_ok.mpr hv, ih h.tail, Nat.add_assoc, Nat.add_comm 1 k]

/-- A filled read stops at the first read that stops, where that one lies below the limit. -/
theorem fetchFilled_stop {get : Nat → Cmd Bool} {lim : Nat} {e : Stop} : ∀ {n k j : Nat}, j < n → k + j < lim →
    (∀ c, c < j → ∃ v, get (k + c) = .ok v) → get (k + j) = .error e → fetchFilled get lim k n = .error e := by
  intro n
  induction n with
  | zero => intro k j hj; exact absurd hj (Nat.not_lt_zero j)
  | succ n ih =>
    intro k j hj hl hw he
    cases j with
    | zero =>
      rw [Nat.add_zero] at hl he
      simp only [fetchFilled, if_pos hl, he]
    | succ j =>
      obtain ⟨v, hv⟩ := hw 0 (Nat.succ_pos j)
      rw [Nat.add_zero] at hv
      have hr := ih (k := k + 1) (j := j) (by omega) (by omega)
        (fun c hc => by have := hw (c + 1) (by omega); rwa [Nat.add_right_comm])
        (by rwa [Nat.add_right_comm])
      simp only [fetchFilled, if_pos (show k < lim by omega), hv, hr]

/-- The pixel LSBs of a block stop at the first unwritten pixel of the block, where that lies below the dimension. -/
theorem blockBits_unwritten {m : Mem Word} {dim o C k : Nat} (h : m.FirstUnwritten o C k) (hd : o + k < dim) :
    blockBits m dim o C = .error (.uninit .pix (o + k)) := by
  refine fetchFilled_stop h.1 hd (fun c hc => ?_) (fetchLsb_error.mpr ⟨h.2.1, rfl⟩)
  obtain ⟨x, hx⟩ := Option.ne_none_iff_exists'.mp (h.2.2 c hc)
  exact ⟨_, fetchLsb_ok.mpr ⟨x, hx, rfl⟩⟩

/-- A filled read whose reads below the limit all succeed succeeds. -/
theorem fetchFilled_total {get : Nat → Cmd Bool} {lim k n : Nat}
    (h : ∀ c, c < n → k + c < lim → ∃ v, get (k + c) = .ok v) : ∃ vs, fetchFilled get lim k n = .ok vs := by
  cases hf : fetchFilled get lim k n with
  | ok vs => exact ⟨vs, rfl⟩
  | error e =>
    obtain ⟨q, h1, h2, h3, hq⟩ := fetchFilled_error hf
    obtain ⟨c, rfl⟩ := Nat.exists_eq_add_of_le h1
    obtain ⟨v, hv⟩ := h c (by omega) h3
    rw [hv] at hq; cases hq

/-- The pixel LSBs of a block whose pixels are written are all read. -/
theorem blockBits_total {m : Mem Word} {dim o C : Nat} (h : ∀ c, c < C → m.read (o + c) ≠ none) :
    ∃ v, blockBits m dim o C = .ok v := by
  refine fetchFilled_total fun c hc _ => ?_
  obtain ⟨x, hx⟩ := Option.ne_none_iff_exists'.mp (h c hc)
  exact ⟨_, fetchLsb_ok.mpr ⟨x, hx, rfl⟩⟩

/-- The block reads of HEXTRACT stop at the first unwritten pixel of the blocks, where that lies below the dimension. -/
theorem extractBlocks_unwritten {s : State} : ∀ {n i k : Nat}, s.pix.FirstUnwritten (s.blockStart i) (n * s.cols) k →
    s.blockStart i + k < s.a3 → extractBlocks s i n = .error (.uninit .pix (s.blockStart i + k)) := by
  intro n
  induction n with
  | zero => intro i k h; have := h.1; omega
  | succ n ih =>
    intro i k h hd
    have hs : s.blockStart (i + 1) = s.blockStart i + s.cols := by simp only [State.blockStart, Nat.succ_mul]; omega
    have hk := h.1
    rw [Nat.succ_mul] at hk
    by_cases hc : k < s.cols
    · simp only [extractBlocks, extractBlock, blockBits_unwritten ⟨hc, h.2⟩ hd, error_bind]
    · obtain ⟨v, hv⟩ := blockBits_total (dim := s.a3) fun c (hc : c < s.cols) => h.2.2 c (by omega)
      have hr := ih (i := i + 1) (k := k - s.cols)
        ⟨by omega, by rw [hs, show s.blockStart i + s.cols + (k - s.cols) = s.blockStart i + k by omega]; exact h.2.1,
          fun j hj => by rw [hs, Nat.add_assoc]; exact h.2.2 _ (by omega)⟩
        (by omega)
      simp only [extractBlocks, extractBlock, hv, ok_bind, pure_eq_ok, hr, hs,
        show s.blockStart i + s.cols + (k - s.cols) = s.blockStart i + k by omega]

/-- A block whose pixels are written and whose message bits are written is embedded: the pixel to change is one of the
block's, because the syndrome and the message are below `2^rows` (45_syndrome_embed R264). -/
theorem embedBlock_total {s : State} {i : Nat} (hc : s.cols = 2 ^ s.rows - 1)
    (hp : ∀ c, c < s.cols → s.pix.read (s.blockStart i + c) ≠ none)
    (hm : ∀ q, i * s.rows ≤ q → q < i * s.rows + s.rows → q < s.a1 → s.bit.read (s.a0 + q) ≠ none) :
    ∃ t c, embedBlock s i = .ok (t, c) := by
  obtain ⟨v, hv⟩ := blockBits_total (dim := s.a3) hp
  obtain ⟨m, hb⟩ : ∃ m, messageBits s i = .ok m := by
    refine fetchFilled_total fun c h1 h2 => ?_
    obtain ⟨x, hx⟩ := Option.ne_none_iff_exists'.mp (hm _ (Nat.le_add_right ..) (by omega) h2)
    exact ⟨x, fetch_ok.mpr hx⟩
  by_cases h0 : syn v ^^^ packBits m = 0
  · exact ⟨s, 0, embedBlock_ok.mpr ⟨v, m, hv, hb, .inl ⟨h0, rfl, rfl⟩⟩⟩
  · have h2 := Nat.two_pow_pos s.rows
    have hs : syn v < 2 ^ s.rows := syn_lt (by have := (blockBits_ok.mp hv).1; omega)
    have hl : packBits m < 2 ^ s.rows := by
      have := packBits_lt m
      rwa [(fetchFilled_ok.mp hb).1] at this
    have ht := Nat.xor_lt_two_pow hs hl
    obtain ⟨x, hx⟩ := Option.ne_none_iff_exists'.mp (hp ((syn v ^^^ packBits m) - 1) (by omega))
    exact ⟨_, 1, embedBlock_ok.mpr ⟨v, m, hv, hb, .inr ⟨h0, rfl, x, hx, rfl⟩⟩⟩

/-- Embedding stops at the first unwritten payload bit, where the pixels of all blocks are written. -/
theorem embedBlocks_unwritten {k : Nat} : ∀ {n i : Nat} {s : State}, s.cols = 2 ^ s.rows - 1 → i * s.rows ≤ k →
    k < (i + n) * s.rows → s.bit.FirstUnwritten s.a0 s.a1 k →
    (∀ c, i * s.cols ≤ c → c < (i + n) * s.cols → s.pix.read (s.a2 + c) ≠ none) →
    embedBlocks i n s = .error (.uninit .bit (s.a0 + k)) := by
  intro n
  induction n with
  | zero => intro i s _ h1 h2; rw [Nat.add_zero] at h2; omega
  | succ n ih =>
    intro i s hc h1 h2 h hp
    have hle : i * s.cols + s.cols ≤ (i + (n + 1)) * s.cols := by
      rw [← Nat.succ_mul]; exact Nat.mul_le_mul_right _ (by omega)
    have hpi : ∀ c, c < s.cols → s.pix.read (s.blockStart i + c) ≠ none := fun c hc => by
      rw [State.blockStart, Nat.add_assoc]; exact hp _ (by omega) (by omega)
    by_cases hk : k < i * s.rows + s.rows
    · obtain ⟨v, hv⟩ := blockBits_total (dim := s.a3) hpi
      obtain ⟨j, rfl⟩ := Nat.exists_eq_add_of_le h1
      have hm : messageBits s i = .error (.uninit .bit (s.a0 + (i * s.rows + j))) :=
        fetchFilled_stop (by omega) h.1
          (fun c hc => by
            obtain ⟨x, hx⟩ := Option.ne_none_iff_exists'.mp (h.2.2 (i * s.rows + c) (by omega))
            exact ⟨x, fetch_ok.mpr hx⟩)
          (fetch_error.mpr ⟨h.2.1, rfl⟩)
      simp only [embedBlocks, embedBlock, hv, hm, ok_bind, error_bind]
    · obtain ⟨t, c, ht⟩ := embedBlock_total hc hpi fun q h3 h4 h5 => h.2.2 q (by omega)
      have hu := fun k => (embedBlock_unlisted (k := k) ht).2
      obtain ⟨pm, ns, dc, rfl⟩ := embedBlock_frame ht
      have hr := ih (i := i + 1) (s := { s with pix := pm, nstate := ns, drawCount := dc }) hc
        (by rw [Nat.succ_mul]; exact Nat.not_lt.mp hk) (by rwa [show i + 1 + n = i + (n + 1) by omega]) h
        (fun c h3 h4 hn => hp c (by rw [Nat.succ_mul] at h3; exact Nat.le_trans (Nat.le_add_right ..) h3)
          (by rwa [show i + 1 + n = i + (n + 1) by omega] at h4) ((hu _).mp hn))
      simp only [embedBlocks, ht, hr]
      rfl

/-- The forward swaps read the cell of every position, so they stop where one was never written. -/
theorem swapsDown_unwritten {sp : Space} {base start k : Nat} : ∀ {js : List Nat} {m : Mem α}, start ≤ k →
    k < start + js.length → m.read (base + k) = none → ∀ m', swapsDown sp base start js m ≠ .ok m' := by
  intro js
  induction js with
  | nil => intro m h1 h2; simp only [List.length_nil] at h2; omega
  | cons j js ih =>
    intro m h1 h2 hk m'
    simp only [swapsDown, List.length_cons] at h2 ⊢
    cases hs : swapCells sp m (base + (start + js.length)) (base + j) with
    | error e => simp
    | ok m1 =>
      by_cases hl : k < start + js.length
      · exact ih h1 hl ((swapCells_unlisted hs).mpr hk) m'
      · obtain ⟨x, y, hx, _⟩ := swapCells_ok.mp hs
        rw [show start + js.length = k by omega, hk] at hx
        cases hx

/-- The inverse swaps read the cell of every position, so they stop where one was never written. -/
theorem swapsUp_unwritten {sp : Space} {base k : Nat} : ∀ {js : List Nat} {i : Nat} {m : Mem α}, i ≤ k →
    k < i + js.length → m.read (base + k) = none → ∀ m', swapsUp sp base i js m ≠ .ok m' := by
  intro js
  induction js with
  | nil => intro i m h1 h2; simp only [List.length_nil] at h2; omega
  | cons j js ih =>
    intro i m h1 h2 hk m'
    simp only [swapsUp, List.length_cons] at h2 ⊢
    cases hs : swapCells sp m (base + i) (base + j) with
    | error e => simp
    | ok m1 =>
      by_cases hl : i = k
      · obtain ⟨x, y, hx, _⟩ := swapCells_ok.mp hs
        rw [hl, hk] at hx
        cases hx
      · exact ih (by omega) (by omega) ((swapCells_unlisted hs).mpr hk) m'

end Sys2Proof.Machine
end

