-- ==== Sys2Proof/Tests/Slice0.lean ====
section
/-! SUPPORT. Tests: ill-formed terms refused, words written out from the opcode map, vectors of spec/95, and for every
statement with hypotheses a state and operands that meet them. -/

namespace Sys2Proof.Tests

open Sys2Proof Sys2Proof.Machine

/-! ### Helpers -/

/-- Consecutive cells from an address on. -/
def cells {α : Type} : Nat → List α → Mem α
  | _, [] => []
  | a, v :: vs => (a, v) :: cells (a + 1) vs

/-- Bits written as digits. -/
def bits (l : List Nat) : List Bool := l.map fun n => n = 1

/-- A state with these operands. -/
def ops (s : State) (a b c d : Word) : State := { s with arg0 := a, arg1 := b, arg2 := c, arg3 := d }

/-- A state with the matrix of `r` rows current. -/
def matrix (s : State) (r : Nat) : State :=
  { s with hrows := BitVec.ofNat 6 r, hcols := BitVec.ofNat 32 (2 ^ r - 1), hvalid := true }

/-- The reference nudge source with its state, as the vectors of spec/95 have it. -/
def nudging (s : State) (maxi ns : Word) : State :=
  { s with cfg := { s.cfg with nudgeSrc := .reference }, maxi := maxi, nseed := ns, nstate := ns }

/-- What a field of the next state is; none where the step stops. -/
def look {α : Type} (o : Host.Outcome State Fault Refusal) (f : State → α) : Option α :=
  match o with
  | .next t => some (f t)
  | .fault _ => none
  | .refused _ => none

/-- The fault a step stops with, if any. -/
def stop (o : Host.Outcome State Fault Refusal) : Option Fault :=
  match o with
  | .next _ => none
  | .fault f => some f
  | .refused _ => none

/-- One step that executes the word `w` from `s`. -/
def ran (s : State) (w : Nat) : Host.Outcome State Fault Refusal := step (s.withFetchWord 32 w)

/-- One step of the host transaction `t` from `s`. -/
def host (s : State) (t : Transaction) : Host.Outcome State Fault Refusal := step { s with inbox := [.transact t] }

/-- A state with a command pending and the window open. -/
def busy (s : State) (w : Word) : State := s.start w

/-! ### Ill-formed terms -/

theorem test_opcode_check : ¬({ opc := 0x15, sp := false, rsv := 0 } : Fields).OpcAssigned := by decide

theorem test_reserved_check : ¬({ opc := 0x10, sp := false, rsv := 1 } : Fields).RsvZero := by decide

theorem test_space_check : ¬({ opc := 0x33, sp := true, rsv := 0 } : Fields).SpLegal := by decide

theorem test_space_legal : ({ opc := 0x32, sp := true, rsv := 0 } : Fields).WellFormed := by decide

theorem test_params_default : Config.Params.default.WellFormed := by decide

theorem test_params_pixel_width :
    ¬({ Config.Params.default with pixW := 0 }).WellFormed ∧ ¬({ Config.Params.default with pixW := 33 }).WellFormed := by
  decide

theorem test_params_rows :
    ¬({ Config.Params.default with rowsMax := 1 }).WellFormed ∧
      ¬({ Config.Params.default with rowsMax := 33 }).WellFormed := by
  decide

theorem test_params_depths :
    ¬({ Config.Params.default with pixDepth := 0 }).WellFormed ∧
      ¬({ Config.Params.default with bitDepth := 39 }).WellFormed ∧
      ¬({ Config.Params.default with byteDepth := 5 }).WellFormed ∧
      ¬({ Config.Params.default with idxDepth := 0 }).WellFormed ∧
      ¬({ Config.Params.default with permMax := 0 }).WellFormed := by
  decide

theorem test_operand_count : (Stmt.command .hadd [9, 12]).wellFormed = true ∧
    (Stmt.command .hadd [9]).wellFormed = false ∧ (Stmt.command .nop []).wellFormed = true := by
  decide

/-! ### Words of the opcode map (30_encoding R102) -/

theorem test_decode_nop : decode 0x00000000 = .ok .nop := by decide

theorem test_decode_codec : decode 0x00000010 = .ok .b2bits ∧ decode 0x00000011 = .ok .bits2b ∧
    decode 0x00000012 = .ok .minbits ∧ decode 0x00000013 = .ok .extenc ∧ decode 0x00000014 = .ok .extdec := by
  decide

theorem test_decode_nudge : decode 0x00000020 = .ok .nudge := by decide

theorem test_decode_perm : decode 0x00000030 = .ok .hash ∧ decode 0x00000031 = .ok .permfwdBit ∧
    decode 0x00000131 = .ok .permfwdIdx ∧ decode 0x00000032 = .ok .perminvBit ∧ decode 0x00000132 = .ok .perminvIdx ∧
    decode 0x00000033 = .ok .permidx := by
  decide

theorem test_decode_hmat : decode 0x00000040 = .ok .hbest ∧ decode 0x00000041 = .ok .hgen ∧
    decode 0x00000042 = .ok .hcol ∧ decode 0x00000043 = .ok .hrow ∧ decode 0x00000044 = .ok .hmul ∧
    decode 0x00000045 = .ok .hadd ∧ decode 0x00000046 = .ok .hfind ∧ decode 0x00000047 = .ok .hsyn := by
  decide

theorem test_decode_hsyn : decode 0x00000050 = .ok .hembed ∧ decode 0x00000051 = .ok .hextract := by decide

/-- 95 §2.1 and 30_encoding R107: bad opcode before reserved bits. -/
theorem test_decode_illegal : decode 0x00000100 = .error .rsvdBits ∧ decode 0x00000210 = .error .rsvdBits ∧
    decode 0x000000FF = .error .badOpcode ∧ decode 0x000002FF = .error .badOpcode ∧
    decode 0x00000015 = .error .badOpcode ∧ decode 0x00000052 = .error .badOpcode := by
  decide

theorem test_table_word : decodeTableWord 32 0x131 = some .permfwdIdx ∧ decodeTableWord 32 0xFF = none := by decide

/-! ### The command cycle and the port (95 §2.1, §2.2) -/

theorem test_status_nop : look (ran State.reset 0x00000000) (fun t => statusWord t.status) = some 0x00000000 := by
  decide

theorem test_status_illegal : look (ran State.reset 0x00000100) (fun t => statusWord t.status) = some 0x00020006 ∧
    look (ran State.reset 0x000000FF) (fun t => statusWord t.status) = some 0xFF010006 ∧
    look (ran State.reset 0x00000133) (fun t => statusWord t.status) = some 0x33020006 := by
  decide

theorem test_read_id : look (host State.reset (.read 0x00)) State.trace = some [0x48504345] := by decide

theorem test_read_cfg : look (host State.reset (.read 0x0C)) State.trace = some [0x00001010] := by decide

theorem test_unmapped : look (host State.reset (.read 0x4C)) (fun t => (t.trace, statusWord t.status)) =
    some ([0], 0x00000100) := by
  decide

theorem test_misaligned : look (host State.reset (.read 0x06)) (fun t => (t.trace, statusWord t.status)) =
    some ([0], 0x00000100) := by
  decide

/-- 10_state R45: bits 1:0 of 7 select IDX, which reads back as 3. -/
theorem test_space_bits : look (host State.reset (.write 0x40 7)) State.mspace = some .idx ∧
    look (host { State.reset with mspace := .byte } (.read 0x40)) State.trace = some [2] := by
  decide

/-- 10_state R34, 92 D42: BUSY = 0 before the first STATUS read, so the write starts the command and is no hazard. -/
theorem test_cmd_before_poll : look (host { State.reset with awaitPoll := true } (.write 0x04 0x45))
    (fun t => (t.pending, t.status.busy, t.haz)) = some (some 0x45, true, false) := by
  decide

/-- 70_reset R345, 93 U2: while BUSY = 1 the write has no effect but HAZ. -/
theorem test_cmd_while_busy : look (host (busy State.reset 0x45) (.write 0x04 0x46))
    (fun t => (t.pending, t.cmd, t.haz)) = some (some 0x45, 0x45, true) := by
  decide

theorem test_maxi_bits : look (host State.reset (.write 0x30 0x12345)) State.maxi = some 0x2345 := by decide

theorem test_window_byte : look (host { State.reset with mspace := .byte, maddr := 5 } (.write 0x48 0x1FF))
    (fun t => (t.byte, t.maddr)) = some ([(5, 0xFF)], 6) := by
  decide

theorem test_window_out_of_range : look (host { State.reset with mspace := .bit, maddr := 1024 } (.write 0x48 1))
    (fun t => (t.bit, t.maddr, t.status.haf)) = some ([], 1025, true) := by
  decide

/-! ### Vectors of 95 §2.3 to §2.7 -/

theorem test_b2bits : look (ran { ops State.reset 0 2 0 0 with byte := cells 0 [0xA5, 0x3C] } 0x10)
    (fun t => (statusWord t.status, t.res0, t.bit)) =
    some (0x10000000, 16, cells 0 (bits [1, 0, 1, 0, 0, 1, 0, 1, 0, 0, 1, 1, 1, 1, 0, 0])) := by
  decide

theorem test_b2bits_bounds : look (ran { ops State.reset 0 1 1020 0 with byte := [(0, 1)] } 0x10)
    (fun t => statusWord t.status) = some 0x10410012 := by
  decide

theorem test_bits2b : look (ran { ops State.reset 0 11 50 0 with bit := cells 0 (bits [1, 0, 1, 0, 0, 1, 0, 1, 1, 1, 0]) }
    0x11) (fun t => (statusWord t.status, t.res0, t.res1, t.byte)) = some (0x11000000, 1, 3, [(50, 0xA5)]) := by
  decide

theorem test_minbits : look (ran (ops State.reset 32 0 0 0) 0x12) (fun t => (statusWord t.status, t.res0, t.bit)) =
    some (0x12000000, 6, cells 0 (bits [1, 0, 0, 0, 0, 0])) := by
  decide

theorem test_minbits_all_ones : look (ran (ops State.reset 0xFFFFFFFF 1000 0 0) 0x12) (fun t => statusWord t.status) =
    some 0x12410012 := by
  decide

theorem test_extenc : look (ran { ops State.reset 0 2 8 0 with byte := cells 0 [0x2E, 0x63] } 0x13)
    (fun t => (statusWord t.status, t.res0, t.bit)) =
    some (0x13000000, 40, cells 8 (bits [0, 1, 1, 0, 0, 0, 1, 1] ++ List.replicate 32 false)) := by
  decide

theorem test_extenc_malformed : look (ran { ops State.reset 0 4 0 0 with byte := cells 0 [0x2E, 0x74, 0, 0x78] } 0x13)
    (fun t => statusWord t.status) = some 0x130D0006 := by
  decide

theorem test_extdec : look (ran { ops State.reset 0 40 100 0 with
      bit := cells 0 (bits [0, 1, 1, 0, 0, 0, 1, 1] ++ List.replicate 32 false) } 0x14)
    (fun t => (statusWord t.status, t.res0, t.byte)) = some (0x14000000, 2, cells 100 [0x2E, 0x63]) := by
  decide

theorem test_extdec_short : look (ran (ops State.reset 0 39 100 0) 0x14) (fun t => statusWord t.status) =
    some 0x140E0006 := by
  decide

theorem test_nudge : look (ran { nudging (ops State.reset 3 1 0 0) 255 1 with pix := [(3, 100)] } 0x20)
    (fun t => (statusWord t.status, t.res0, t.res1, t.nstate, t.pix.read 3)) =
    some (0x20000000, 99, 1, 1103527590, some 99) := by
  decide

theorem test_nudge_at_top : look (ran { nudging (ops State.reset 3 0 0 0) 255 3 with pix := [(3, 255)] } 0x20)
    (fun t => (t.res0, t.res1)) = some (254, 1) := by
  decide

theorem test_hash : look (ran { ops State.reset 0 3 0 0 with byte := cells 0 [0x6B, 0x65, 0x79] } 0x30)
    (fun t => (statusWord t.status, t.res0, t.res1, t.seed)) = some (0x30000000, 0x0B88878E, 0, 0x0B88878E) := by
  decide

theorem test_hash_wide : look (ran { ops State.reset 0 6 0 0 with
      cfg := { Config.Params.default with hash64 := true }
      byte := cells 0 [0x73, 0x65, 0x63, 0x72, 0x65, 0x74] } 0x30)
    (fun t => (t.res0, t.res1, t.seed)) = some (461122539, 1619, 461122539) := by
  decide

theorem test_hash_signed : look (ran { ops State.reset 0 1 0 0 with
      cfg := { Config.Params.default with charSigned := true }, byte := [(0, 0xE9)] } 0x30)
    State.res0 = some 177550 := by
  decide

theorem test_permfwd_bit : look (ran { ops State.reset 0 8 0 0 with
      seed := 0x0B88878E, bit := cells 0 (bits [1, 0, 1, 1, 0, 0, 1, 0]) } 0x31) State.bit =
    some (cells 0 (bits [0, 0, 0, 1, 0, 1, 1, 1])) := by
  decide

theorem test_permfwd_bit_start : look (ran { ops State.reset 0 10 4 0 with
      seed := 0x0B88878E, bit := cells 0 (bits [1, 1, 1, 1, 0, 1, 0, 0, 1, 0]) } 0x31) State.bit =
    some (cells 0 (bits [1, 1, 1, 1, 0, 0, 1, 1, 0, 0])) := by
  decide

theorem test_permfwd_idx : look (ran { ops State.reset 0 8 0 0 with
      seed := 0x0B88878E, idx := cells 0 [0, 1, 2, 3, 4, 5, 6, 7] } 0x131) State.idx =
    some (cells 0 [5, 4, 7, 6, 1, 2, 0, 3]) := by
  decide

theorem test_perminv_bit : look (ran { ops State.reset 0 8 0 0 with
      seed := 0x0B88878E, bit := cells 0 (bits [0, 0, 0, 1, 0, 1, 1, 1]) } 0x32) State.bit =
    some (cells 0 (bits [1, 0, 1, 1, 0, 0, 1, 0])) := by
  decide

theorem test_perminv_idx : look (ran { ops State.reset 0 8 0 0 with
      seed := 0x0B88878E, idx := cells 0 [5, 4, 7, 6, 1, 2, 0, 3] } 0x132) State.idx =
    some (cells 0 [0, 1, 2, 3, 4, 5, 6, 7]) := by
  decide

theorem test_permidx : look (ran { ops State.reset 0 10 4 0 with seed := 0x0B88878E } 0x33) State.idx =
    some (cells 0 [0, 1, 2, 3, 9, 4, 5, 8, 6, 7]) := by
  decide

theorem test_permidx_limit : look (ran { ops State.reset 0 20 3 0 with
      cfg := { Config.Params.default with permMax := 16 } } 0x33) (fun t => statusWord t.status) = some 0x33440012 := by
  decide

theorem test_hbest : look (ran (ops State.reset 1000 50 0 0) 0x40) (fun t => (statusWord t.status, t.res0, t.res1)) =
    some (0x40000000, 6, 63) := by
  decide

theorem test_hbest_saturates : look (ran (ops State.reset 0xFFFFFFFF 0 0 0) 0x40) (fun t => (t.res0, t.res1)) =
    some (33, 0xFFFFFFFF) := by
  decide

theorem test_hgen : look (ran (ops State.reset 4 15 0 0) 0x41)
    (fun t => (statusWord t.status, hcfgWord t.hvalid t.hrows, t.hcols)) = some (0x41000000, 0x80000004, 15) := by
  decide

theorem test_hgen_mismatch : look (ran (ops State.reset 4 16 0 0) 0x41)
    (fun t => (statusWord t.status, t.hvalid)) = some (0x41060006, false) := by
  decide

theorem test_hcol : look (ran (matrix (ops State.reset 12 0 0 0) 4) 0x42) State.res0 = some 13 := by decide

theorem test_hcol_index : look (ran (matrix (ops State.reset 15 0 0 0) 4) 0x42) (fun t => statusWord t.status) =
    some 0x42070006 := by
  decide

theorem test_hrow : look (ran (matrix (ops State.reset 1 100 0 0) 3) 0x43) State.bit =
    some (cells 100 (bits [0, 1, 1, 0, 0, 1, 1])) := by
  decide

theorem test_hmul : look (ran { matrix (ops State.reset 200 0 0 0) 3 with
      bit := cells 200 (bits [0, 1, 0, 1, 0, 1, 1]) } 0x44) State.res0 = some 7 := by
  decide

theorem test_hadd : look (ran (ops State.reset 9 12 0 0) 0x45) State.res0 = some 5 := by decide

theorem test_hfind : look (ran (matrix (ops State.reset 13 0 0 0) 4) 0x46) State.res0 = some 12 := by decide

theorem test_hfind_none : look (ran (matrix (ops State.reset 8 0 0 0) 3) 0x46) (fun t => statusWord t.status) =
    some 0x4630000E := by
  decide

theorem test_hsyn : look (ran { matrix (ops State.reset 0 5 0 0) 3 with pix := cells 0 [10, 11, 12, 13, 14] } 0x47)
    State.res0 = some 7 := by
  decide

theorem test_hsyn_unwritten : stop (ran (matrix (ops State.reset 0 3 0 0) 3) 0x47) =
    some (.uninitRead .pix 0) := by
  decide

/-- 95 E1. -/
theorem test_hembed : look (ran { nudging (matrix (ops State.reset 0 4 0 15) 4) 255 0 with
      pix := cells 0 [100, 101, 102, 103, 104, 105, 106, 107, 108, 109, 110, 111, 112, 113, 114]
      bit := cells 0 (bits [1, 0, 1, 1]) } 0x50)
    (fun t => (statusWord t.status, t.res0, t.modcnt, t.pix.read 12)) = some (0x50000000, 1, 1, some 111) := by
  decide +kernel

/-- 95 E3: one pixel too few. -/
theorem test_hembed_capacity : look (ran { nudging (matrix (ops State.reset 0 5 0 29) 4) 255 0 with
      bit := cells 0 (bits [1, 1, 0, 1, 0]) } 0x50) (fun t => statusWord t.status) = some 0x5020000A := by
  decide

/-- 95 E5: the second block reaches past the dimension. -/
theorem test_hextract : look (ran { matrix (ops State.reset 0 4 0 10) 3 with pix := cells 0 (List.replicate 10 0) } 0x51)
    (fun t => (statusWord t.status, t.res0, t.bit)) = some (0x51000000, 4, cells 0 (bits [0, 0, 0, 0])) := by
  decide

/-! ### The statements' hypotheses are met -/

/-- A field of the next state says that there is one. -/
theorem look_next {α : Type} {o : Host.Outcome State Fault Refusal} {f : State → α} {v : α} (h : look o f = some v) :
    ∃ t, o = .next t ∧ f t = v := by
  cases o with
  | next t => exact ⟨t, rfl, Option.some.inj h⟩
  | fault f => cases h
  | refused r => cases h

theorem stop_fault {o : Host.Outcome State Fault Refusal} {f : Fault} (h : stop o = some f) : o = .fault f := by
  cases o with
  | next t => cases h
  | fault g => exact congrArg _ (Option.some.inj h)
  | refused r => cases h

/-- The state in which `e` is the next event. -/
def facing (s : State) (e : Event) : State := { s with inbox := [e] }

theorem witness_DecodeRejectsByName :
    ¬({ opc := 0x06, sp := false, rsv := 0 } : Fields).OpcAssigned ∧
      (({ opc := 0x51, sp := true, rsv := 0 } : Fields).OpcAssigned ∧
        ¬({ opc := 0x51, sp := true, rsv := 0 } : Fields).SpLegal) ∧
      ({ opc := 0x31, sp := true, rsv := 0 } : Fields).WellFormed := by
  decide

theorem witness_StepRunsPendingCommand :
    (let s := { State.reset with pending := some 0x45 };
      decode 0x45 = .ok .hadd ∧ s.pending = some 0x45 ∧ s.inbox = [] ∧ ∃ t, exec .hadd s = .next t) ∧
    (let s := { State.reset with pending := some 0x10, arg1 := 1 };
      decode 0x10 = .ok .b2bits ∧ s.pending = some 0x10 ∧ s.inbox = [] ∧ ∃ f, exec .b2bits s = .fault f) ∧
    (let s := facing { State.reset with pending := some 0x45 } .engineTurn;
      s.pending = some 0x45 ∧ s.inbox = .engineTurn :: [] ∧ ∃ t, exec .hadd { s with inbox := [] } = .next t) ∧
    (let s := facing { State.reset with pending := some 0x10, arg1 := 1 } .engineTurn;
      s.pending = some 0x10 ∧ s.inbox = .engineTurn :: [] ∧ ∃ f, exec .b2bits { s with inbox := [] } = .fault f) ∧
    (State.reset.pending = none ∧ State.reset.inbox = []) ∧
    ((facing State.reset .engineTurn).pending = none ∧ (facing State.reset .engineTurn).inbox = .engineTurn :: []) :=
  ⟨⟨by decide, rfl, rfl, _, rfl⟩, ⟨by decide, rfl, rfl, _, rfl⟩, ⟨rfl, rfl, _, rfl⟩, ⟨rfl, rfl, _, rfl⟩, ⟨rfl, rfl⟩,
    rfl, rfl⟩

theorem witness_IllegalWordIsFailedCommand :
    (let s := { State.reset with pending := some 0xFF };
      s.pending = some 0xFF ∧ (s.inbox = [] ∧ ([] : List Event) = []) ∧
        ¬({ opc := (0xFF : Word).extractLsb' 0 8, sp := false, rsv := 0 } : Fields).OpcAssigned) ∧
    (let s := facing { State.reset with pending := some 0x133 } .engineTurn;
      s.pending = some 0x133 ∧ s.inbox = .engineTurn :: []) ∧
      ({ opc := (0x133 : Word).extractLsb' 0 8, sp := (0x133 : Word).getLsbD 8, rsv := 0 } : Fields).OpcAssigned ∧
      ¬({ opc := (0x133 : Word).extractLsb' 0 8, sp := (0x133 : Word).getLsbD 8, rsv := 0 } : Fields).SpLegal ∧
      ¬({ opc := 0, sp := false, rsv := (0x80000000 : Word).extractLsb' 9 23 } : Fields).RsvZero := by
  decide

/-- The state after a command, its completion not read yet, and `e` the next event. -/
def unread (e : Event) : State := { facing State.reset e with awaitPoll := true }

theorem witness_CmdWriteStartsCommand :
    (let s := facing State.reset (.transact (.write 0x04 0xFFFFFFFF));
      s.inbox = .transact (.write 0x04 0xFFFFFFFF) :: [] ∧ s.status.busy = false ∧ s.awaitPoll = false) ∧
    let s := unread (.transact (.write 0x04 0xFFFFFFFF));
    s.inbox = .transact (.write 0x04 0xFFFFFFFF) :: [] ∧ s.status.busy = false ∧ s.awaitPoll = true := by
  decide

theorem witness_FailureIsAtomic :
    ∃ t, exec .hcol State.reset = .next t ∧ State.reset.status.err = false ∧ t.status.err = true :=
  ⟨_, rfl, rfl, rfl⟩

theorem witness_CommandsWriteOnlyNamedRegisters :
    ∃ t, exec .nop State.reset = .next t ∧ State.reset.status.err = false ∧ t.status.err = false ∧
      Instr.nop ∉ [Instr.hembed, .hash, .hgen] :=
  ⟨_, rfl, rfl, rfl, by decide⟩

theorem witness_CommandsWriteOnlyNamedSpaces :
    (∃ t, exec .hgen (ops State.reset 1 1 0 0) = .next t) ∧
      Instr.hgen ∉ [Instr.nudge, .hembed, .b2bits, .minbits, .extenc, .permfwdBit, .perminvBit, .hrow, .hextract,
        .bits2b, .extdec, .permfwdIdx, .perminvIdx, .permidx] :=
  ⟨⟨_, rfl⟩, by decide⟩

theorem witness_UninitReadIsUnwrittenCell :
    exec .nudge { State.reset with maxi := 1 } = .fault (.uninitRead .pix 0) ∧
      exec .bits2b (ops State.reset 0 8 0 0) = .fault (.uninitRead .bit 0) ∧
      exec .b2bits (ops State.reset 1023 1 0 0) = .fault (.uninitRead .byte 1023) ∧
      exec .permfwdIdx (ops State.reset 0 1 0 0) = .fault (.uninitRead .idx 0) :=
  ⟨stop_fault (by decide), stop_fault (by decide), stop_fault (by decide), stop_fault (by decide)⟩

theorem cells_holds {α : Type} : ∀ (vs : List α) (a : Nat), Mem.Holds (cells a vs) a vs := by
  intro vs
  induction vs with
  | nil => intro a k h; exact absurd h (Nat.not_lt_zero k)
  | cons v vs ih =>
    intro a k h
    cases k with
    | zero => simp [cells, Mem.read]
    | succ k =>
      have := ih (a + 1) k (by simpa using h)
      simp only [cells, Mem.read, List.getElem_cons_succ]
      rw [if_neg (by omega), ← this, Nat.add_right_comm a 1 k, Nat.add_assoc]

/-- Cells that end where `k` cells are listed: the next one is the first unwritten. -/
theorem cells_firstUnwritten {α : Type} (a : Nat) (vs : List α) {n k : Nat} (hn : k < n) (hl : vs.length = k)
    (hk : Mem.read (cells a vs) (a + k) = none) : Mem.FirstUnwritten (cells a vs) a n k :=
  ⟨hn, hk, fun j hj => by rw [cells_holds vs a j (by omega)]; exact Option.some_ne_none _⟩

/-- The last byte and the first or the last bit of a range unwritten, the ranges at the end of their spaces. -/
theorem witness_UninitReadIsUnwrittenCell_codec :
    (let s := { ops State.reset 1022 2 1008 0 with byte := [(1022, 1)] };
      s.arg0.toNat + s.arg1.toNat ≤ s.cfg.byteDepth.toNat ∧
        s.arg2.toNat + 8 * s.arg1.toNat ≤ s.cfg.bitDepth.toNat ∧
        Mem.FirstUnwritten s.byte s.arg0.toNat s.arg1.toNat 1) ∧
    (let s := { ops State.reset 1009 15 1023 0 with bit := cells 1009 (List.replicate 7 true) };
      s.arg0.toNat + s.arg1.toNat ≤ s.cfg.bitDepth.toNat ∧
        s.arg2.toNat + s.arg1.toNat / 8 ≤ s.cfg.byteDepth.toNat ∧
        s.bit.FirstUnwritten s.arg0.toNat (8 * (s.arg1.toNat / 8)) 7) ∧
    (let s := ops State.reset 1023 1 984 0;
      1 ≤ s.arg1.toNat ∧ s.arg0.toNat + s.arg1.toNat ≤ s.cfg.byteDepth.toNat ∧
        s.arg2.toNat + (s.arg3.toNat + 40) ≤ s.cfg.bitDepth.toNat ∧
        Mem.FirstUnwritten s.byte s.arg0.toNat s.arg1.toNat 0) ∧
    (let s := { ops State.reset 1019 5 983 1 with byte := cells 1019 [0x2E, 0x70, 0, 0x67] };
      s.arg1.toNat ≤ 5 ∧ s.arg0.toNat + s.arg1.toNat ≤ s.cfg.byteDepth.toNat ∧
        s.arg2.toNat + (s.arg3.toNat + 40) ≤ s.cfg.bitDepth.toNat ∧
        Mem.FirstUnwritten s.byte s.arg0.toNat s.arg1.toNat 4 ∧ Mem.read s.byte s.arg0.toNat = some 0x2E) ∧
    let s := { ops State.reset 983 41 1018 0 with bit := cells 984 (List.replicate 39 false) };
    40 ≤ s.arg1.toNat ∧ s.arg0.toNat + s.arg1.toNat ≤ s.cfg.bitDepth.toNat ∧
      s.arg2.toNat + 6 ≤ s.cfg.byteDepth.toNat ∧ s.bit.FirstUnwritten (s.arg0.toNat + (s.arg1.toNat - 40)) 40 39 :=
  ⟨⟨by decide, by decide, cells_firstUnwritten 1022 [1] (by decide) rfl (by decide)⟩,
    ⟨by decide, by decide, cells_firstUnwritten 1009 (List.replicate 7 true) (by decide) rfl (by decide)⟩,
    ⟨by decide, by decide, by decide, cells_firstUnwritten 1023 ([] : List Byte) (by decide) rfl (by decide)⟩,
    ⟨by decide, by decide, by decide, cells_firstUnwritten 1019 [0x2E, 0x70, 0, 0x67] (by decide) rfl (by decide),
      by decide⟩,
    by decide, by decide, by decide,
    cells_firstUnwritten 984 (List.replicate 39 false) (by decide) rfl (by decide)⟩

theorem witness_UninitReadIsUnwrittenCell_cells :
    (let s := { ops State.reset 1023 1 0 0 with maxi := 1 };
      s.maxi ≠ 0 ∧ s.arg1.toNat ≤ 1 ∧ s.arg0.toNat < s.cfg.pixDepth.toNat ∧ s.pix.read s.arg0.toNat = none) ∧
    (let s := { ops State.reset 1021 3 0 0 with byte := cells 1021 [1, 2] };
      s.arg0.toNat + s.arg1.toNat ≤ s.cfg.byteDepth.toNat ∧
        Mem.FirstUnwritten s.byte s.arg0.toNat s.arg1.toNat 2) ∧
    (let s := { ops State.reset 0 1024 1022 0 with bit := [(1022, true)], idx := [(1022, 7)] };
      s.PermOperandsOk s.cfg.bitDepth.toNat ∧ s.PermOperandsOk s.cfg.idxDepth.toNat ∧ s.arg2.toNat ≤ 1023 ∧
        1023 < s.arg1.toNat ∧ s.bit.read (s.arg0.toNat + 1023) = none ∧ s.idx.read (s.arg0.toNat + 1023) = none) ∧
    (let s := { matrix (ops State.reset 1021 0 0 0) 2 with bit := cells 1021 [true, false] };
      s.hvalid = true ∧ s.arg0.toNat + s.hcols.toNat ≤ s.cfg.bitDepth.toNat ∧
        s.bit.FirstUnwritten s.arg0.toNat s.hcols.toNat 2) ∧
    let s := { matrix (ops State.reset 1022 1024 0 0) 2 with pix := [(1022, 5)] };
    s.hvalid = true ∧ s.arg1.toNat ≤ s.cfg.pixDepth.toNat ∧ s.pix.FirstUnwritten s.arg0.toNat s.hcols.toNat 1 ∧
      s.arg0.toNat + 1 < s.arg1.toNat :=
  ⟨by decide, ⟨by decide, cells_firstUnwritten 1021 [1, 2] (by decide) rfl (by decide)⟩, by decide,
    ⟨by decide, by decide, cells_firstUnwritten 1021 [true, false] (by decide) rfl (by decide)⟩,
    by decide, by decide, cells_firstUnwritten 1022 [5] (by decide) rfl (by decide), by decide⟩

/-- Two blocks of three pixels: an unwritten last pixel, then an unwritten last payload bit. -/
theorem witness_UninitReadIsUnwrittenCell_embed :
    (let s := { matrix (ops State.reset 1021 3 1018 1024) 2 with maxi := 9, pix := cells 1018 [1, 2, 3, 4, 9] };
      s.UsefulCode ∧ s.BlockCount 2 ∧ s.arg0.toNat + s.arg1.toNat ≤ s.cfg.bitDepth.toNat ∧
        s.arg3.toNat ≤ s.cfg.pixDepth.toNat ∧ s.maxi ≠ 0 ∧ s.arg2.toNat + 2 * s.hcols.toNat ≤ s.arg3.toNat ∧
        s.pix.FirstUnwritten s.arg2.toNat (2 * s.hcols.toNat) 5 ∧ s.arg2.toNat + 5 < s.arg3.toNat) ∧
    let s := { matrix (ops State.reset 1021 3 1018 1024) 2 with
      maxi := 9, pix := cells 1018 [1, 2, 3, 4, 9, 0], bit := cells 1021 [true, false] };
    s.UsefulCode ∧ s.BlockCount 2 ∧ s.arg0.toNat + s.arg1.toNat ≤ s.cfg.bitDepth.toNat ∧
      s.arg3.toNat ≤ s.cfg.pixDepth.toNat ∧ s.maxi ≠ 0 ∧ s.arg2.toNat + 2 * s.hcols.toNat ≤ s.arg3.toNat ∧
      [(1 : Word), 2, 3, 4, 9, 0].length = 2 * s.hcols.toNat ∧ s.pix.Holds s.arg2.toNat [1, 2, 3, 4, 9, 0] ∧
      (∀ x ∈ [(1 : Word), 2, 3, 4, 9, 0], x.toNat ≤ s.maxi.toNat) ∧
      s.bit.FirstUnwritten s.arg0.toNat s.arg1.toNat 2 :=
  ⟨⟨by decide, by decide, by decide, by decide, by decide, by decide,
      cells_firstUnwritten 1018 [1, 2, 3, 4, 9] (by decide) rfl (by decide), by decide⟩,
    by decide, by decide, by decide, by decide, by decide, by decide, rfl,
    cells_holds _ 1018, fun x hx => by fin_cases hx <;> decide,
    cells_firstUnwritten 1021 [true, false] (by decide) rfl (by decide)⟩

theorem witness_InternalViolationOnlyFromHfind :
    ∀ target ∈ ([0, 8] : List Word),
      let s := matrix (ops State.reset target 0 0 0) 3;
      s.status.err = false ∧ s.hcols.toNat = 2 ^ s.hrows.toNat - 1 ∧ s.status.kind = .none ∧
        ∃ t, exec .hfind s = .next t ∧ t.status.kind = .internalInvariantViolation := by
  intro target h
  have h' : look (exec .hfind (matrix (ops State.reset target 0 0 0) 3)) (fun t => t.status.kind) =
      some .internalInvariantViolation := by
    fin_cases h <;> decide
  exact ⟨rfl, rfl, rfl, look_next h'⟩

theorem witness_GeneratorStateNeverObserved :
    (∃ t, exec .perminvBit State.reset = .next t) ∧ ∃ f, exec .b2bits (ops State.reset 0 1 0 0) = .fault f :=
  ⟨⟨_, rfl⟩, _, rfl⟩

theorem witness_StepKeepsInvariant :
    (State.reset.Inv ∧ ∃ t, step State.reset = .next t) ∧
      (State.reset.start 0x45).Inv ∧ ∃ t, step (State.reset.start 0x45) = .next t :=
  ⟨⟨by decide, _, rfl⟩, by decide, _, rfl⟩

theorem witness_FaultBitsAreSticky :
    let s := { State.reset with haz := true, status := { State.reset.status with haf := true } };
    (∃ t, step s = .next t) ∧ s.haz = true ∧ s.status.haf = true ∧ ∀ rest, s.inbox ≠ .transact .reset :: rest :=
  ⟨⟨_, rfl⟩, rfl, rfl, by simp [State.reset]⟩

theorem witness_ResetValues :
    (facing State.reset (.transact .reset)).inbox = .transact .reset :: [] ∧
      (facing (State.reset.start 0x45) (.transact .reset)).inbox = .transact .reset :: [] :=
  ⟨rfl, rfl⟩

theorem witness_HazardWindow :
    (State.reset.start 0x45).status.busy = true ∧
      (let s := unread (.transact (.read 0x48));
        s.status.busy = false ∧ s.awaitPoll = true ∧ s.inbox = .transact (.read 0x48) :: [] ∧
          s.waitsForCompletion = false) ∧
      (let s := unread (.transact (.write 0x00 0));
        s.status.busy = false ∧ s.awaitPoll = true ∧ s.inbox = .transact (.write 0x00 0) :: []) ∧
      (unread (.transact (.read 0x08))).waitsForCompletion = true ∧
      (∀ off ∈ ([0x04, 0x07, 0x0C, 0xFF] : List (BitVec 8)), off ≠ 0x08 ∧ off ≠ 0x00 ∧
        (facing State.reset (.transact (.read off))).inbox = .transact (.read off) :: []) ∧
      (facing State.reset (.transact (.write 0x04 0))).inbox = .transact (.write 0x04 0) :: [] ∧
      (facing State.reset (.transact (.read 0x08))).inbox = .transact (.read 0x08) :: [] ∧
      (facing State.reset (.transact (.read 0x00))).inbox = .transact (.read 0x00) :: [] := by
  decide

theorem witness_StatusCfgHcfgLayout :
    ({ Config.Params.default with rowsMax := 2, pixW := 1 }).WellFormed ∧
      ({ Config.Params.default with rowsMax := 32, pixW := 32, hash64 := true, charSigned := true }).WellFormed := by
  decide

theorem witness_PortFaultsSetHaf :
    ∀ off ∈ ([0x01, 0x06, 0x4C, 0x64, 0xFC, 0xFF] : List (BitVec 8)),
      (off.toNat % 4 ≠ 0 ∨ off = 0x4C ∨ 0x64 ≤ off.toNat) ∧
        (let s := facing State.reset (.transact (.read off));
          s.status.busy = false ∧ s.inbox = .transact (.read off) :: []) ∧
        let s := facing State.reset (.transact (.write off 1));
        s.status.busy = false ∧ s.inbox = .transact (.write off 1) :: [] := by
  decide

theorem witness_ReadOnlyWritesAndPlainReads :
    (∀ off ∈ ([0x00, 0x60] : List (BitVec 8)),
      off ∈ ([0x00, 0x08, 0x0C, 0x20, 0x24, 0x28, 0x38, 0x3C, 0x50, 0x54, 0x58, 0x5C, 0x60] : List (BitVec 8)) ∧
        let s := facing State.reset (.transact (.write off 1));
        s.status.busy = false ∧ s.inbox = .transact (.write off 1) :: []) ∧
    ∀ off ∈ ([0x04, 0x40, 0x60] : List (BitVec 8)),
      let s := facing State.reset (.transact (.read off));
      s.status.busy = false ∧ s.inbox = .transact (.read off) :: [] := by
  decide

theorem witness_RegisterWritesStore :
    (∀ off ∈ ([0x10, 0x14, 0x18, 0x1C, 0x2C, 0x34, 0x44, 0x30, 0x40] : List (BitVec 8)),
      let s := facing State.reset (.transact (.write off 0xFFFFFFFF));
      s.inbox = .transact (.write off 0xFFFFFFFF) :: [] ∧ s.status.busy = false) ∧
    (0xFFFFFFFC : Word).extractLsb' 0 2 = 0 ∧ (0xFFFFFFFD : Word).extractLsb' 0 2 = 1 ∧
      (0xFFFFFFFE : Word).extractLsb' 0 2 = 2 ∧ (0xFFFFFFFF : Word).extractLsb' 0 2 = 3 := by
  decide

/-- The state whose window stands at `a` of a space, its last cells written, and whose next event is `t`. -/
def windowAt (sp : Space) (a : Word) (t : Transaction) : State :=
  { State.reset with
    mspace := sp, maddr := a, pix := [(1023, 0xFFFF)], bit := [(1023, true)], byte := [(1023, 0xFF)]
    idx := [(1023, 0xFFFFFFFF)], inbox := [.transact t] }

theorem witness_WindowReadReturnsCell :
    (∀ sp ∈ [Space.pix, .bit, .byte, .idx], ∀ a ∈ ([0, 1023, 1024, 0xFFFFFFFF] : List Word),
      let s := windowAt sp a (.read 0x48);
      s.status.busy = false ∧ s.inbox = .transact (.read 0x48) :: [] ∧ s.mspace = sp ∧
        (s.maddr.toNat < depth s.cfg sp ↔ a ≤ 1023)) ∧
    (∀ sp : Space, let s := windowAt sp 1023 (.read 0x48);
      s.pix.read 1023 = some 0xFFFF ∧ s.bit.read 1023 = some true ∧ Mem.read s.byte 1023 = some 0xFF ∧
        s.idx.read 1023 = some 0xFFFFFFFF) ∧
    ∀ sp : Space, let s := windowAt sp 0 (.read 0x48);
      s.pix.read 0 = none ∧ s.bit.read 0 = none ∧ Mem.read s.byte 0 = none ∧ s.idx.read 0 = none := by
  refine ⟨fun sp h a ha => ?_, fun sp => ⟨rfl, rfl, rfl, rfl⟩, fun sp => ⟨rfl, rfl, rfl, rfl⟩⟩
  fin_cases h <;> fin_cases ha <;> decide

theorem witness_WindowWriteStoresCell :
    ∀ sp ∈ [Space.pix, .bit, .byte, .idx], ∀ a ∈ ([0, 1023, 1024, 0xFFFFFFFF] : List Word),
      let s := windowAt sp a (.write 0x48 0xFFFFFFFF);
      s.status.busy = false ∧ s.inbox = .transact (.write 0x48 0xFFFFFFFF) :: [] ∧ s.mspace = sp ∧
        (s.maddr.toNat < depth s.cfg sp ↔ a ≤ 1023) := by
  intro sp h a ha
  fin_cases h <;> fin_cases ha <;> decide

/-! CODEC -/

theorem witness_B2bitsExpandsBytes :
    (let s := { ops State.reset 1023 1 1016 0 with byte := [(1023, 0xA5)] };
      [(0xA5 : Byte)].length = s.arg1.toNat ∧ Mem.Holds s.byte s.arg0.toNat [0xA5] ∧
        s.arg0.toNat + s.arg1.toNat ≤ s.cfg.byteDepth.toNat ∧
        s.arg2.toNat + 8 * s.arg1.toNat ≤ s.cfg.bitDepth.toNat) ∧
    let s := ops State.reset 1024 0 1024 0;
    ([] : List Byte).length = s.arg1.toNat ∧ s.arg0.toNat + s.arg1.toNat ≤ s.cfg.byteDepth.toNat ∧
      s.arg2.toNat + 8 * s.arg1.toNat ≤ s.cfg.bitDepth.toNat := by
  decide

theorem witness_Bits2bPacksBytes :
    let s := { ops State.reset 0 15 1023 0 with bit := cells 0 (bits [1, 0, 1, 0, 0, 1, 0, 1]) };
    (bits [1, 0, 1, 0, 0, 1, 0, 1]).length = 8 * (s.arg1.toNat / 8) ∧
      s.bit.Holds s.arg0.toNat (bits [1, 0, 1, 0, 0, 1, 0, 1]) ∧
      s.arg0.toNat + s.arg1.toNat ≤ s.cfg.bitDepth.toNat ∧
      s.arg2.toNat + s.arg1.toNat / 8 ≤ s.cfg.byteDepth.toNat := by
  decide

theorem witness_MinbitsWritesShortestBinary :
    (let s := ops State.reset 0 1024 0 0;
      s.arg0.toNat < 2 ^ 0 ∧ s.arg1.toNat + 0 ≤ s.cfg.bitDepth.toNat) ∧
    (let s := ops State.reset 32 1018 0 0;
      s.arg0.toNat < 2 ^ 6 ∧ 2 ^ (6 - 1) ≤ s.arg0.toNat ∧ s.arg1.toNat + 6 ≤ s.cfg.bitDepth.toNat) ∧
    let s := ops State.reset 0xFFFFFFFF 992 0 0;
    s.arg0.toNat < 2 ^ 32 ∧ 2 ^ (32 - 1) ≤ s.arg0.toNat ∧ s.arg1.toNat + 32 ≤ s.cfg.bitDepth.toNat := by
  decide

theorem witness_ExtencAppendsSuffix :
    (let s := { ops State.reset 0 5 976 8 with byte := cells 0 [0x2E, 0x70, 0x6E, 0x67, 0x78] };
      s.arg1.toNat = [(0x70 : Byte), 0x6E, 0x67, 0x78].length + 1 ∧ (0 : Byte) ∉ [(0x70 : Byte), 0x6E, 0x67, 0x78] ∧
        Mem.Holds s.byte s.arg0.toNat [0x2E, 0x70, 0x6E, 0x67, 0x78] ∧
        s.arg0.toNat + s.arg1.toNat ≤ s.cfg.byteDepth.toNat ∧
        s.arg2.toNat + (s.arg3.toNat + 40) ≤ s.cfg.bitDepth.toNat) ∧
    let s := { ops State.reset 1023 1 0 0 with byte := cells 1023 [0x2E] };
    s.arg1.toNat = ([] : List Byte).length + 1 ∧ Mem.Holds s.byte s.arg0.toNat [0x2E] ∧
      s.arg0.toNat + s.arg1.toNat ≤ s.cfg.byteDepth.toNat ∧
      s.arg2.toNat + (s.arg3.toNat + 40) ≤ s.cfg.bitDepth.toNat := by
  decide

/-- Five slots, none zero, and then the first zero. -/
theorem witness_ExtdecReadsSuffix :
    ∀ y ∈ ([0xFF, 0] : List Byte),
      let s := { ops State.reset 0 40 1018 0 with bit := cells 0 (List.replicate 40 (y.getLsbD 0)) }
      let slots : List Byte := List.replicate 5 y
      let z := if y = 0 then 0 else 5
      slots.length = 5 ∧ 40 ≤ s.arg1.toNat ∧
        (∀ q j, (h : q < slots.length) → j < 8 →
          s.bit.read (s.arg0.toNat + (s.arg1.toNat - 40) + 8 * q + j) = some (slots[q].getLsbD (7 - j))) ∧
        s.arg0.toNat + s.arg1.toNat ≤ s.cfg.bitDepth.toNat ∧ s.arg2.toNat + 6 ≤ s.cfg.byteDepth.toNat ∧ z ≤ 5 ∧
        (z = 5 ∨ slots[z]? = some 0) ∧ ∀ q, q < z → slots[q]? ≠ some 0 := by
  intro y h
  fin_cases h
  · refine ⟨by decide, by decide, fun q j h hj => ?_, by decide, by decide, by decide, by decide, fun q hq => ?_⟩
    · have h2 : q < 5 := h
      simp only [List.getElem_replicate]
      clear h
      interval_cases q <;> interval_cases j <;> decide
    · have h2 : q < 5 := hq
      interval_cases q <;> decide
  · refine ⟨by decide, by decide, fun q j h hj => ?_, by decide, by decide, by decide, by decide, fun q hq => ?_⟩
    · have h2 : q < 5 := h
      simp only [List.getElem_replicate]
      clear h
      interval_cases q <;> interval_cases j <;> decide
    · exact absurd hq (Nat.not_lt_zero q)

theorem witness_CodecChecksRaise_bits :
    (let s := ops State.reset 1024 1 0 0; s.cfg.byteDepth.toNat < s.arg0.toNat + s.arg1.toNat) ∧
    (let s := ops State.reset 1023 1 1017 0;
      s.arg0.toNat + s.arg1.toNat ≤ s.cfg.byteDepth.toNat ∧
        s.cfg.bitDepth.toNat < s.arg2.toNat + 8 * s.arg1.toNat) ∧
    (let s := ops State.reset 1023 8 1024 0;
      s.cfg.bitDepth.toNat < s.arg0.toNat + s.arg1.toNat) ∧
    (let s := ops State.reset 1016 8 1024 0;
      s.arg0.toNat + s.arg1.toNat ≤ s.cfg.bitDepth.toNat ∧
        s.cfg.byteDepth.toNat < s.arg2.toNat + s.arg1.toNat / 8) ∧
    (let s := ops State.reset 0 1025 0 0;
      s.cfg.bitDepth.toNat < s.arg1.toNat + 0) ∧
    let s := ops State.reset 1 1024 0 0;
    2 ^ (1 - 1) ≤ s.arg0.toNat ∧ s.cfg.bitDepth.toNat < s.arg1.toNat + 1 := by
  decide

theorem witness_CodecChecksRaise_extenc :
    (5 < (ops State.reset 0 6 0 0).arg1.toNat ∧ (ops State.reset 0 0 0 0).arg1 = 0) ∧
    (let s := ops State.reset 1024 1 0 0;
      1 ≤ s.arg1.toNat ∧ s.arg1.toNat ≤ 5 ∧ s.cfg.byteDepth.toNat < s.arg0.toNat + s.arg1.toNat) ∧
    (let s := ops State.reset 1019 5 984 1;
      s.arg1.toNat ≤ 5 ∧ s.arg0.toNat + s.arg1.toNat ≤ s.cfg.byteDepth.toNat ∧
        s.cfg.bitDepth.toNat < s.arg2.toNat + (s.arg3.toNat + 40)) ∧
    (let s := { ops State.reset 0 1 984 0 with byte := [(0, 0x2F)] };
      1 ≤ s.arg1.toNat ∧ s.arg1.toNat ≤ 5 ∧ s.arg0.toNat + s.arg1.toNat ≤ s.cfg.byteDepth.toNat ∧
        s.arg2.toNat + (s.arg3.toNat + 40) ≤ s.cfg.bitDepth.toNat ∧ Mem.read s.byte s.arg0.toNat = some 0x2F ∧
        (0x2F : Byte) ≠ 0x2E) ∧
    let s := { ops State.reset 0 2 984 0 with byte := cells 0 [0x2E, 0] };
    [(0 : Byte)].length + 1 = s.arg1.toNat ∧ s.arg1.toNat ≤ 5 ∧
      s.arg0.toNat + s.arg1.toNat ≤ s.cfg.byteDepth.toNat ∧
      s.arg2.toNat + (s.arg3.toNat + 40) ≤ s.cfg.bitDepth.toNat ∧ Mem.Holds s.byte s.arg0.toNat [0x2E, 0] ∧
      (0 : Byte) ∈ [(0 : Byte)] := by
  decide

theorem witness_CodecChecksRaise_extdec :
    (ops State.reset 0 39 0 0).arg1.toNat < 40 ∧
    (let s := ops State.reset 985 40 0 0;
      40 ≤ s.arg1.toNat ∧ s.cfg.bitDepth.toNat < s.arg0.toNat + s.arg1.toNat) ∧
    let s := ops State.reset 984 40 1019 0;
    40 ≤ s.arg1.toNat ∧ s.arg0.toNat + s.arg1.toNat ≤ s.cfg.bitDepth.toNat ∧
      s.cfg.byteDepth.toNat < s.arg2.toNat + 6 := by
  decide

theorem witness_CodecRoundTrips :
    (let s := { ops State.reset 0 1 1016 0 with byte := [(0, 0xA5)] };
      [(0xA5 : Byte)].length = s.arg1.toNat ∧ Mem.Holds s.byte s.arg0.toNat [0xA5] ∧
        s.arg0.toNat + s.arg1.toNat ≤ s.cfg.byteDepth.toNat ∧
        s.arg2.toNat + 8 * s.arg1.toNat ≤ s.cfg.bitDepth.toNat ∧
        (1023 : Word).toNat + s.arg1.toNat ≤ s.cfg.byteDepth.toNat) ∧
    let s := { ops State.reset 0 2 0 984 with byte := cells 0 [0x2E, 0x63] };
    s.arg1.toNat = [(0x63 : Byte)].length + 1 ∧ (0 : Byte) ∉ [(0x63 : Byte)] ∧
      Mem.Holds s.byte s.arg0.toNat [0x2E, 0x63] ∧ s.arg0.toNat + s.arg1.toNat ≤ s.cfg.byteDepth.toNat ∧
      s.arg2.toNat + (s.arg3.toNat + 40) ≤ s.cfg.bitDepth.toNat ∧
      (1018 : Word).toNat + 6 ≤ s.cfg.byteDepth.toNat := by
  decide

/-! NUDGE and HASH -/

theorem witness_NopClearsError : (0x100 : Word).extractLsb' 0 8 = 0 ∧ (0x100 : Word) ≠ 0 := by decide

theorem witness_NudgeStaysInRange : (∀ x ∈ ([0, 1] : List Int), (1 : Int) ≤ 1 ∧ 0 ≤ x ∧ x ≤ 1) ∧ (0 : Int) < 1 := by
  decide

/-- The pixel at either end of its range, with either target and either source. -/
theorem witness_NudgeSetsPixelLsb :
    ∀ src ∈ [Config.NudgeSrc.draw, .reference], ∀ x ∈ ([0, 255] : List Word), ∀ target ∈ ([0, 1] : List Word),
      let s := { ops State.reset 1023 target 0 0 with
        cfg := { Config.Params.default with nudgeSrc := src }, maxi := 255, pix := [(1023, x)] };
      s.maxi ≠ 0 ∧ s.arg1.toNat ≤ 1 ∧ s.arg0.toNat < s.cfg.pixDepth.toNat ∧ s.pix.read s.arg0.toNat = some x ∧
        x.toNat ≤ s.maxi.toNat ∧ s.cfg.nudgeSrc = src ∧
        ((x.getLsbD 0).toNat = s.arg1.toNat ↔ (x = 0 ↔ target = 0)) := by
  intro src h x hx target ht
  fin_cases h <;> fin_cases hx <;> fin_cases ht <;> decide

theorem witness_NudgeChecksRaise :
    (State.reset.maxi = 0) ∧
    (let s := { ops State.reset 0 2 0 0 with maxi := 1 }; s.maxi ≠ 0 ∧ 1 < s.arg1.toNat) ∧
    (let s := { ops State.reset 1024 1 0 0 with maxi := 1 };
      s.maxi ≠ 0 ∧ s.arg1.toNat ≤ 1 ∧ s.cfg.pixDepth.toNat ≤ s.arg0.toNat) ∧
    let s := { ops State.reset 1023 1 0 0 with maxi := 1, pix := [(1023, 2)] };
    s.maxi ≠ 0 ∧ s.arg1.toNat ≤ 1 ∧ s.arg0.toNat < s.cfg.pixDepth.toNat ∧ s.pix.read s.arg0.toNat = some 2 ∧
      s.maxi.toNat < (2 : Word).toNat := by
  decide

theorem witness_HashDerivesSeed :
    (let s := { ops State.reset 1023 1 0 0 with byte := [(1023, 0xE9)] };
      [(0xE9 : Byte)].length = s.arg1.toNat ∧ Mem.Holds s.byte s.arg0.toNat [0xE9] ∧
        s.arg0.toNat + s.arg1.toNat ≤ s.cfg.byteDepth.toNat) ∧
    let s := ops State.reset 1024 1 0 0;
    s.cfg.byteDepth.toNat < s.arg0.toNat + s.arg1.toNat := by
  decide

/-! PERM -/

/-- Every state has draws for every range. -/
theorem draws_exist (s : State) (n start : Nat) : ∃ st j, s.DrawsFrom n start st j := by
  refine ⟨fun i => (fun x => (prngNext s.cfg.prng x).2)^[n - i] (prngInit s.cfg.prng s.seed),
    fun i => start + (prngNext s.cfg.prng ((fun x => (prngNext s.cfg.prng x).2)^[n - (i + 1)]
      (prngInit s.cfg.prng s.seed))).1 % (i - start + 1), by simp, fun i _ h => ⟨rfl, ?_⟩⟩
  have e : n - i = n - (i + 1) + 1 := by omega
  simp only [e]
  exact Function.iterate_succ_apply' ..

/-- Two written cells in each space, permuted from position 0. -/
def pair : State :=
  { ops State.reset 1022 2 0 0 with seed := 7, bit := cells 1022 [true, false], idx := cells 1022 [5, 9] }

theorem witness_PermfwdAppliesDraws :
    (∃ st j, pair.DrawsFrom pair.arg1.toNat pair.arg2.toNat st j) ∧
      pair.PermOperandsOk pair.cfg.bitDepth.toNat ∧ pair.PermOperandsOk pair.cfg.idxDepth.toNat ∧
      [true, false].length = pair.arg1.toNat ∧ pair.bit.HoldsFrom pair.arg0.toNat pair.arg2.toNat [true, false] ∧
      pair.idx.HoldsFrom pair.arg0.toNat pair.arg2.toNat [5, 9] :=
  ⟨draws_exist .., by decide, by decide, rfl, fun k _ h => by
    have h2 : k < 2 := h
    interval_cases k <;> rfl, fun k _ h => by
    have h2 : k < 2 := h
    interval_cases k <;> rfl⟩

theorem witness_PerminvAppliesDraws :
    let s := { pair with arg0 := 1023, arg1 := 1, arg2 := 1 };
    (∃ st j, s.DrawsFrom s.arg1.toNat s.arg2.toNat st j) ∧ s.PermOperandsOk s.cfg.bitDepth.toNat ∧
      s.PermOperandsOk s.cfg.idxDepth.toNat ∧ [true].length = s.arg1.toNat ∧
      s.bit.HoldsFrom s.arg0.toNat s.arg2.toNat [true] ∧ s.idx.HoldsFrom s.arg0.toNat s.arg2.toNat [5] :=
  ⟨draws_exist .., by decide, by decide, rfl, fun k h1 h2 => absurd h2 (Nat.not_lt.mpr h1),
    fun k h1 h2 => absurd h2 (Nat.not_lt.mpr h1)⟩

theorem witness_PermidxBuildsTable :
    (∃ st j, pair.DrawsFrom pair.arg1.toNat pair.arg2.toNat st j) ∧ pair.PermOperandsOk pair.cfg.idxDepth.toNat :=
  ⟨draws_exist .., by decide⟩

theorem witness_PermutationInvertible :
    pair.PermOperandsOk pair.cfg.bitDepth.toNat ∧ pair.PermOperandsOk pair.cfg.idxDepth.toNat ∧
      ∀ k < 2, pair.bit.read (1022 + k) ≠ none ∧ pair.idx.read (1022 + k) ≠ none := by
  decide

theorem witness_PermChecksRaise :
    (let s := ops State.reset 0 3 4 0; s.arg1.toNat < s.arg2.toNat) ∧
    (let s := ops State.reset 1022 3 3 0;
      s.arg2.toNat ≤ s.arg1.toNat ∧ s.cfg.bitDepth.toNat < s.arg0.toNat + s.arg1.toNat ∧
        s.cfg.idxDepth.toNat < s.arg0.toNat + s.arg1.toNat) ∧
    let s := { ops State.reset 1020 4 0 0 with cfg := { Config.Params.default with permMax := 3 } };
    s.arg2.toNat ≤ s.arg1.toNat ∧ s.arg0.toNat + s.arg1.toNat ≤ s.cfg.bitDepth.toNat ∧
      s.arg0.toNat + s.arg1.toNat ≤ s.cfg.idxDepth.toNat ∧ s.cfg.permMax.toNat < s.arg1.toNat - s.arg2.toNat := by
  decide

theorem witness_GeneratorDraws : (0xFFFFFFFF : Nat) < 2 ^ 32 := by decide

/-! HMAT -/

theorem witness_HbestIsOptimal :
    ∃ t, exec .hbest (ops State.reset 1000 50 0 0) = .next t ∧ 0 < (ops State.reset 1000 50 0 0).arg1.toNat ∧
      2 ≤ t.res0.toNat := by
  obtain ⟨t, h, e⟩ := look_next (o := exec .hbest (ops State.reset 1000 50 0 0)) (f := State.res0) (v := 6) (by decide)
  exact ⟨t, h, by decide, by simp [e]⟩

theorem witness_HgenMakesMatrixCurrent :
    (let s := ops State.reset 0 0 0 0; s.arg0.toNat < 1) ∧
    (let s := ops State.reset 17 0 0 0; s.cfg.rowsMax < s.arg0.toNat) ∧
    (let s := ops State.reset 16 65536 0 0;
      1 ≤ s.arg0.toNat ∧ s.arg0.toNat ≤ s.cfg.rowsMax ∧ s.arg1.toNat ≠ 2 ^ s.arg0.toNat - 1) ∧
    (let s := ops State.reset 16 65535 0 0;
      1 ≤ s.arg0.toNat ∧ s.arg0.toNat ≤ s.cfg.rowsMax ∧ s.arg1.toNat = 2 ^ s.arg0.toNat - 1) ∧
    let s := ops State.reset 1 1 0 0;
    1 ≤ s.arg0.toNat ∧ s.arg0.toNat ≤ s.cfg.rowsMax ∧ s.arg1.toNat = 2 ^ s.arg0.toNat - 1 := by
  decide

theorem witness_HcolReadsColumn :
    State.reset.hvalid = false ∧
    (let s := matrix (ops State.reset 15 0 0 0) 4; s.hvalid = true ∧ s.hcols.toNat ≤ s.arg0.toNat) ∧
    let s := matrix (ops State.reset 14 0 0 0) 4;
    s.hvalid = true ∧ s.arg0.toNat < s.hcols.toNat := by
  decide

theorem witness_HrowWritesRow :
    let s := matrix (ops State.reset 2 1017 0 0) 3;
    s.hvalid = true ∧ s.arg0.toNat < s.hrows.toNat ∧ s.arg1.toNat + s.hcols.toNat ≤ s.cfg.bitDepth.toNat := by
  decide

theorem witness_HmulMultiplies :
    let s := { matrix (ops State.reset 1021 0 0 0) 2 with bit := cells 1021 [true, false, true] };
    s.hvalid = true ∧ [true, false, true].length = s.hcols.toNat ∧ s.bit.Holds s.arg0.toNat [true, false, true] ∧
      s.arg0.toNat + s.hcols.toNat ≤ s.cfg.bitDepth.toNat := by
  decide

theorem witness_HfindFindsColumn :
    State.reset.hvalid = false ∧
    (∀ target ∈ ([1, 7] : List Word), let s := matrix (ops State.reset target 0 0 0) 3;
      s.hvalid = true ∧ 1 ≤ s.arg0.toNat ∧ s.arg0.toNat ≤ s.hcols.toNat) ∧
    ∀ target ∈ ([0, 8, 0xFFFFFFFF] : List Word), let s := matrix (ops State.reset target 0 0 0) 3;
      s.hvalid = true ∧ (s.arg0 = 0 ∨ s.hcols.toNat < s.arg0.toNat) := by
  refine ⟨rfl, fun target h => ?_, fun target h => ?_⟩ <;> fin_cases h <;> decide

/-- The last pixel of the block is the filler. -/
theorem witness_HsynReadsBlock :
    let s := { matrix (ops State.reset 1022 1024 0 0) 2 with pix := cells 1022 [10, 11] }
    let v : Nat → Bool := fun c => c ≠ 0
    s.hvalid = true ∧ s.arg1.toNat ≤ s.cfg.pixDepth.toNat ∧
      (∀ c, c < s.hcols.toNat → s.arg0.toNat + c < s.arg1.toNat →
        ∃ x, s.pix.read (s.arg0.toNat + c) = some x ∧ x.getLsbD 0 = v c) ∧
      ∀ c, c < s.hcols.toNat → s.arg1.toNat ≤ s.arg0.toNat + c → v c = true := by
  refine ⟨rfl, by decide, fun c _ h => ?_, fun c _ h => ?_⟩
  · have h2 : 1022 + c < 1024 := h
    have h3 : c < 2 := by omega
    interval_cases c
    · exact ⟨10, rfl, rfl⟩
    · exact ⟨11, rfl, rfl⟩
  · have h2 : 1024 ≤ 1022 + c := h
    have h3 : c ≠ 0 := by omega
    simp [h3]

theorem witness_MatrixChecksRaise :
    State.reset.hvalid = false ∧
    (let s := matrix (ops State.reset 3 0 0 0) 3; s.hvalid = true ∧ s.hrows.toNat ≤ s.arg0.toNat) ∧
    (let s := matrix (ops State.reset 2 1018 0 0) 3;
      s.hvalid = true ∧ s.arg0.toNat < s.hrows.toNat ∧ s.cfg.bitDepth.toNat < s.arg1.toNat + s.hcols.toNat) ∧
    (let s := matrix (ops State.reset 1018 0 0 0) 3;
      s.hvalid = true ∧ s.cfg.bitDepth.toNat < s.arg0.toNat + s.hcols.toNat) ∧
    let s := matrix (ops State.reset 0 1025 0 0) 3;
    s.hvalid = true ∧ s.cfg.pixDepth.toNat < s.arg1.toNat := by
  decide

theorem witness_SyndromeIsLinear : 2 < [true, false, true].length := by decide

theorem witness_ColumnsAreDistinctAndComplete :
    ∀ r ∈ [1, 16, 32], let s := matrix State.reset r;
      s.hvalid = true ∧ 1 ≤ s.hrows.toNat ∧ s.hrows.toNat ≤ 32 ∧ s.hcols.toNat = 2 ^ s.hrows.toNat - 1 ∧
        0 < s.hcols.toNat ∧ (1 : Word) ≠ 0 ∧ (1 : Word).toNat < 2 ^ s.hrows.toNat := by
  decide

/-! HSYN unit -/

/-- One block of three pixels at the end of the image, and its payload of two bits. -/
def oneBlock (src : Config.NudgeSrc) (payload : List Bool) : State :=
  { matrix (ops State.reset 1022 2 1021 1024) 2 with
    cfg := { Config.Params.default with nudgeSrc := src }
    maxi := 12, pix := cells 1021 [10, 11, 12], bit := cells 1022 payload }

theorem oneBlock_ok (src : Config.NudgeSrc) (b : Bool) :
    (oneBlock src [b, true]).EmbedOk 1 [b, true] [10, 11, 12] := by
  refine ⟨⟨rfl, ?_, rfl⟩, ?_, ⟨?_, ?_⟩, ?_, ?_, ?_, rfl, fun k h => ?_, rfl, fun k h => ?_, fun x h => ?_⟩
  case refine_8 =>
    have h2 : k < 2 := h
    interval_cases k <;> rfl
  case refine_9 =>
    have h2 : k < 3 := h
    interval_cases k <;> rfl
  case refine_10 => fin_cases h <;> simp [oneBlock]
  all_goals simp [oneBlock, matrix, ops, Config.Params.default]

/-- A payload of no bits, behind the last pixel. -/
def noBlock : State := { matrix (ops State.reset 1024 0 1024 1024) 2 with maxi := 1 }

theorem witness_HembedCompletes :
    (∀ src ∈ [Config.NudgeSrc.draw, .reference], ∀ b ∈ [true, false],
      (oneBlock src [b, true]).EmbedOk 1 [b, true] [10, 11, 12] ∧ (oneBlock src [b, true]).cfg.nudgeSrc = src) ∧
    noBlock.EmbedOk 0 [] [] :=
  ⟨fun src _ b _ => ⟨oneBlock_ok src b, rfl⟩, by
    simp [State.EmbedOk, State.UsefulCode, State.BlockCount, Mem.Holds, noBlock, matrix, ops, State.reset, Config.Params.default]⟩

/-- A block that encodes its message already, with the free draw as the source, and one that does not. -/
theorem witness_HembedBlockProperties :
    ((oneBlock .draw [false, true]).EmbedOk 1 [false, true] [10, 11, 12] ∧
      ∃ t, exec .hembed (oneBlock .draw [false, true]) = .next t ∧ t.pix.Holds 1021 [10, 11, 12]) ∧
    (oneBlock .reference [true, true]).EmbedOk 1 [true, true] [10, 11, 12] ∧
      ∃ t, exec .hembed (oneBlock .reference [true, true]) = .next t ∧ t.res0 = 1 ∧
        ∃ x, t.pix.Holds 1021 [x, 11, 12] := by
  refine ⟨⟨oneBlock_ok .., ?_⟩, oneBlock_ok .., ?_⟩
  · obtain ⟨t, h, e⟩ := look_next (o := exec .hembed (oneBlock .draw [false, true])) (f := State.pix)
      (v := cells 1021 [10, 11, 12]) (by decide +kernel)
    exact ⟨t, h, by rw [e]; decide⟩
  · obtain ⟨t, h, e⟩ := look_next (o := exec .hembed (oneBlock .reference [true, true]))
      (f := fun t => (t.res0, t.pix)) (v := (1, cells 1021 [9, 11, 12])) (by decide +kernel)
    obtain ⟨e1, e2⟩ := Prod.mk.inj e
    exact ⟨t, h, e1, 9, by rw [e2]; decide⟩

/-- Two blocks of three pixels; the second reaches past the image. -/
theorem witness_HextractReadsSyndromes :
    let s := { matrix (ops State.reset 1020 4 1020 1024) 2 with pix := cells 1020 [10, 11, 12, 13] }
    let f : Nat → Bool := fun k => k = 1021 ∨ 1023 ≤ k
    s.UsefulCode ∧ s.BlockCount 2 ∧ s.arg0.toNat + s.arg1.toNat ≤ s.cfg.bitDepth.toNat ∧
      s.arg3.toNat ≤ s.cfg.pixDepth.toNat ∧
      (∀ k, s.arg2.toNat ≤ k → k < s.arg2.toNat + 2 * s.hcols.toNat → k < s.arg3.toNat →
        ∃ x, s.pix.read k = some x ∧ x.getLsbD 0 = f k) ∧
      ∀ k, s.arg3.toNat ≤ k → f k = true := by
  refine ⟨by decide, by decide, by decide, by decide, fun k h1 _ h3 => ?_, fun k h => ?_⟩
  · have h4 : 1020 ≤ k := h1
    have h5 : k < 1024 := h3
    interval_cases k
    · exact ⟨10, rfl, rfl⟩
    · exact ⟨11, rfl, rfl⟩
    · exact ⟨12, rfl, rfl⟩
    · exact ⟨13, rfl, rfl⟩
  · have h2 : 1024 ≤ k := h
    simp
    omega

theorem witness_EmbedExtractRoundTrip :
    let s := oneBlock .draw [false, true];
    s.EmbedOk 1 [false, true] [10, 11, 12] ∧
      ∃ t, exec .hembed s = .next t ∧
        ∀ u, u = t → u.hvalid = true ∧ u.hrows = s.hrows ∧ u.hcols = s.hcols ∧ u.arg1 = s.arg1 ∧ u.arg2 = s.arg2 ∧
          u.arg3 = s.arg3 ∧ u.arg3.toNat ≤ u.cfg.pixDepth.toNat ∧
          u.arg0.toNat + u.arg1.toNat ≤ u.cfg.bitDepth.toNat := by
  refine ⟨oneBlock_ok .., ?_⟩
  obtain ⟨t, h, e⟩ := look_next (o := exec .hembed (oneBlock .draw [false, true])) (f := id)
    (v := oneBlock .draw [false, true]) (by decide +kernel)
  refine ⟨t, h, fun u hu => ?_⟩
  subst hu
  rw [show u = _ from e]
  decide

theorem witness_NudgeDrawsNeverReachLsbs :
    (∃ t, exec .hembed (oneBlock .draw [true, true]) = .next t) ∧
      ∃ t, exec .hembed { oneBlock .draw [true, true] with
        cfg := { (oneBlock .draw [true, true]).cfg with nudgeSrc := .reference }, nstate := 9, drawCount := 4 } =
        .next t := by
  constructor
  · obtain ⟨t, h, -⟩ := look_next (o := exec .hembed (oneBlock .draw [true, true])) (f := State.res0) (v := 1)
      (by decide +kernel)
    exact ⟨t, h⟩
  · obtain ⟨t, h, -⟩ := look_next (f := State.res0) (v := 1) (o := exec .hembed { oneBlock .draw [true, true] with
        cfg := { (oneBlock .draw [true, true]).cfg with nudgeSrc := .reference }, nstate := 9, drawCount := 4 })
      (by decide +kernel)
    exact ⟨t, h⟩

theorem witness_EmbedChecksRaise_code :
    State.reset.hvalid = false ∧
    (let s := matrix State.reset 1; s.hvalid = true ∧ s.hrows.toNat ≤ 1 ∧ s.hcols.toNat ≤ 2) ∧
    (let s := matrix State.reset 2; s.UsefulCode ∧ s.maxi = 0) ∧
    let s := matrix State.reset 16;
    s.UsefulCode := by
  decide

theorem witness_EmbedChecksRaise_bounds :
    (let s := { matrix (ops State.reset 1024 1 0 0) 2 with maxi := 1 };
      s.UsefulCode ∧ s.maxi ≠ 0 ∧ s.cfg.bitDepth.toNat < s.arg0.toNat + s.arg1.toNat) ∧
    (let s := { matrix (ops State.reset 1023 1 0 1025) 2 with maxi := 1 };
      s.UsefulCode ∧ s.maxi ≠ 0 ∧ s.arg0.toNat + s.arg1.toNat ≤ s.cfg.bitDepth.toNat ∧
        s.cfg.pixDepth.toNat < s.arg3.toNat) ∧
    (let s := { matrix (ops State.reset 1023 1 0 2) 2 with maxi := 1 };
      s.UsefulCode ∧ s.maxi ≠ 0 ∧ s.BlockCount 1 ∧ s.arg0.toNat + s.arg1.toNat ≤ s.cfg.bitDepth.toNat ∧
        s.arg3.toNat ≤ s.cfg.pixDepth.toNat ∧ s.arg3.toNat < s.arg2.toNat + 1 * s.hcols.toNat) ∧
    let s := { matrix (ops State.reset 1023 1 0 3) 2 with maxi := 1, pix := cells 0 [0, 1, 2] };
    s.UsefulCode ∧ s.maxi ≠ 0 ∧ s.BlockCount 1 ∧ s.arg0.toNat + s.arg1.toNat ≤ s.cfg.bitDepth.toNat ∧
      s.arg3.toNat ≤ s.cfg.pixDepth.toNat ∧ s.arg2.toNat + 1 * s.hcols.toNat ≤ s.arg3.toNat ∧
      [(0 : Word), 1, 2].length = 1 * s.hcols.toNat ∧ s.pix.Holds s.arg2.toNat [0, 1, 2] ∧
      ∃ x ∈ [(0 : Word), 1, 2], s.maxi.toNat < x.toNat := by
  exact ⟨by decide, by decide, by decide, by decide, by decide, by decide, by decide, by decide, by decide, rfl, by decide,
    2, .tail _ (.tail _ (.head _)), by decide⟩

end Sys2Proof.Tests
end

section
/-! PROOFS. What one step can do, said once: which agent moved, how the ENGINE's turn ended, and what a command that
succeeds leaves as it was. -/

namespace Sys2Proof.Machine

/-- A step is a host transaction or an ENGINE turn, on the state with the event consumed (20_memory R90). -/
theorem step_next {s t : State} (h : step s = .next t) :
    (∃ tr rest, s.inbox = .transact tr :: rest ∧ t = hostStep tr { s with inbox := rest }) ∨
      ∃ rest, engineTurn { s with inbox := rest } = .next t := by
  rw [step_eq] at h
  split at h
  case h_1 hi => exact .inr ⟨[], by rw [← hi]; exact h⟩
  case h_2 rest _ => exact .inr ⟨rest, h⟩
  case h_3 tr rest hi => exact .inl ⟨tr, rest, hi, by simpa [eq_comm] using h⟩

/-- A host transaction as the next event is the whole step. -/
theorem step_transact {s : State} {tr : Transaction} {rest : List Event} (h : s.inbox = .transact tr :: rest) :
    step s = .next (hostStep tr { s with inbox := rest }) := by
  rw [step_eq, h]

theorem finishOutcome_next {o : Host.Outcome State Fault Refusal} {t : State} (h : finishOutcome o = .next t) :
    ∃ u, o = .next u ∧ t = u.finish := by
  cases o with
  | next u => exact ⟨u, rfl, by simpa [finishOutcome, eq_comm] using h⟩
  | fault f => simp [finishOutcome] at h
  | refused r => simp [finishOutcome] at h

theorem illegalDetail_ne_none (e : Illegal) : illegalDetail e ≠ .none := by cases e <;> simp [illegalDetail]

theorem none_notMem_raises (i : Instr) : Detail.none ∉ raises i := by cases i <;> simp [raises]

/-- An ENGINE turn that does not stop is idle, or completes a pending command that succeeded, or one that failed with a
code other than 0 (40_command_cycle R131, R132, R134). -/
theorem engineTurn_next {s t : State} (h : engineTurn s = .next t) :
    t = s ∨ (∃ i u, cmdOf i s = .ok u ∧ t = u.finish) ∨ ∃ d, d ≠ .none ∧ t = (s.fail d).finish := by
  unfold engineTurn at h
  split at h
  case h_2 => exact .inl (by simpa [eq_comm] using h)
  case h_1 w _ =>
    unfold engineStep at h
    split at h
    case h_2 e _ => exact .inr (.inr ⟨_, illegalDetail_ne_none e, by simpa [eq_comm] using h⟩)
    case h_1 i _ =>
      obtain ⟨u, hu, rfl⟩ := finishOutcome_next h
      obtain hu | ⟨d, hd, rfl⟩ := exec_next.mp hu
      · exact .inr (.inl ⟨i, u, hu, rfl⟩)
      · exact .inr (.inr ⟨d, fun hn => none_notMem_raises i (hn ▸ cmdOf_error hd), rfl⟩)

/-- What no command that succeeds writes: the parameters, CMD, PENDING, STATUS, MAXI, HAZ and the window bit; the matrix
registers, which are HGEN's alone; and DRAWBUF, but to empty it (40_command_cycle R137, R138; 10_state R49). -/
theorem cmdOf_frame {i : Instr} {s t : State} (h : cmdOf i s = .ok t) :
    (t.cfg = s.cfg ∧ t.cmd = s.cmd ∧ t.pending = s.pending ∧ t.status = s.status ∧ t.maxi = s.maxi ∧ t.haz = s.haz ∧
      t.awaitPoll = s.awaitPoll) ∧
    (i ≠ .hgen → t.hrows = s.hrows ∧ t.hvalid = s.hvalid ∧ t.hcols = s.hcols) ∧
    (t.drawBuf = s.drawBuf ∨ t.drawBuf = []) := by
  have hw := cmdOf_writes h
  cases i
  case nop => obtain rfl := hw; simp
  case b2bits | minbits | extenc | hextract | extdec | hash | permfwdBit | permfwdIdx | permidx | perminvBit |
      perminvIdx | hbest => obtain ⟨_, _, rfl⟩ := hw; simp
  case bits2b => obtain ⟨_, _, _, rfl⟩ := hw; simp
  case nudge => obtain ⟨_, _, _, _, _, rfl⟩ := hw; simp
  case hembed => obtain ⟨_, _, _, _, rfl⟩ := hw; simp
  case hgen | hcol | hmul | hadd | hfind | hsyn | hrow => obtain ⟨_, rfl⟩ := hw; simp

end Sys2Proof.Machine
end

section
/-! PROOFS. What a host transaction leaves (20_memory R75 to R83), and the two sticky fault bits (10_state R52). -/

namespace Sys2Proof.Machine

/-- A register read moves at most the window, HAF, the count of free values and, once BUSY = 0, the window bit
(20_memory R77, R87; 70_reset R346). -/
theorem afterRead_frame (s : State) (r : Reg) : ∃ n a b p,
    afterRead s r = { s with
      drawCount := n, maddr := a, status := { s.status with haf := s.status.haf || b }, awaitPoll := p } ∧
    (p = s.awaitPoll ∨ s.status.busy = false) := by
  cases r
  case mdata =>
    simp only [afterRead, readMdata, windowRead]
    split
    · split
      · exact ⟨s.drawCount, s.maddr + 1, false, s.awaitPoll, by simp [State.bumpMaddr], .inl rfl⟩
      · exact ⟨s.drawCount + 1, s.maddr + 1, false, s.awaitPoll, by simp [State.bumpMaddr], .inl rfl⟩
    · exact ⟨s.drawCount, s.maddr + 1, true, s.awaitPoll, by simp [State.bumpMaddr, State.setHaf], .inl rfl⟩
  case status =>
    refine ⟨s.drawCount, s.maddr, false, s.awaitPoll && s.status.busy, by simp [afterRead], ?_⟩
    cases s.status.busy <;> simp
  all_goals exact ⟨s.drawCount, s.maddr, false, s.awaitPoll, by simp [afterRead], .inl rfl⟩

/-- A write of MDATA stores a cell inside the selected space or sets HAF (20_memory R76, R78). -/
theorem writeMdata_cases (s : State) (w : Word) :
    s.maddr.toNat < depth s.cfg s.mspace ∧ writeMdata s w = (writeCell s s.mspace s.maddr.toNat w).bumpMaddr ∨
      writeMdata s w = s.setHaf.bumpMaddr := by
  unfold writeMdata
  split
  case isTrue h => exact .inl ⟨by simpa [State.windowInRange] using h, rfl⟩
  case isFalse => exact .inr rfl

theorem writeCell_haz (s : State) (sp : Space) (a : Nat) (w : Word) : (writeCell s sp a w).haz = s.haz := by
  cases sp <;> rfl

theorem writeCell_status (s : State) (sp : Space) (a : Nat) (w : Word) : (writeCell s sp a w).status = s.status := by
  cases sp <;> rfl

/-- No register write clears HAZ or HAF (10_state R52, 60_exceptions R308). -/
theorem writeReg_keeps_faultBits (s : State) (w : Word) (r : Reg) :
    (writeReg s w r).haz = s.haz ∧ (s.status.haf = true → (writeReg s w r).status.haf = true) := by
  cases r
  case mdata =>
    obtain ⟨_, hw⟩ | hw := writeMdata_cases s w <;> simp [writeReg, hw, writeCell_haz, writeCell_status]
  all_goals exact ⟨rfl, id⟩

/-- The port keeps HAZ, and HAF unless it resets (10_state R52). -/
theorem portStep_keeps_faultBits (tr : Transaction) (s : State) :
    (portStep tr s).haz = s.haz ∧ (tr ≠ .reset → s.status.haf = true → (portStep tr s).status.haf = true) := by
  cases tr with
  | read off =>
    simp only [portStep]
    split
    · exact ⟨rfl, fun _ _ => rfl⟩
    case h_2 r _ =>
      obtain ⟨n, a, b, p, hr, _⟩ := afterRead_frame s r
      rw [hr]
      exact ⟨rfl, fun _ hf => by simp [hf]⟩
  | write off w =>
    simp only [portStep]
    split
    · exact ⟨rfl, fun _ _ => rfl⟩
    case h_2 r _ => exact ⟨(writeReg_keeps_faultBits s w r).1, fun _ => (writeReg_keeps_faultBits s w r).2⟩
  | reset => exact ⟨rfl, fun h => absurd rfl h⟩

theorem hostStep_keeps_faultBits (tr : Transaction) (s : State) :
    (s.haz = true → (hostStep tr s).haz = true) ∧
      (s.status.haf = true → tr ≠ .reset → (hostStep tr s).status.haf = true) := by
  obtain ⟨_, _, h⟩ | ⟨_, h⟩ := hostStep_cases tr s <;> rw [h]
  · exact ⟨fun _ => rfl, fun hf _ => hf⟩
  · obtain ⟨hz, hf⟩ := portStep_keeps_faultBits tr s
    exact ⟨fun h => hz.trans h, fun h1 h2 => hf h2 h1⟩

theorem engineTurn_keeps_faultBits {s t : State} (h : engineTurn s = .next t) :
    t.haz = s.haz ∧ t.status.haf = s.status.haf := by
  obtain rfl | ⟨i, u, hu, rfl⟩ | ⟨d, _, rfl⟩ := engineTurn_next h
  · exact ⟨rfl, rfl⟩
  · obtain ⟨⟨_, _, _, hst, _, hz, _⟩, _⟩ := cmdOf_frame hu
    exact ⟨hz, by rw [State.finish_status, hst]⟩
  · exact ⟨rfl, rfl⟩

/-- Settles O17: each agent keeps both bits, the host's reset aside. -/
theorem faultBitsAreSticky : Obligations.FaultBitsAreSticky := by
  intro s t h
  obtain ⟨tr, rest, hi, rfl⟩ | ⟨rest, he⟩ := step_next h
  · obtain ⟨hz, hf⟩ := hostStep_keeps_faultBits tr { s with inbox := rest }
    exact ⟨hz, fun h1 h2 => hf h1 fun hr => h2 rest (hr ▸ hi)⟩
  · obtain ⟨hz, hf⟩ := engineTurn_keeps_faultBits he
    exact ⟨hz.trans, fun h1 _ => hf.trans h1⟩

end Sys2Proof.Machine
end

section
/-! PROOFS. The machine's invariant (10_state R32, R40, R42, R43, R49, R51, 20_memory R70): memories first, then pixels,
then the commands, then the host port. -/

namespace Sys2Proof.Machine

/-! ### A memory in canonical form inside its space -/

section Fits

variable {α : Type} {m m' : Mem α} {a d : Nat}

/-- A memory in canonical form whose cells lie below `d` (20_memory R70). -/
def Mem.Fits (m : Mem α) (d : Nat) : Prop := m.wf ∧ m.Within d

theorem Mem.Fits.write (h : m.Fits d) (ha : a < d) (v : α) : (m.write a v).Fits d :=
  ⟨Mem.wf_write a v h.1, Mem.within_write h.2 ha⟩

theorem Mem.Fits.writeList (h : m.Fits d) {vs : List α} {n : Nat} (hn : vs.length ≤ n) (ha : a + n ≤ d) :
    (m.writeList a vs).Fits d :=
  ⟨Mem.wf_writeList vs a h.1, Mem.within_writeList vs h.2 (by omega)⟩

/-- A cell that holds a value lies inside the space. -/
theorem Mem.Fits.lt_of_read (h : m.Fits d) {v : α} (hr : m.read a = some v) : a < d := h.2 _ (Mem.mem_of_read hr)

theorem Mem.Fits.swapCells (h : m.Fits d) {sp : Space} {p q : Nat} (hs : swapCells sp m p q = .ok m') :
    m'.Fits d := by
  obtain ⟨x, y, hp, hq, rfl⟩ := swapCells_ok.mp hs
  exact (h.write (h.lt_of_read hp) y).write (h.lt_of_read hq) x

theorem Mem.Fits.swapsDown {sp : Space} {base start : Nat} : ∀ {js : List Nat} {m : Mem α}, m.Fits d →
    swapsDown sp base start js m = .ok m' → m'.Fits d := by
  intro js
  induction js with
  | nil =>
    intro m h hs
    simp only [Machine.swapsDown, Except.ok.injEq] at hs
    exact hs ▸ h
  | cons j js ih =>
    intro m h hs
    simp only [Machine.swapsDown] at hs
    split at hs
    · cases hs
    case h_2 m1 h1 => exact ih (h.swapCells h1) hs

theorem Mem.Fits.swapsUp {sp : Space} {base : Nat} : ∀ {js : List Nat} {i : Nat} {m : Mem α}, m.Fits d →
    swapsUp sp base i js m = .ok m' → m'.Fits d := by
  intro js
  induction js with
  | nil =>
    intro i m h hs
    simp only [Machine.swapsUp, Except.ok.injEq] at hs
    exact hs ▸ h
  | cons j js ih =>
    intro i m h hs
    simp only [Machine.swapsUp] at hs
    split at hs
    · cases hs
    case h_2 m1 h1 => exact ih (h.swapCells h1) hs

end Fits

/-! ### The four memories -/

/-- The cells of a pixel memory have `w` bits (20_memory R70). -/
def PixelsFit (m : Mem Word) (w : Nat) : Prop := ∀ e ∈ m, e.2.toNat < 2 ^ w

theorem PixelsFit.write {m : Mem Word} {w : Nat} (h : PixelsFit m w) {x : Word} (hx : x.toNat < 2 ^ w) (a : Nat) :
    PixelsFit (m.write a x) w := by
  intro e he
  obtain rfl | he := Mem.mem_of_mem_write he
  · exact hx
  · exact h e he

/-- The memories of a state, one fact for each (20_memory R70). -/
theorem memoriesWf_iff {s : State} : s.MemoriesWf ↔
    s.pix.Fits (depth s.cfg .pix) ∧ s.bit.Fits (depth s.cfg .bit) ∧ Mem.Fits s.byte (depth s.cfg .byte) ∧
      s.idx.Fits (depth s.cfg .idx) ∧ PixelsFit s.pix s.cfg.pixW := by
  constructor
  · rintro ⟨⟨h1, h2, h3, h4⟩, ⟨h5, h6, h7, h8⟩, h9⟩
    exact ⟨⟨h1, h5⟩, ⟨h2, h6⟩, ⟨h3, h7⟩, ⟨h4, h8⟩, h9⟩
  · rintro ⟨⟨h1, h5⟩, ⟨h2, h6⟩, ⟨h3, h7⟩, ⟨h4, h8⟩, h9⟩
    exact ⟨⟨h1, h2, h3, h4⟩, ⟨h5, h6, h7, h8⟩, h9⟩

section Update

variable {s : State} (h : s.MemoriesWf)
include h

theorem State.MemoriesWf.updatePix {m : Mem Word} (hm : m.Fits (depth s.cfg .pix)) (hw : PixelsFit m s.cfg.pixW) :
    ({ s with pix := m }).MemoriesWf := by
  obtain ⟨_, hb, hy, hi, _⟩ := memoriesWf_iff.mp h
  exact memoriesWf_iff.mpr ⟨hm, hb, hy, hi, hw⟩

theorem State.MemoriesWf.updateBit {m : Mem Bool} (hm : m.Fits (depth s.cfg .bit)) :
    ({ s with bit := m }).MemoriesWf := by
  obtain ⟨hp, _, hy, hi, hw⟩ := memoriesWf_iff.mp h
  exact memoriesWf_iff.mpr ⟨hp, hm, hy, hi, hw⟩

theorem State.MemoriesWf.updateByte {m : Mem Byte} (hm : m.Fits (depth s.cfg .byte)) :
    ({ s with byte := m }).MemoriesWf := by
  obtain ⟨hp, hb, _, hi, hw⟩ := memoriesWf_iff.mp h
  exact memoriesWf_iff.mpr ⟨hp, hb, hm, hi, hw⟩

theorem State.MemoriesWf.updateIdx {m : Mem Word} (hm : m.Fits (depth s.cfg .idx)) :
    ({ s with idx := m }).MemoriesWf := by
  obtain ⟨hp, hb, hy, _, hw⟩ := memoriesWf_iff.mp h
  exact memoriesWf_iff.mpr ⟨hp, hb, hy, hm, hw⟩

end Update

/-! ### Nudged pixels -/

/-- A nudged pixel stays at most MAXI, where MAXI is not 0 (42_nudge R181). -/
theorem nudgePixel_le {maxi x : Word} (b : Bool) (h0 : maxi ≠ 0) (hx : x.toNat ≤ maxi.toNat) :
    (nudgePixel maxi x b).toNat ≤ maxi.toNat := by
  have hM : maxi.toNat ≠ 0 := fun h => h0 (BitVec.eq_of_toNat_eq h)
  have hn : 0 ≤ nudge maxi.toNat x.toNat b ∧ nudge maxi.toNat x.toNat b ≤ maxi.toNat := by
    unfold nudge; split <;> split <;> omega
  calc (nudgePixel maxi x b).toNat ≤ (nudge maxi.toNat x.toNat b).toNat := by
        rw [nudgePixel, result, BitVec.toNat_ofNat]; exact Nat.mod_le ..
    _ ≤ maxi.toNat := by omega

/-- The pixel that a block changes is one of its own: the syndrome and the message are below `2^rows`
(45_syndrome_embed R264). -/
theorem embedTarget_lt {s : State} {i : Nat} {v m : List Bool} (hc : s.cols = 2 ^ s.rows - 1)
    (hv : blockBits s.pix s.a3 (s.blockStart i) s.cols = .ok v) (hm : messageBits s i = .ok m) :
    syn v ^^^ packBits m < 2 ^ s.rows := by
  have hlv := (blockBits_ok.mp hv).1
  have hlm := (fetchFilled_ok.mp hm).1
  have hpos := Nat.two_pow_pos s.rows
  exact Nat.xor_lt_two_pow (syn_lt (by omega)) (hlm ▸ packBits_lt m)

/-- What HEMBED keeps of the pixels: their form, and that the pixels of its `B` blocks are at most MAXI
(45_syndrome_embed R263). -/
def EmbedPixels (s : State) (B : Nat) : Prop :=
  s.pix.Fits (depth s.cfg .pix) ∧ PixelsFit s.pix s.cfg.pixW ∧
    ∀ c x, c < B * s.cols → s.pix.read (s.a2 + c) = some x → x.toNat ≤ s.maxi.toNat

theorem embedBlock_keeps_pixels {s t : State} {B i c : Nat} (hc : s.cols = 2 ^ s.rows - 1) (h0 : s.maxi ≠ 0)
    (hmx : s.maxi.toNat < 2 ^ s.cfg.pixW) (hi : i < B) (hs : EmbedPixels s B) (h : embedBlock s i = .ok (t, c)) :
    EmbedPixels t B := by
  obtain ⟨v, m, hv, hm, ⟨_, rfl, _⟩ | ⟨_, _, x, hx, rfl⟩⟩ := embedBlock_ok.mp h
  · exact hs
  · have ht := embedTarget_lt hc hv hm
    generalize syn v ^^^ packBits m = target at *
    obtain ⟨hfit, hw, hle⟩ := hs
    have hblock : i * s.cols + s.cols ≤ B * s.cols := by
      rw [← Nat.succ_mul]; exact Nat.mul_le_mul_right _ hi
    have hxle : x.toNat ≤ s.maxi.toNat :=
      hle (i * s.cols + (target - 1)) x (by omega) (by rwa [State.blockStart, Nat.add_assoc] at hx)
    obtain ⟨ns, dc, hd⟩ := drawNudge_frame s
    have hy := nudgePixel_le (drawNudge s).1 h0 hxle
    rw [hd]
    refine ⟨hfit.write (hfit.lt_of_read hx) _, hw.write (lt_of_le_of_lt hy hmx) _, fun c x' hcB hr => ?_⟩
    change (Mem.write _ _ _).read _ = _ at hr
    rw [Mem.read_write] at hr
    split at hr
    · cases hr; exact hy
    · exact hle c x' hcB hr

theorem embedBlocks_keeps_pixels {B : Nat} : ∀ {n i c : Nat} {s t : State}, s.cols = 2 ^ s.rows - 1 → s.maxi ≠ 0 →
    s.maxi.toNat < 2 ^ s.cfg.pixW → i + n ≤ B → EmbedPixels s B → embedBlocks i n s = .ok (t, c) →
    EmbedPixels t B := by
  intro n
  induction n with
  | zero =>
    intro i c s t _ _ _ _ hs h
    simp only [embedBlocks, Except.ok.injEq, Prod.mk.injEq] at h
    exact h.1 ▸ hs
  | succ n ih =>
    intro i c s t hc h0 hmx hB hs h
    obtain ⟨u, c1, c2, h1, h2, _⟩ := embedBlocks_succ_ok.mp h
    have hu := embedBlock_keeps_pixels hc h0 hmx (by omega) hs h1
    obtain ⟨pm, ns, dc, rfl⟩ := embedBlock_frame h1
    exact ih (i := i + 1) (s := { s with pix := pm, nstate := ns, drawCount := dc }) hc h0 hmx (by omega) hu h2

/-! ### Commands -/

theorem suffixSlots_bits_length {tail : List Byte} (h : tail.length ≤ 5) :
    ((suffixSlots tail).flatMap bits8).length = 40 := by
  simp only [flatMap_bits8_length, suffixSlots, List.length_append, List.length_replicate]; omega

theorem suffixString_packBytes_length {bits : List Bool} (h : bits.length = 40) :
    (suffixString (packBytes bits)).length ≤ 6 := by
  have h5 := (flatMap_bits8_packBytes 5 bits h).2
  have ht := (List.takeWhile_sublist (fun y : Byte => decide (y ≠ 0)) (l := packBytes bits)).length_le
  simp only [suffixString, List.length_cons]
  omega

/-- HEMBED's pixels after its checks: the matrix gives the block length, the range check the bound MAXI. -/
theorem cmdHembed_pixels {s t : State} (hs : s.Inv) (h : cmdHembed s = .ok t) :
    t.pix.Fits (depth s.cfg .pix) ∧ PixelsFit t.pix s.cfg.pixW := by
  obtain ⟨_, hm, _, hx, hmx, _⟩ := hs
  obtain ⟨hfit, _, _, _, hw⟩ := memoriesWf_iff.mp hm
  obtain ⟨hv, _, h0, _, _, _, px, ⟨hlen, hpx⟩, hle, ⟨u, n⟩, hr, rfl⟩ := cmdHembed_ok.mp h
  have hE : EmbedPixels s s.blocks := by
    refine ⟨hfit, hw, fun c x hc hrd => ?_⟩
    have hpc := hpx c (by omega)
    rw [hrd, Option.some.injEq] at hpc
    exact hle x (hpc ▸ List.getElem_mem _)
  obtain ⟨_, _, hcols⟩ := hx.1 hv
  obtain ⟨hfit', hw', _⟩ := embedBlocks_keeps_pixels hcols h0 hmx (by omega) hE hr
  obtain ⟨pm, ns, dc, rfl⟩ := embedBlocks_frame hr
  exact ⟨hfit', hw'⟩

/-- A command that succeeds keeps the memories' form: what it writes lies in a range that its checks passed or in cells
that it has read. -/
theorem cmdOf_memoriesWf {i : Instr} {s t : State} (hs : s.Inv) (h : cmdOf i s = .ok t) : t.MemoriesWf := by
  have hw := cmdOf_writes h
  have ⟨_, hm, _, _, hmx, _⟩ := hs
  obtain ⟨hp, hb, hy, hi, hpw⟩ := memoriesWf_iff.mp hm
  cases i <;> simp only [cmdOf] at h
  case nop => obtain rfl := hw; exact hm
  case hash | hbest => obtain ⟨_, _, rfl⟩ := hw; exact hm
  case hgen | hcol | hmul | hadd | hfind | hsyn => obtain ⟨_, rfl⟩ := hw; exact hm
  case b2bits =>
    obtain ⟨_, hd, bytes, ⟨hl, _⟩, rfl⟩ := cmdB2bits_ok.mp h
    exact hm.updateBit (hb.writeList (by rw [flatMap_bits8_length, hl]) hd)
  case bits2b =>
    obtain ⟨_, hd, bits, ⟨hl, _⟩, rfl⟩ := cmdBits2b_ok.mp h
    exact hm.updateByte (hy.writeList (flatMap_bits8_packBytes _ bits hl).2.le hd)
  case minbits =>
    obtain ⟨hd, rfl⟩ := cmdMinbits_ok.mp h
    exact hm.updateBit (hb.writeList (by simp) hd)
  case extenc =>
    obtain ⟨_, _, _, hd, _, tail, ⟨hl, _⟩, _, rfl⟩ := cmdExtenc_ok.mp h
    exact hm.updateBit (hb.writeList (suffixSlots_bits_length (by omega)).le (by omega))
  case extdec =>
    obtain ⟨_, _, hd, bits, ⟨hl, _⟩, rfl⟩ := cmdExtdec_ok.mp h
    exact hm.updateByte (hy.writeList (suffixString_packBytes_length hl) hd)
  case nudge =>
    obtain ⟨h0, _, hd, x, hx, hxle, ⟨_, rfl⟩ | ⟨_, rfl⟩⟩ := cmdNudge_ok.mp h
    · exact hm
    · obtain ⟨ns, dc, hdn⟩ := drawNudge_frame s
      rw [hdn]
      have hn := nudgePixel_le (drawNudge s).1 h0 hxle
      exact hm.updatePix (hp.write hd _) (hpw.write (lt_of_le_of_lt hn hmx) _)
  case permfwdBit => obtain ⟨_, m, hsw, rfl⟩ := cmdPermfwdBit_ok.mp h; exact hm.updateBit (hb.swapsDown hsw)
  case permfwdIdx => obtain ⟨_, m, hsw, rfl⟩ := cmdPermfwdIdx_ok.mp h; exact hm.updateIdx (hi.swapsDown hsw)
  case perminvBit => obtain ⟨_, m, hsw, rfl⟩ := cmdPerminvBit_ok.mp h; exact hm.updateBit (hb.swapsUp hsw)
  case perminvIdx => obtain ⟨_, m, hsw, rfl⟩ := cmdPerminvIdx_ok.mp h; exact hm.updateIdx (hi.swapsUp hsw)
  case permidx =>
    obtain ⟨⟨_, hd, _⟩, m, hsw, rfl⟩ := cmdPermidx_ok.mp h
    exact hm.updateIdx ((hi.writeList (by simp [identityTable]) hd).swapsDown hsw)
  case hrow =>
    obtain ⟨_, _, hd, rfl⟩ := cmdHrow_ok.mp h
    exact hm.updateBit (hb.writeList (by simp) hd)
  case hembed =>
    obtain ⟨hp', hpw'⟩ := cmdHembed_pixels hs h
    obtain ⟨m, r, ns, dc, rfl⟩ := hw
    exact hm.updatePix hp' hpw'
  case hextract =>
    obtain ⟨_, _, hd, _, bits, _, rfl⟩ := cmdHextract_ok.mp h
    exact hm.updateBit (hb.writeList (List.length_take_le ..) hd)

/-- HGEN's checks give the matrix registers their form, and no other command writes them (44_hamming_matrix R227). -/
theorem cmdOf_matrixWf {i : Instr} {s t : State} (hs : s.Inv) (h : cmdOf i s = .ok t) : t.MatrixWf := by
  obtain ⟨⟨_, _, _, _, _, ⟨_, hrm⟩, _⟩, _, _, hx, _⟩ := hs
  by_cases hi : i = .hgen
  · subst hi
    obtain ⟨⟨h1, h2⟩, h3, rfl⟩ := cmdHgen_ok.mp h
    have hr : (BitVec.ofNat 6 s.a0).toNat = s.a0 := by rw [BitVec.toNat_ofNat]; omega
    exact ⟨fun _ => by simp only [hr]; exact ⟨h1, h2, h3⟩, fun hv => by cases hv⟩
  · obtain ⟨⟨hc, _⟩, hmat, _⟩ := cmdOf_frame h
    obtain ⟨hr, hv, hl⟩ := hmat hi
    simpa only [State.MatrixWf, hc, hr, hv, hl] using hx

/-! ### The ENGINE's turn -/

/-- A command that succeeds keeps the invariant; PENDING and BUSY are still those of the command. -/
theorem cmdOf_keeps_inv {i : Instr} {s t : State} (hs : s.Inv) (h : cmdOf i s = .ok t) : t.Inv := by
  have hm := cmdOf_memoriesWf hs h
  have hx := cmdOf_matrixWf hs h
  obtain ⟨⟨hc, hcmd, hpend, hst, hmaxi, _, hawait⟩, _, hdb⟩ := cmdOf_frame h
  obtain ⟨hcw, _, hstatus, _, hmx, hd⟩ := hs
  refine ⟨hc ▸ hcw, hm, ?_, hx, by rwa [hmaxi, hc], hdb.elim (·.trans hd) id⟩
  simpa only [State.StatusWf, hst, hcmd, hpend, hawait] using hstatus

/-- The end of the ENGINE step leaves no command pending (40_command_cycle R131). -/
theorem finish_keeps_inv {s : State} (hs : s.Inv) : s.finish.Inv := by
  obtain ⟨hc, hm, ⟨_, hk, he, hl, _⟩, hrest⟩ := hs
  exact ⟨hc, hm, ⟨rfl, hk, he, hl, .inl rfl, fun h => absurd rfl h⟩, hrest⟩

/-- A failed command leaves KIND and ERR as its code gives them (40_command_cycle R132). -/
theorem finish_fail_keeps_inv {s : State} (hs : s.Inv) {d : Detail} (hd : d ≠ .none) : (s.fail d).finish.Inv := by
  obtain ⟨hc, hm, ⟨_, _, _, hl, _⟩, hrest⟩ := hs
  exact ⟨hc, hm, ⟨rfl, rfl, by simp [State.fail, hd], hl, .inl rfl, fun h => absurd rfl h⟩, hrest⟩

theorem engineTurn_keeps_inv {s t : State} (hs : s.Inv) (h : engineTurn s = .next t) : t.Inv := by
  obtain rfl | ⟨i, u, hu, rfl⟩ | ⟨d, hd, rfl⟩ := engineTurn_next h
  · exact hs
  · exact finish_keeps_inv (cmdOf_keeps_inv hs hu)
  · exact finish_fail_keeps_inv hs hd

/-! ### The host's transactions -/

theorem lowBits_lt (n : Nat) (w : Word) : (lowBits n w).toNat < 2 ^ n := by
  rw [lowBits, BitVec.toNat_ofNat]
  exact lt_of_le_of_lt (Nat.mod_le ..) (Nat.mod_lt _ (Nat.two_pow_pos n))

theorem writeCell_memoriesWf {s : State} (hm : s.MemoriesWf) {sp : Space} {a : Nat} (ha : a < depth s.cfg sp)
    (w : Word) : (writeCell s sp a w).MemoriesWf := by
  obtain ⟨hp, hb, hy, hi, hw⟩ := memoriesWf_iff.mp hm
  cases sp with
  | pix => exact hm.updatePix (hp.write ha _) (hw.write (lowBits_lt ..) _)
  | bit => exact hm.updateBit (hb.write ha _)
  | byte => exact hm.updateByte (hy.write ha _)
  | idx => exact hm.updateIdx (hi.write ha _)

theorem writeCell_keeps_inv {s : State} (hs : s.Inv) {sp : Space} {a : Nat} (ha : a < depth s.cfg sp) (w : Word) :
    (writeCell s sp a w).Inv := by
  obtain ⟨hc, hm, hrest⟩ := hs
  have hm' := writeCell_memoriesWf hm ha w
  cases sp <;> exact ⟨hc, hm', hrest⟩

/-- A CMD write starts a command with BUSY 1 and no error (40_command_cycle R130). -/
theorem start_keeps_inv {s : State} (hs : s.Inv) (w : Word) : (s.start w).Inv := by
  obtain ⟨hc, hm, _, hx, hmx, hd⟩ := hs
  exact ⟨hc, hm, ⟨rfl, rfl, rfl, rfl, .inr rfl, fun _ => ⟨rfl, rfl⟩⟩, hx, hmx, hd⟩

theorem writeReg_keeps_inv {s : State} (hs : s.Inv) (w : Word) (r : Reg) : (writeReg s w r).Inv := by
  cases r
  case cmd => exact start_keeps_inv hs w
  case maxi =>
    obtain ⟨hc, hm, hst, hx, _, hd⟩ := hs
    exact ⟨hc, hm, hst, hx, lowBits_lt .., hd⟩
  case mdata =>
    obtain ⟨ha, hw⟩ | hw := writeMdata_cases s w <;> simp only [writeReg, hw]
    · exact writeCell_keeps_inv hs ha w
    · exact hs
  all_goals exact hs

/-- A read leaves the window bit set while a command is pending, because BUSY is 1 then (10_state R51). -/
theorem afterRead_keeps_inv {s : State} (hs : s.Inv) (r : Reg) : (afterRead s r).Inv := by
  obtain ⟨n, a, b, p, hr, hp⟩ := afterRead_frame s r
  rw [hr]
  obtain ⟨hc, hm, ⟨hb, hk, he, hl, hpc, hpe⟩, hrest⟩ := hs
  refine ⟨hc, hm, ⟨hb, hk, he, hl, hpc, fun hne => ⟨(hpe hne).1, ?_⟩⟩, hrest⟩
  obtain rfl | hidle := hp
  · exact (hpe hne).2
  · exact absurd (Option.isSome_iff_ne_none.mpr hne) (by simp [← hb, hidle])

theorem afterReset_keeps_inv {s : State} (hs : s.Inv) : s.afterReset.Inv := by
  obtain ⟨hc, _⟩ := hs
  have hst : State.reset.StatusWf := by decide
  refine ⟨hc, memoriesWf_iff.mpr ?_, hst, ⟨nofun, fun _ => ⟨rfl, rfl⟩⟩, Nat.two_pow_pos _, rfl⟩
  simp [Mem.Fits, PixelsFit, State.reset]

theorem portStep_keeps_inv {s : State} (hs : s.Inv) (tr : Transaction) : (portStep tr s).Inv := by
  cases tr with
  | read off =>
    simp only [portStep]
    split
    · exact hs
    · exact afterRead_keeps_inv hs _
  | write off w =>
    simp only [portStep]
    split
    · exact hs
    · exact writeReg_keeps_inv hs w _
  | reset => exact afterReset_keeps_inv hs

theorem hostStep_keeps_inv {s : State} (hs : s.Inv) (tr : Transaction) : (hostStep tr s).Inv := by
  obtain ⟨_, _, h⟩ | ⟨_, h⟩ := hostStep_cases tr s <;> rw [h]
  · exact hs
  · exact portStep_keeps_inv hs tr

/-- Settles O15: the host's transactions and the ENGINE's turn each keep the invariant. -/
theorem stepKeepsInvariant : Obligations.StepKeepsInvariant := by
  intro s t hs h
  obtain ⟨tr, rest, _, rfl⟩ | ⟨rest, he⟩ := step_next h
  · exact hostStep_keeps_inv (s := { s with inbox := rest }) hs tr
  · exact engineTurn_keeps_inv (s := { s with inbox := rest }) hs he

end Sys2Proof.Machine
end

section
/-! PROOFS. Register writes, reset, and the words read from fields (10_state R32 to R46, R54; 20_memory R80, R83). -/

namespace Sys2Proof.Machine

/-! ### Register writes -/

/-- While BUSY = 0 a write at a register's offset is that register's write (20_memory R80). -/
theorem step_write {s : State} {off : BitVec 8} {w : Word} {rest : List Event} {r : Reg}
    (hi : s.inbox = .transact (.write off w) :: rest) (hb : s.status.busy = false) (hr : regAt off = some r) :
    step s = .next (writeReg { s with inbox := rest } w r) := by
  rw [step_transact hi, hostStep_idle (s := { s with inbox := rest }) hb]
  simp only [portStep, hr]

/-- Settles O6: the write at 0x04 is CMD's, which is the command start. -/
theorem cmdWriteStartsCommand : Obligations.CmdWriteStartsCommand := by
  intro s w rest hi hb
  exact step_write hi hb (by decide : regAt 0x04 = some .cmd)

theorem lowBits_getLsbD (n : Nat) (w : Word) (k : Nat) : (lowBits n w).getLsbD k = (decide (k < n) && w.getLsbD k) := by
  rw [lowBits, BitVec.getLsbD_ofNat, Nat.testBit_mod_two_pow, ← BitVec.getLsbD]
  by_cases hk : k < 32
  · simp only [hk, decide_true, Bool.true_and]
  · rw [BitVec.getLsbD_of_ge w k (Nat.not_lt.mp hk)]; simp

/-- MSPACE takes the space whose code stands in bits 1:0 (10_state R45). -/
theorem spaceOf_eq {w : Word} {sp : Space} (h : w.extractLsb' 0 2 = sp.code.setWidth 2) : spaceOf w = sp := by
  have hm : w.toNat % 4 = (sp.code.setWidth 2).toNat := by rw [← h]; simp
  unfold spaceOf; rw [hm]; cases sp <;> rfl

/-- Settles O23: each offset is its register's, and the register's write stores as its rule says. -/
theorem registerWritesStore : Obligations.RegisterWritesStore := by
  intro s rest w hb
  refine ⟨fun hi => step_write hi hb (by decide : regAt 0x10 = some .arg0),
    fun hi => step_write hi hb (by decide : regAt 0x14 = some .arg1),
    fun hi => step_write hi hb (by decide : regAt 0x18 = some .arg2),
    fun hi => step_write hi hb (by decide : regAt 0x1C = some .arg3),
    fun hi => step_write hi hb (by decide : regAt 0x2C = some .seed),
    fun hi => step_write hi hb (by decide : regAt 0x34 = some .nseed),
    fun hi => step_write hi hb (by decide : regAt 0x44 = some .maddr),
    fun hi => ⟨_, step_write hi hb (by decide : regAt 0x30 = some .maxi), lowBits_getLsbD s.cfg.pixW w⟩,
    fun hi => ⟨_, step_write hi hb (by decide : regAt 0x40 = some .mspace), ?_⟩⟩
  exact ⟨fun h => spaceOf_eq h, fun h => spaceOf_eq h, fun h => spaceOf_eq h, fun h => spaceOf_eq h⟩

/-! ### Reset -/

/-- Settles O18: the reset transaction is never a hazard, and it writes the reset values. -/
theorem resetValues : Obligations.ResetValues := by
  constructor
  · rintro s rfl
    exact ⟨rfl, by decide, rfl, rfl, rfl, rfl, rfl, rfl, rfl, rfl, rfl, rfl, rfl, rfl, rfl, rfl, rfl, rfl, rfl,
      fun a => ⟨rfl, rfl, rfl, rfl⟩⟩
  · intro s rest hi
    rw [step_transact hi, hostStep_harmless rfl]
    rfl

/-! ### Words built from fields -/

/-- A field is read back at its place. -/
theorem extractLsb'_placeAt_self {n lo : Nat} (x : BitVec n) (h : lo + n ≤ 32) :
    (placeAt lo x).extractLsb' lo n = x := by
  apply BitVec.eq_of_getLsbD_eq
  intro i hi
  simp only [BitVec.getLsbD_extractLsb', getLsbD_placeAt, hi, show lo + i < 32 by omega, Nat.le_add_right,
    Nat.add_sub_cancel_left, decide_true, Bool.true_and]

/-- A field leaves the bits outside its place 0. -/
theorem extractLsb'_placeAt_disjoint {n lo a l : Nat} (x : BitVec n) (h : a + l ≤ lo ∨ lo + n ≤ a) :
    (placeAt lo x).extractLsb' a l = 0 := by
  apply BitVec.eq_of_getLsbD_eq
  intro i hi
  simp only [BitVec.getLsbD_extractLsb', getLsbD_placeAt, BitVec.ofNat_eq_ofNat, BitVec.getLsbD_zero]
  rcases h with h | h
  · simp [show ¬lo ≤ a + i by omega]
  · simp [BitVec.getLsbD_of_ge x (a + i - lo) (by omega)]

/-- The three one-bit fields of STATUS (10_state R32). -/
theorem statusWord_bits (st : Status) : (statusWord st).getLsbD 0 = st.busy ∧ (statusWord st).getLsbD 1 = st.err ∧
    (statusWord st).getLsbD 8 = st.haf := by
  simp [statusWord, getLsbD_placeAt, -BitVec.getLsbD_eq_getElem]

/-- The wider fields of STATUS and its reserved bits (10_state R32). -/
theorem statusWord_fields (st : Status) : (statusWord st).extractLsb' 2 3 = st.kind.code ∧
    (statusWord st).extractLsb' 5 3 = 0 ∧ (statusWord st).extractLsb' 9 7 = 0 ∧
    (statusWord st).extractLsb' 16 8 = st.detail.code ∧ (statusWord st).extractLsb' 24 8 = st.lastop := by
  simp [statusWord, BitVec.extractLsb'_or, extractLsb'_placeAt_self, extractLsb'_placeAt_disjoint]

/-- The fields of CFG and its reserved bits (10_state R33). -/
theorem cfgWord_fields (p : Config.Params) : (cfgWord p).extractLsb' 0 6 = BitVec.ofNat 6 p.rowsMax ∧
    (cfgWord p).extractLsb' 6 2 = 0 ∧ (cfgWord p).extractLsb' 8 6 = BitVec.ofNat 6 p.pixW ∧
    (cfgWord p).extractLsb' 14 2 = 0 ∧ (cfgWord p).extractLsb' 18 14 = 0 := by
  simp [cfgWord, BitVec.extractLsb'_or, extractLsb'_placeAt_self, extractLsb'_placeAt_disjoint]

theorem cfgWord_bits (p : Config.Params) :
    (cfgWord p).getLsbD 16 = p.hash64 ∧ (cfgWord p).getLsbD 17 = p.charSigned := by
  simp [cfgWord, getLsbD_placeAt, -BitVec.getLsbD_eq_getElem]

/-- The fields of HCFG and its reserved bits (10_state R42). -/
theorem hcfgWord_fields (valid : Bool) (rows : BitVec 6) : (hcfgWord valid rows).extractLsb' 0 6 = rows ∧
    (hcfgWord valid rows).extractLsb' 6 25 = 0 ∧ (hcfgWord valid rows).getLsbD 31 = valid := by
  refine ⟨?_, ?_, ?_⟩
  · simp [hcfgWord, BitVec.extractLsb'_or, extractLsb'_placeAt_self, extractLsb'_placeAt_disjoint]
  · simp [hcfgWord, BitVec.extractLsb'_or, extractLsb'_placeAt_disjoint]
  · simp [hcfgWord, getLsbD_placeAt, -BitVec.getLsbD_eq_getElem]

/-- Settles O20: the fields are read back at their places, and the two tables of numbers are those of the model. -/
theorem statusCfgHcfgLayout : Obligations.StatusCfgHcfgLayout := by
  refine ⟨fun st => ?_, fun d => by cases d <;> rfl, fun p hp => ?_, hcfgWord_fields⟩
  · obtain ⟨hbusy, herr, hhaf⟩ := statusWord_bits st
    obtain ⟨hkind, h5, h9, hdetail, hlastop⟩ := statusWord_fields st
    refine ⟨hbusy, herr, h5, hhaf, h9, hlastop, hkind.trans ?_, hdetail.trans ?_⟩
    · cases st.kind <;> rfl
    · cases st.detail <;> rfl
  · obtain ⟨⟨_, hpix⟩, _, _, _, _, ⟨_, hrows⟩, _⟩ := hp
    obtain ⟨hr, h6, hp, h14, h18⟩ := cfgWord_fields p
    obtain ⟨h16, h17⟩ := cfgWord_bits p
    exact ⟨by rw [hr, BitVec.toNat_ofNat]; omega, h6, by rw [hp, BitVec.toNat_ofNat]; omega, h14, h16, h17, h18⟩

end Sys2Proof.Machine
end

section
/-! PROOFS. PSTATE and DRAWBUF are never observed: every command that draws seeds its generator first, and PERMINV fills
DRAWBUF before it reads it (10_state R48, R49; 43_permutation R203). -/

namespace Sys2Proof.Machine

/-- The state with other contents of PSTATE and DRAWBUF. -/
def State.withGenerator (s : State) (p : Nat) (b : List Nat) : State := { s with pstate := p, drawBuf := b }

/-- Two states that differ in PSTATE and DRAWBUF at most. -/
def SameButGenerator (s t : State) : Prop := ∃ p b, t = s.withGenerator p b

/-- Two parts of commands end alike: with related values, or with the same stop. -/
def EndAlike {α : Type} (R : α → α → Prop) : Cmd α → Cmd α → Prop
  | .ok a, .ok a' => R a a'
  | .error e, .error e' => e = e'
  | .ok _, .error _ => False
  | .error _, .ok _ => False

section EndAlike

variable {α β : Type} {R : α → α → Prop} {S : β → β → Prop}

theorem EndAlike.value {a a' : α} (h : R a a') : EndAlike R (pure a) (pure a') := h

theorem EndAlike.bind {c c' : Cmd α} {k k' : α → Cmd β} (hc : EndAlike R c c')
    (hk : ∀ a a', R a a' → EndAlike S (k a) (k' a')) : EndAlike S (c >>= k) (c' >>= k') := by
  cases c <;> cases c'
  case ok.ok a a' => exact hk a a' hc
  case error.error e e' => exact hc
  all_goals exact hc.elim

/-- The same check, read or computation comes first. -/
theorem EndAlike.same (c : Cmd α) {k k' : α → Cmd β} (h : ∀ a, EndAlike S (k a) (k' a)) :
    EndAlike S (c >>= k) (c >>= k') := by
  cases c with
  | error e => rfl
  | ok a => exact h a

/-- The same condition decides between parts that end alike. -/
theorem EndAlike.ite (p : Prop) [Decidable p] {c c' d d' : Cmd α} (h1 : EndAlike R c c') (h2 : EndAlike R d d') :
    EndAlike R (if p then c else d) (if p then c' else d') := by
  split <;> assumption

end EndAlike

/-- A nudge draw sees neither field. -/
theorem drawNudge_withGenerator (s : State) (p : Nat) (b : List Nat) :
    drawNudge (s.withGenerator p b) = ((drawNudge s).1, (drawNudge s).2.withGenerator p b) := by
  cases h : s.cfg.nudgeSrc <;> simp only [drawNudge, State.withGenerator, h]
  exact Prod.ext (decide_eq_decide.mpr Iff.rfl) rfl

/-- States and counts of changed pixels that HEMBED's loop carries. -/
def SameEmbedding (r r' : State × Nat) : Prop := SameButGenerator r.1 r'.1 ∧ r'.2 = r.2

theorem embedBlock_alike {s t : State} (h : SameButGenerator s t) (i : Nat) :
    EndAlike SameEmbedding (embedBlock s i) (embedBlock t i) := by
  obtain ⟨p, b, rfl⟩ := h
  refine .same (blockBits ..) fun v => .same (messageBits s i) fun m => ?_
  dsimp only
  split
  · exact .value ⟨⟨p, b, rfl⟩, rfl⟩
  · refine .same (fetch ..) fun x => .value ⟨⟨p, b, ?_⟩, rfl⟩
    rw [drawNudge_withGenerator]
    rfl

/-- The loop as a sequence: a block, then the blocks after it. -/
theorem embedBlocks_succ (i n : Nat) (s : State) : embedBlocks i (n + 1) s =
    (embedBlock s i >>= fun r => embedBlocks (i + 1) n r.1 >>= fun r' => pure (r'.1, r.2 + r'.2)) := by
  rw [embedBlocks]
  cases embedBlock s i with
  | error e => rfl
  | ok r =>
    simp only [ok_bind]
    cases embedBlocks (i + 1) n r.1 <;> rfl

theorem embedBlocks_alike : ∀ {n i : Nat} {s t : State}, SameButGenerator s t →
    EndAlike SameEmbedding (embedBlocks i n s) (embedBlocks i n t) := by
  intro n
  induction n with
  | zero => intro i s t h; exact ⟨h, rfl⟩
  | succ n ih =>
    intro i s t h
    rw [embedBlocks_succ, embedBlocks_succ]
    exact .bind (embedBlock_alike h i) fun r r' hr => .bind (ih hr.1) fun u u' hu =>
      .value ⟨hu.1, by simp only [hr.2, hu.2]⟩

/-- HEXTRACT's loop sees neither field. -/
theorem extractBlocks_withGenerator (s : State) (p : Nat) (b : List Nat) : ∀ n i : Nat,
    extractBlocks (s.withGenerator p b) i n = extractBlocks s i n := by
  intro n
  induction n with
  | zero => intro i; rfl
  | succ n ih => intro i; rw [extractBlocks, ih, extractBlocks]; rfl

/-! ### Commands -/

/-- Every command ends alike from two states that differ in PSTATE and DRAWBUF at most. -/
theorem cmdOf_alike (i : Instr) (s : State) (p : Nat) (b : List Nat) :
    EndAlike SameButGenerator (cmdOf i s) (cmdOf i (s.withGenerator p b)) := by
  cases i
  case nop | hbest | hadd => exact ⟨p, b, rfl⟩
  case b2bits | bits2b =>
    exact .same (need ..) fun _ => .same (need ..) fun _ => .same (fetchList ..) fun _ => .value ⟨p, b, rfl⟩
  case minbits => exact .same (need ..) fun _ => .value ⟨p, b, rfl⟩
  case extenc =>
    exact .same (require ..) fun _ => .same (require ..) fun _ => .same (need ..) fun _ => .same (need ..) fun _ =>
      .same (fetch ..) fun _ => .same (require ..) fun _ => .same (fetchList ..) fun _ => .same (require ..) fun _ =>
      .value ⟨p, b, rfl⟩
  case extdec =>
    exact .same (require ..) fun _ => .same (need ..) fun _ => .same (need ..) fun _ => .same (fetchList ..) fun _ =>
      .value ⟨p, b, rfl⟩
  case nudge =>
    refine .same (require ..) fun _ => .same (require ..) fun _ => .same (need ..) fun _ => .same (fetch ..) fun x =>
      .same (require ..) fun _ => .ite ((lsb x).toNat = s.a1) (.value ⟨p, b, rfl⟩) ?_
    dsimp only
    rw [drawNudge_withGenerator]
    exact .value ⟨p, b, rfl⟩
  case hash => exact .same (need ..) fun _ => .same (fetchList ..) fun _ => .value ⟨p, b, rfl⟩
  case permfwdBit | permfwdIdx | permidx =>
    exact .same (permChecks ..) fun _ => .same (permForward ..) fun r => .value ⟨r.2, b, rfl⟩
  case perminvBit | perminvIdx =>
    exact .same (permChecks ..) fun _ => .same (permInverse ..) fun _ => .value ⟨_, [], rfl⟩
  case hgen => exact .same (require ..) fun _ => .same (require ..) fun _ => .value ⟨p, b, rfl⟩
  case hcol => exact .same (needMatrix s) fun _ => .same (require ..) fun _ => .value ⟨p, b, rfl⟩
  case hrow =>
    exact .same (needMatrix s) fun _ => .same (require ..) fun _ => .same (need ..) fun _ => .value ⟨p, b, rfl⟩
  case hmul =>
    exact .same (needMatrix s) fun _ => .same (need ..) fun _ => .same (fetchList ..) fun _ => .value ⟨p, b, rfl⟩
  case hfind => exact .same (needMatrix s) fun _ => .same (findColumn ..) fun _ => .value ⟨p, b, rfl⟩
  case hsyn =>
    exact .same (needMatrix s) fun _ => .same (need ..) fun _ => .same (blockBits ..) fun _ => .value ⟨p, b, rfl⟩
  case hembed =>
    refine .same (needMatrix s) fun _ => .same (needUsefulCode s) fun _ => .same (require ..) fun _ =>
      .same (need ..) fun _ => .same (need ..) fun _ => .same (require ..) fun _ => .same (fetchList ..) fun _ =>
      .same (require ..) fun _ => .bind (embedBlocks_alike ⟨p, b, rfl⟩) fun r r' hr => ?_
    obtain ⟨⟨p', b', hst⟩, hcount⟩ := hr
    exact .value ⟨p', b', by rw [hst, hcount]; rfl⟩
  case hextract =>
    refine .same (needMatrix s) fun _ => .same (needUsefulCode s) fun _ => .same (need ..) fun _ =>
      .same (need ..) fun _ => ?_
    rw [extractBlocks_withGenerator]
    exact .same (extractBlocks s 0 s.blocks) fun _ => .value ⟨p, b, rfl⟩

/-- Settles O14: the outcome of a command is read off how it ends. -/
theorem generatorStateNeverObserved : Obligations.GeneratorStateNeverObserved := by
  intro i s p b
  have h := cmdOf_alike i s p b
  have hs : { s with pstate := p, drawBuf := b } = s.withGenerator p b := rfl
  simp only [hs, exec_eq_runCmd]
  cases h1 : cmdOf i s <;> cases h2 : cmdOf i (s.withGenerator p b) <;> rw [h1, h2] at h
  case ok.ok t t' =>
    obtain ⟨p', b', rfl⟩ := h
    refine ⟨fun u hu => ⟨p', b', ?_⟩, fun f hf => ?_⟩
    · cases hu; rfl
    · cases hf
  case error.error e e' =>
    obtain rfl := h
    refine ⟨fun u hu => ?_, fun f hf => ?_⟩
    · cases e with
      | raise d => cases hu; exact ⟨p, b, rfl⟩
      | uninit sp a => cases hu
    · cases e with
      | raise d => cases hf
      | uninit sp a => exact hf
  all_goals exact h.elim

end Sys2Proof.Machine
end

section
/-! PROOFS. A command stops with UninitRead exactly at a cell it reads that was never written (10_state R55,
60_exceptions R309; log 6): for each command that reads a memory, where it stops once its checks have passed. -/

namespace Sys2Proof.Machine

section Commands

variable {s : State} {k : Nat}

/-- A command whose meaning stops at an unwritten cell faults there. -/
theorem exec_uninit {i : Instr} {sp : Space} {a : Nat} (h : cmdOf i s = .error (.uninit sp a)) :
    exec i s = .fault (.uninitRead sp a) := exec_fault.mpr ⟨sp, a, h, rfl⟩

/-! ### Commands that read one range -/

theorem cmdB2bits_unwritten (h1 : s.a0 + s.a1 ≤ depth s.cfg .byte) (h2 : s.a2 + 8 * s.a1 ≤ depth s.cfg .bit)
    (h : Mem.FirstUnwritten s.byte s.a0 s.a1 k) : cmdB2bits s = .error (.uninit .byte (s.a0 + k)) := by
  rw [cmdB2bits, need_pass h1, need_pass h2, fetchList_unwritten h, error_bind]

theorem cmdBits2b_unwritten (h1 : s.a0 + s.a1 ≤ depth s.cfg .bit) (h2 : s.a2 + s.a1 / 8 ≤ depth s.cfg .byte)
    (h : s.bit.FirstUnwritten s.a0 (8 * (s.a1 / 8)) k) : cmdBits2b s = .error (.uninit .bit (s.a0 + k)) := by
  rw [cmdBits2b, need_pass h1, need_pass h2, fetchList_unwritten h, error_bind]

/-- EXTENC reads its first byte by itself, and the others once that is the dot (41_codec R158; log 6). -/
theorem cmdExtenc_unwritten (h1 : 1 ≤ s.a1) (h5 : s.a1 ≤ 5) (hy : s.a0 + s.a1 ≤ depth s.cfg .byte)
    (hb : s.a2 + (s.a3 + 40) ≤ depth s.cfg .bit) (h : Mem.FirstUnwritten s.byte s.a0 s.a1 k)
    (hdot : k ≠ 0 → Mem.read s.byte s.a0 = some 0x2E) : cmdExtenc s = .error (.uninit .byte (s.a0 + k)) := by
  rw [cmdExtenc, require_pass h5, require_pass (by omega), need_pass hy, need_pass hb]
  cases k with
  | zero => exact bind_error.mpr (.inl (fetch_error.mpr ⟨h.2.1, rfl⟩))
  | succ k =>
    obtain ⟨n, hn⟩ := Nat.exists_eq_add_of_le' h1
    have ht : Mem.FirstUnwritten s.byte (s.a0 + 1) (s.a1 - 1) k := by
      rw [hn, Nat.add_sub_cancel]; exact (hn ▸ h).tail
    rw [fetch_ok.mpr (hdot (Nat.succ_ne_zero k)), ok_bind, require_pass rfl, fetchList_unwritten ht, error_bind,
      Nat.add_assoc, Nat.add_comm 1 k]

theorem cmdExtdec_unwritten (h40 : 40 ≤ s.a1) (hb : s.a0 + s.a1 ≤ depth s.cfg .bit) (hy : s.a2 + 6 ≤ depth s.cfg .byte)
    (h : s.bit.FirstUnwritten (s.a0 + (s.a1 - 40)) 40 k) :
    cmdExtdec s = .error (.uninit .bit (s.a0 + (s.a1 - 40) + k)) := by
  rw [cmdExtdec, require_pass h40, need_pass hb, need_pass hy, Nat.add_sub_assoc h40, fetchList_unwritten h, error_bind]

theorem cmdNudge_unwritten (h0 : s.maxi ≠ 0) (h1 : s.a1 ≤ 1) (hp : s.a0 + 1 ≤ depth s.cfg .pix)
    (h : s.pix.read s.a0 = none) : cmdNudge s = .error (.uninit .pix s.a0) := by
  rw [cmdNudge, require_pass h0, require_pass h1, need_pass hp, fetch_error.mpr ⟨h, rfl⟩, error_bind]

theorem cmdHash_unwritten (h1 : s.a0 + s.a1 ≤ depth s.cfg .byte) (h : Mem.FirstUnwritten s.byte s.a0 s.a1 k) :
    cmdHash s = .error (.uninit .byte (s.a0 + k)) := by
  rw [cmdHash, need_pass h1, fetchList_unwritten h, error_bind]

theorem cmdHmul_unwritten (hv : s.hvalid = true) (hb : s.a0 + s.cols ≤ depth s.cfg .bit)
    (h : s.bit.FirstUnwritten s.a0 s.cols k) : cmdHmul s = .error (.uninit .bit (s.a0 + k)) := by
  rw [cmdHmul, needMatrix, require_pass hv, need_pass hb, fetchList_unwritten h, error_bind]

theorem cmdHsyn_unwritten (hv : s.hvalid = true) (hp : s.a1 ≤ depth s.cfg .pix) (h : s.pix.FirstUnwritten s.a0 s.cols k)
    (hd : s.a0 + k < s.a1) : cmdHsyn s = .error (.uninit .pix (s.a0 + k)) := by
  rw [cmdHsyn, needMatrix, require_pass hv, need_pass (by rwa [Nat.zero_add]), blockBits_unwritten h hd, error_bind]

/-! ### Permutations -/

section Perm

variable {α : Type} {sp : Space} {base start N : Nat}

/-- Draws of a range lie in it (43_permutation R192). -/
theorem drawsDown_mem (g : Config.Prng) : ∀ {k st j : Nat}, j ∈ (drawsDown g start k st).1 →
    start ≤ j ∧ j < start + k := by
  intro k
  induction k with
  | zero => intro st j h; simp [drawsDown] at h
  | succ k ih =>
    intro st j h
    rw [drawsDown_succ, List.mem_cons] at h
    obtain rfl | h := h
    · have := drawPerm_mem g (st := st) (show start ≤ start + k by omega); omega
    · have := ih h; omega

theorem swapCells_error_mem {m : Mem α} {i j : Nat} {e : Stop} (hi : start ≤ i ∧ i < N) (hj : start ≤ j ∧ j < N)
    (h : swapCells sp m (base + i) (base + j) = .error e) : ∃ q, start ≤ q ∧ q < N ∧ e = .uninit sp (base + q) := by
  obtain ⟨_, _, rfl, rfl | rfl⟩ := swapCells_error h
  · exact ⟨i, hi.1, hi.2, rfl⟩
  · exact ⟨j, hj.1, hj.2, rfl⟩

/-- Swaps of positions in a range stop at a cell of the range. -/
theorem swapsDown_error_mem : ∀ {js : List Nat} {m : Mem α} {e : Stop}, (∀ j ∈ js, start ≤ j ∧ j < N) →
    start + js.length ≤ N → swapsDown sp base start js m = .error e →
    ∃ q, start ≤ q ∧ q < N ∧ e = .uninit sp (base + q) := by
  intro js
  induction js with
  | nil => intro m e _ _ h; cases h
  | cons j js ih =>
    intro m e hj hN h
    obtain ⟨hj, hjs⟩ := List.forall_mem_cons.mp hj
    rw [List.length_cons] at hN
    simp only [swapsDown] at h
    split at h
    case h_1 hs => cases h; exact swapCells_error_mem ⟨by omega, by omega⟩ hj hs
    case h_2 => exact ih hjs (by omega) h

theorem swapsUp_error_mem : ∀ {js : List Nat} {i : Nat} {m : Mem α} {e : Stop}, (∀ j ∈ js, start ≤ j ∧ j < N) →
    start ≤ i → i + js.length ≤ N → swapsUp sp base i js m = .error e →
    ∃ q, start ≤ q ∧ q < N ∧ e = .uninit sp (base + q) := by
  intro js
  induction js with
  | nil => intro i m e _ _ _ h; cases h
  | cons j js ih =>
    intro i m e hj hi hN h
    obtain ⟨hj, hjs⟩ := List.forall_mem_cons.mp hj
    rw [List.length_cons] at hN
    simp only [swapsUp] at h
    split at h
    case h_1 hs => cases h; exact swapCells_error_mem ⟨hi, by omega⟩ hj hs
    case h_2 => exact ih hjs (by omega) (by omega) h

theorem drawSequence_mem {n j : Nat} (h : start ≤ n) (hj : j ∈ (drawSequence s n start).1) : start ≤ j ∧ j < n := by
  have := drawsDown_mem _ hj; omega

/-- The forward permutation of a range with an unwritten cell stops at one of the range (43_permutation R196; log 6). -/
theorem permForward_unwritten {m : Mem α} (h1 : s.a2 ≤ k) (h2 : k < s.a1) (h : m.read (s.a0 + k) = none) :
    ∃ q, s.a2 ≤ q ∧ q < s.a1 ∧ permForward s sp m = .error (.uninit sp (s.a0 + q)) := by
  have hlen := drawSequence_length s s.a1 s.a2
  cases hs : swapsDown sp s.a0 s.a2 (drawSequence s s.a1 s.a2).1 m with
  | ok m' => exact absurd hs (swapsDown_unwritten h1 (by omega) h m')
  | error e =>
    obtain ⟨q, hq1, hq2, rfl⟩ := swapsDown_error_mem (fun j => drawSequence_mem (by omega)) (by omega) hs
    exact ⟨q, hq1, hq2, by simp only [permForward, hs, error_bind]⟩

/-- The inverse permutation likewise, its draws read back from DRAWBUF (43_permutation R197; log 6). -/
theorem permInverse_unwritten {m : Mem α} (h1 : s.a2 ≤ k) (h2 : k < s.a1) (h : m.read (s.a0 + k) = none) :
    ∃ q, s.a2 ≤ q ∧ q < s.a1 ∧ permInverse (fillDrawBuf s) sp m = .error (.uninit sp (s.a0 + q)) := by
  have hlen := drawSequence_length s s.a1 s.a2
  change ∃ q, _ ∧ _ ∧ swapsUp sp s.a0 s.a2 (drawSequence s s.a1 s.a2).1.reverse m = _
  cases hs : swapsUp sp s.a0 s.a2 (drawSequence s s.a1 s.a2).1.reverse m with
  | ok m' => exact absurd hs (swapsUp_unwritten h1 (by rw [List.length_reverse]; omega) h m')
  | error e =>
    obtain ⟨q, hq1, hq2, rfl⟩ := swapsUp_error_mem (N := s.a1)
      (fun j hj => drawSequence_mem (by omega) (List.mem_reverse.mp hj)) le_rfl
      (by rw [List.length_reverse]; omega) hs
    exact ⟨q, hq1, hq2, rfl⟩

/-- A permutation whose checks pass faults where its swaps stop. -/
theorem exec_perm_unwritten {β : Type} {i : Instr} {c : Cmd β} {f : β → Cmd State}
    (hi : cmdOf i s = (permChecks s sp >>= fun _ => c >>= f)) (hok : s.PermOperandsOk (depth s.cfg sp))
    (h : ∃ q, s.a2 ≤ q ∧ q < s.a1 ∧ c = .error (.uninit sp (s.a0 + q))) :
    ∃ q, s.a2 ≤ q ∧ q < s.a1 ∧ exec i s = .fault (.uninitRead sp (s.a0 + q)) := by
  obtain ⟨q, hq1, hq2, hq⟩ := h
  exact ⟨q, hq1, hq2, exec_uninit (by rw [hi, permChecks_ok (u := ()).mpr hok, ok_bind, hq, error_bind])⟩

end Perm

/-! ### Syndrome embedding -/

/-- `ceil_div` counts the blocks that hold a payload bit (45_syndrome_embed R261). -/
theorem blocks_eq {B : Nat} (h : s.BlockCount B) : s.blocks = B := by
  obtain ⟨h1, h2⟩ := h
  exact Nat.div_eq_of_lt_le (by simp only [State.a1, State.rows]; omega)
    (by rw [Nat.succ_mul]; simp only [State.a1, State.rows]; omega)

theorem not_small_of_usefulCode (h : s.UsefulCode) : ¬(s.rows ≤ 1 ∨ s.cols ≤ 2) := by
  obtain ⟨_, hr, hc⟩ := h
  have := Nat.pow_le_pow_right (n := 2) (by omega) hr
  simp only [State.rows, State.cols]; omega

section Embed

variable {B : Nat} (hu : s.UsefulCode) (hB : s.BlockCount B) (hb : s.a0 + s.a1 ≤ depth s.cfg .bit)
  (hp : s.a3 ≤ depth s.cfg .pix)
include hu hB hb hp

/-- HEMBED's range check reads every pixel of the blocks (45_syndrome_embed R263; log 6). -/
theorem cmdHembed_unwritten_pixel (h0 : s.maxi ≠ 0) (hd : s.a2 + B * s.cols ≤ s.a3)
    (h : s.pix.FirstUnwritten s.a2 (B * s.cols) k) : cmdHembed s = .error (.uninit .pix (s.a2 + k)) := by
  rw [cmdHembed, needMatrix, require_pass hu.1, needUsefulCode, require_pass (not_small_of_usefulCode hu),
    require_pass h0, need_pass hb, need_pass (by rwa [Nat.zero_add]), blocks_eq hB, require_pass hd, fetchList_unwritten h,
    error_bind]

/-- HEMBED reads the payload block by block, once the range check has passed (45_syndrome_embed R262 to R264). -/
theorem cmdHembed_unwritten_bit {px : List Word} (h0 : s.maxi ≠ 0) (hd : s.a2 + B * s.cols ≤ s.a3)
    (hl : px.length = B * s.cols) (hpx : s.pix.Holds s.a2 px) (hle : ∀ x ∈ px, x.toNat ≤ s.maxi.toNat)
    (h : s.bit.FirstUnwritten s.a0 s.a1 k) : cmdHembed s = .error (.uninit .bit (s.a0 + k)) := by
  have hall : px.all (fun x => x.toNat ≤ s.maxi.toNat) = true := by simpa using hle
  have hread : embedBlocks 0 B s = .error (.uninit .bit (s.a0 + k)) :=
    embedBlocks_unwritten hu.2.2 (by omega) (by rw [Nat.zero_add]; exact lt_of_lt_of_le h.1 hB.1) h
      (fun c _ hc => by rw [Nat.zero_add] at hc; rw [hpx c (by omega)]; simp)
  rw [cmdHembed, needMatrix, require_pass hu.1, needUsefulCode, require_pass (not_small_of_usefulCode hu),
    require_pass h0, need_pass hb, need_pass (by rwa [Nat.zero_add]), blocks_eq hB, require_pass hd,
    fetchList_ok.mpr ⟨hl, hpx⟩, ok_bind, require_pass hall, hread, error_bind]

/-- HEXTRACT reads the pixels of its blocks below the dimension (45_syndrome_embed R266 to R268). -/
theorem cmdHextract_unwritten (h : s.pix.FirstUnwritten s.a2 (B * s.cols) k) (hd : s.a2 + k < s.a3) :
    cmdHextract s = .error (.uninit .pix (s.a2 + k)) := by
  have hstart : s.blockStart 0 = s.a2 := by rw [State.blockStart, Nat.zero_mul, Nat.add_zero]
  have hread := extractBlocks_unwritten (s := s) (i := 0) (by rwa [hstart]) (by rwa [hstart])
  rw [cmdHextract, needMatrix, require_pass hu.1, needUsefulCode, require_pass (not_small_of_usefulCode hu),
    need_pass hb, need_pass (by rwa [Nat.zero_add]), blocks_eq hB, hread, error_bind, hstart]

end Embed

end Commands

/-- Settles O11: how a command may stop gives the first part, and the second is one lemma for each command. -/
theorem uninitReadIsUnwrittenCell : Obligations.UninitReadIsUnwrittenCell := by
  constructor
  · intro i s sp a h
    obtain ⟨sp', a', hc, hf⟩ := exec_fault.mp h
    cases hf
    have hr : reads i s sp a := cmdOf_error hc
    cases sp <;> exact hr
  · intro s k B
    refine ⟨fun h1 h2 h => exec_uninit (cmdB2bits_unwritten h1 h2 h),
      fun h1 h2 h => exec_uninit (cmdBits2b_unwritten h1 h2 h),
      fun h1 h5 hy hb h hdot => exec_uninit (cmdExtenc_unwritten h1 h5 hy hb h hdot),
      fun h40 hb hy h => exec_uninit (cmdExtdec_unwritten h40 hb hy h),
      fun h0 h1 hp h => exec_uninit (cmdNudge_unwritten h0 h1 hp h),
      fun h1 h => exec_uninit (cmdHash_unwritten h1 h), fun i hi hok h1 h2 h => ?_, fun i hi hok h1 h2 h => ?_,
      fun hv hb h => exec_uninit (cmdHmul_unwritten hv hb h),
      fun hv hp h hd => exec_uninit (cmdHsyn_unwritten hv hp h hd),
      fun hu hB hb hp => ⟨fun h0 hd h => exec_uninit (cmdHembed_unwritten_pixel hu hB hb hp h0 hd h),
        fun px h0 hd hl hpx hle h => exec_uninit (cmdHembed_unwritten_bit hu hB hb hp h0 hd hl hpx hle h),
        fun h hd => exec_uninit (cmdHextract_unwritten hu hB hb hp h hd)⟩⟩
    · obtain rfl | rfl := List.mem_pair.mp hi
      · exact exec_perm_unwritten rfl hok (permForward_unwritten h1 h2 h)
      · exact exec_perm_unwritten rfl hok (permInverse_unwritten h1 h2 h)
    · obtain rfl | rfl := List.mem_pair.mp hi
      · exact exec_perm_unwritten rfl hok (permForward_unwritten h1 h2 h)
      · exact exec_perm_unwritten rfl hok (permInverse_unwritten h1 h2 h)

end Sys2Proof.Machine
end

section
/-! PROOFS. Which memories a command writes (20_memory R72). -/

namespace Sys2Proof.Machine

/-- A command that succeeds leaves every memory that 20_memory R72 gives it no W in. -/
theorem cmdOf_keeps_memories {i : Instr} {s t : State} (h : cmdOf i s = .ok t) :
    (i ∉ [.nudge, .hembed] → t.pix = s.pix) ∧
    (i ∉ [.b2bits, .minbits, .extenc, .permfwdBit, .perminvBit, .hrow, .hextract] → t.bit = s.bit) ∧
    (i ∉ [.bits2b, .extdec] → t.byte = s.byte) ∧
    (i ∉ [.permfwdIdx, .perminvIdx, .permidx] → t.idx = s.idx) := by
  have hw := cmdOf_writes h
  cases i
  case nop => obtain rfl := hw; simp
  case nudge => obtain ⟨_, _, _, _, _, rfl⟩ := hw; simp
  case hembed => obtain ⟨_, _, _, _, rfl⟩ := hw; simp
  case b2bits | minbits | extenc | hextract | permfwdBit | perminvBit => obtain ⟨_, _, rfl⟩ := hw; simp
  case hrow => obtain ⟨_, rfl⟩ := hw; simp
  case bits2b => obtain ⟨_, _, _, rfl⟩ := hw; simp
  case extdec => obtain ⟨_, _, rfl⟩ := hw; simp
  case permfwdIdx | perminvIdx | permidx => obtain ⟨_, _, rfl⟩ := hw; simp
  case hash | hbest => obtain ⟨_, _, rfl⟩ := hw; simp
  case hgen | hcol | hmul | hadd | hfind | hsyn => obtain ⟨_, rfl⟩ := hw; simp

/-- Settles O10: a command that succeeds writes only the memories named for it, and one that fails writes none. -/
theorem commandsWriteOnlyNamedSpaces : Obligations.CommandsWriteOnlyNamedSpaces := by
  intro i s t h
  obtain hc | ⟨d, _, rfl⟩ := exec_next.mp h
  · exact cmdOf_keeps_memories hc
  · exact ⟨fun _ => rfl, fun _ => rfl, fun _ => rfl, fun _ => rfl⟩

end Sys2Proof.Machine
end

section
/-! PROOFS. The host's accesses while BUSY = 0 (20_memory R80 to R83): offsets with no register, read-only registers, plain
reads, and the memory window (R74 to R79). -/

namespace Sys2Proof.Machine

/-! ### The register at an offset -/

/-- A register's offset is its own (10_state R30). -/
@[simp] theorem regAt_offset (r : Reg) : regAt r.offset = some r := by cases r <;> rfl

theorem offset_of_regAt {off : BitVec 8} {r : Reg} (h : regAt off = some r) : r.offset = off := by
  simpa using List.find?_some h

/-- Every register stands at a multiple of 4 up to 0x60, and none at 0x4C (10_state R30; 20_memory R81, R82). -/
theorem regAt_eq_none {off : BitVec 8} (h : off.toNat % 4 ≠ 0 ∨ off = 0x4C ∨ 0x64 ≤ off.toNat) : regAt off = none := by
  rw [Option.eq_none_iff_forall_ne_some]
  intro r hr
  obtain rfl := offset_of_regAt hr
  revert h
  cases r <;> decide

section Idle

variable {s : State} {rest : List Event} {off : BitVec 8} {r : Reg} {w : Word}

/-! ### Accesses by offset -/

/-- While BUSY = 0 the step on a transaction is its effect at the port (20_memory R80). -/
theorem step_idle {tr : Transaction} (hi : s.inbox = .transact tr :: rest) (hb : s.status.busy = false) :
    step s = .next (portStep tr { s with inbox := rest }) := by
  rw [step_transact hi, hostStep_idle (s := { s with inbox := rest }) hb]

/-- A read at a register's offset answers its value and has its read's effect (20_memory R80, R83). -/
theorem step_read (hi : s.inbox = .transact (.read off) :: rest) (hb : s.status.busy = false)
    (hr : regAt off = some r) :
    step s = .next ((afterRead { s with inbox := rest } r).answer (regValue { s with inbox := rest } r)) := by
  rw [step_idle hi hb, portStep, hr]

/-- A read at an offset with no register answers 0 and sets HAF (20_memory R81, R82). -/
theorem step_read_unmapped (hi : s.inbox = .transact (.read off) :: rest) (hb : s.status.busy = false)
    (hr : regAt off = none) : step s = .next (({ s with inbox := rest } : State).setHaf.answer 0) := by
  rw [step_idle hi hb, portStep, hr]

/-- A write at an offset with no register sets HAF alone (20_memory R81, R82). -/
theorem step_write_unmapped (hi : s.inbox = .transact (.write off w) :: rest) (hb : s.status.busy = false)
    (hr : regAt off = none) : step s = .next ({ s with inbox := rest } : State).setHaf := by
  rw [step_idle hi hb, portStep, hr]

end Idle

/-- Settles O21: none of the offsets has a register. -/
theorem portFaultsSetHaf : Obligations.PortFaultsSetHaf := by
  intro s rest off hb hoff
  have hr := regAt_eq_none hoff
  exact ⟨fun hi => step_read_unmapped hi hb hr, fun w hi => step_write_unmapped hi hb hr⟩

/-! ### Read-only registers and plain reads -/

/-- The read-only registers, in the order of the map (10_state R30). -/
def readOnlyRegs : List Reg :=
  [.id, .status, .cfg, .res0, .res1, .modcnt, .hcfg, .hcols, .pixd, .bitd, .byted, .idxd, .permmax]

/-- A write of a read-only register changes nothing (20_memory R83). -/
theorem writeReg_readOnly {r : Reg} (h : r ∈ readOnlyRegs) (s : State) (w : Word) : writeReg s w r = s := by
  cases r
  case cmd | arg0 | arg1 | arg2 | arg3 | seed | maxi | nseed | mspace | maddr | mdata => simp [readOnlyRegs] at h
  all_goals rfl

/-- A read of a register other than STATUS and MDATA has no effect (20_memory R83). -/
theorem afterRead_plain {r : Reg} (hs : r ≠ .status) (hm : r ≠ .mdata) (s : State) : afterRead s r = s := by
  cases r
  case status => exact absurd rfl hs
  case mdata => exact absurd rfl hm
  all_goals rfl

/-- A plain read answers the register's value and changes nothing (20_memory R83). -/
theorem step_read_plain {s : State} {rest : List Event} {r : Reg} (hi : s.inbox = .transact (.read r.offset) :: rest)
    (hb : s.status.busy = false) (hs : r ≠ .status) (hm : r ≠ .mdata) :
    step s = .next { s with inbox := rest, trace := regValue { s with inbox := rest } r :: s.trace } := by
  rw [step_read hi hb (regAt_offset r), afterRead_plain hs hm]
  rfl

/-- The registers read without side effect whose value is a word of the state or the parameters, in the order of the map
(10_state R30; 20_memory R83): MSPACE holds a code, and ID is in the hazard statements. -/
def plainRegs : List Reg := allRegs.filter (· ∉ [.id, .status, .mspace, .mdata])

/-- Settles O22: the listed offsets are those of the read-only registers, and the listed pairs are the offsets and values of
the registers read plainly. -/
theorem readOnlyWritesAndPlainReads : Obligations.ReadOnlyWritesAndPlainReads := by
  intro s rest hb
  refine ⟨fun off w hoff hi => ?_, fun off v hoff hi => ?_, fun hi => step_read_plain (r := .mspace) hi hb nofun nofun⟩
  · obtain ⟨r, hr, rfl⟩ := (List.mem_map (f := Reg.offset) (l := readOnlyRegs)).mp hoff
    rw [step_write hi hb (regAt_offset r), writeReg_readOnly hr]
  · obtain ⟨r, hr, hrv⟩ :=
      (List.mem_map (f := fun r => (r.offset, regValue { s with inbox := rest } r)) (l := plainRegs)).mp hoff
    obtain ⟨rfl, rfl⟩ := Prod.mk.inj hrv
    exact step_read_plain hi hb (by rintro rfl; simp [plainRegs] at hr) (by rintro rfl; simp [plainRegs] at hr)

/-! ### The memory window -/

section Window

variable {s : State}

theorem windowInRange_iff : s.windowInRange = true ↔ s.maddr.toNat < depth s.cfg s.mspace := by
  simp [State.windowInRange]

/-- A read of a written cell answers it (20_memory R75, R77). -/
theorem readMdata_written {x : Word} (ha : s.maddr.toNat < depth s.cfg s.mspace)
    (hx : readCell s s.mspace s.maddr.toNat = some x) : readMdata s = (x, s.bumpMaddr) := by
  rw [readMdata, if_pos (windowInRange_iff.mpr ha), windowRead, hx]

/-- A read of a cell never written answers a free value of the cell's width (20_memory R75; log 9). -/
theorem readMdata_unwritten (ha : s.maddr.toNat < depth s.cfg s.mspace)
    (hx : readCell s s.mspace s.maddr.toNat = none) :
    readMdata s = (lowBits (cellWidth s.cfg s.mspace) (Config.freeCell s.drawCount),
      { s with maddr := s.maddr + 1, drawCount := s.drawCount + 1 }) := by
  rw [readMdata, if_pos (windowInRange_iff.mpr ha), windowRead, hx]
  rfl

/-- A read out of range answers 0 and sets HAF (20_memory R78). -/
theorem readMdata_outOfRange (ha : depth s.cfg s.mspace ≤ s.maddr.toNat) : readMdata s = (0, s.setHaf.bumpMaddr) := by
  rw [readMdata, if_neg (by rw [windowInRange_iff]; omega)]

/-- A write in range stores the cell (20_memory R76, R77). -/
theorem writeMdata_inRange (ha : s.maddr.toNat < depth s.cfg s.mspace) (w : Word) :
    writeMdata s w = (writeCell s s.mspace s.maddr.toNat w).bumpMaddr := by
  rw [writeMdata, if_pos (windowInRange_iff.mpr ha)]

/-- A write out of range stores nothing and sets HAF (20_memory R78). -/
theorem writeMdata_outOfRange (ha : depth s.cfg s.mspace ≤ s.maddr.toNat) (w : Word) :
    writeMdata s w = s.setHaf.bumpMaddr := by
  rw [writeMdata, if_neg (by rw [windowInRange_iff]; omega)]

/-- A write of one cell changes no other (20_memory R73). -/
theorem Mem.sameOutside_write {α : Type} (m : Mem α) (a : Nat) (v : α) : m.SameOutside (m.write a v) a 1 :=
  m.sameOutside_writeList a [v]

variable {rest : List Event}

/-- The step on a read of MDATA (20_memory R75). -/
theorem step_readMdata {x : Word} {t : State} (hi : s.inbox = .transact (.read 0x48) :: rest)
    (hb : s.status.busy = false) (h : readMdata { s with inbox := rest } = (x, t)) : step s = .next (t.answer x) := by
  rw [step_read hi hb (regAt_offset .mdata), afterRead, regValue, h]

/-- The step on a write of MDATA (20_memory R76). -/
theorem step_writeMdata {w : Word} (hi : s.inbox = .transact (.write 0x48 w) :: rest) (hb : s.status.busy = false) :
    step s = .next (writeMdata { s with inbox := rest } w) :=
  step_write hi hb (regAt_offset .mdata)

/-- The step on a read of a written cell, in whichever space it lies (20_memory R75, R77). -/
theorem step_readMdata_written (hi : s.inbox = .transact (.read 0x48) :: rest) (hb : s.status.busy = false)
    {sp : Space} (hm : s.mspace = sp) {x : Word} (ha : s.maddr.toNat < depth s.cfg sp)
    (hx : readCell s sp s.maddr.toNat = some x) :
    step s = .next { s with inbox := rest, trace := x :: s.trace, maddr := s.maddr + 1 } := by
  subst hm
  exact step_readMdata hi hb (readMdata_written (s := { s with inbox := rest }) ha hx)

/-- The step on a write in range, in whichever space (20_memory R76, R77). -/
theorem step_writeMdata_inRange {w : Word} (hi : s.inbox = .transact (.write 0x48 w) :: rest)
    (hb : s.status.busy = false) {sp : Space} (hm : s.mspace = sp) (ha : s.maddr.toNat < depth s.cfg sp) :
    step s = .next (writeCell { s with inbox := rest } sp s.maddr.toNat w).bumpMaddr := by
  subst hm
  rw [step_writeMdata hi hb, writeMdata_inRange (s := { s with inbox := rest }) ha]

end Window

/-- Settles O24: the step is the read of MDATA for a written cell, a cell never written, or an address out of range. -/
theorem windowReadReturnsCell : Obligations.WindowReadReturnsCell := by
  intro s rest hb hi
  refine ⟨fun x hm ha hx => step_readMdata_written hi hb hm ha hx,
    fun x hm ha hx => step_readMdata_written hi hb hm ha ?_, fun x hm ha hx => step_readMdata_written hi hb hm ha ?_,
    fun x hm ha hx => step_readMdata_written hi hb hm ha hx, fun hx ha => ?_, fun ha => ?_⟩
  · rw [readCell, hx]; cases x <;> rfl
  · rw [readCell, hx, BitVec.ofNat_toNat]; rfl
  · have hn : readCell s s.mspace s.maddr.toNat = none := by
      cases hm : s.mspace <;> rw [hm] at hx <;> simp [readCell, hx]
    exact ⟨_, fun k _ => lowBits_getLsbD _ _ k,
      step_readMdata hi hb (readMdata_unwritten (s := { s with inbox := rest }) ha hn)⟩
  · exact step_readMdata hi hb (readMdata_outOfRange (s := { s with inbox := rest }) ha)

/-- Settles O25: in range the step is the write of the cell, read back by the laws of one memory; out of range it is HAF. -/
theorem windowWriteStoresCell : Obligations.WindowWriteStoresCell := by
  intro s rest w hb hi
  refine ⟨fun hm ha => ⟨_, _, step_writeMdata_inRange hi hb hm ha, Mem.read_write_self .., lowBits_getLsbD _ w,
      Mem.sameOutside_write _ _ _⟩,
    fun hm ha => ⟨_, step_writeMdata_inRange hi hb hm ha, Mem.read_write_self .., Mem.sameOutside_write _ _ _⟩,
    fun hm ha => ⟨_, step_writeMdata_inRange hi hb hm ha, ?_, Mem.sameOutside_write _ _ _⟩,
    fun hm ha => ⟨_, step_writeMdata_inRange hi hb hm ha, Mem.read_write_self .., Mem.sameOutside_write _ _ _⟩,
    fun ha => ?_⟩
  · rw [← BitVec.setWidth_eq_extractLsb' (by decide)]
    exact Mem.read_write_self ..
  · rw [step_writeMdata hi hb, writeMdata_outOfRange (s := { s with inbox := rest }) ha]
    rfl

end Sys2Proof.Machine
end

section
/-! PROOFS. The decoder on every word: the opcode map in terms of the fields, and the round trip with the encoder
(30_encoding R100 to R107). -/

namespace Sys2Proof

/-- The opcode map covers the assigned opcodes, with SP = 1 on two of them (30_encoding R102, R103). -/
theorem instrAt_isSome : ∀ (opc : BitVec 8) (sp : Bool),
    (instrAt opc sp).isSome = true ↔
      ({ opc, sp, rsv := 0 } : Fields).OpcAssigned ∧ ({ opc, sp, rsv := 0 } : Fields).SpLegal := by
  decide

/-- The first test of the decoder is whether OPC is assigned (30_encoding R105, R107). -/
theorem instrAt_false_isNone (f : Fields) : (instrAt f.opc false).isNone = true ↔ ¬f.OpcAssigned := by
  rw [Option.isNone_iff_eq_none, ← Option.not_isSome_iff_eq_none, instrAt_isSome]
  simp only [Fields.SpLegal, Bool.false_eq_true, false_imp_iff, and_true]

/-- An unassigned OPC is reported first (30_encoding R105, R107). -/
theorem decode_unassigned {w : Word} (h : ¬(fieldsOf w).OpcAssigned) : decode w = .error .badOpcode := by
  rw [decode, if_pos ((instrAt_false_isNone _).mpr h)]

/-- On an assigned OPC the reserved bits are tested before the map is read with SP (30_encoding R104, R107). -/
theorem decode_assigned {w : Word} (h : (fieldsOf w).OpcAssigned) :
    decode w = if (fieldsOf w).RsvZero then
      (instrAt (fieldsOf w).opc (fieldsOf w).sp).elim (.error .rsvdBits) .ok else .error .rsvdBits := by
  rw [decode, if_neg (by rwa [instrAt_false_isNone, not_not]), ite_not]
  cases instrAt (fieldsOf w).opc (fieldsOf w).sp <;> rfl

/-- Reserved bits of an assigned OPC (30_encoding R104, R107). -/
theorem decode_reserved {w : Word} (ha : (fieldsOf w).OpcAssigned)
    (h : ¬((fieldsOf w).RsvZero ∧ (fieldsOf w).SpLegal)) : decode w = .error .rsvdBits := by
  rw [decode_assigned ha]
  split
  case isFalse => rfl
  case isTrue hr =>
    have hn : ¬(instrAt (fieldsOf w).opc (fieldsOf w).sp).isSome = true :=
      fun hs => h ⟨hr, ((instrAt_isSome _ _).mp hs).2⟩
    rw [Option.not_isSome_iff_eq_none.mp hn, Option.elim_none]

/-- A word is a command's exactly when its OPC and SP select the command in the map and its reserved bits are 0
(30_encoding R102, R107). -/
theorem decode_ok_iff {w : Word} {i : Instr} :
    decode w = .ok i ↔ instrAt (fieldsOf w).opc (fieldsOf w).sp = some i ∧ (fieldsOf w).RsvZero := by
  by_cases ha : (fieldsOf w).OpcAssigned
  · rw [decode_assigned ha]
    split
    case isTrue hr =>
      rw [and_iff_left hr]
      cases instrAt (fieldsOf w).opc (fieldsOf w).sp <;> simp
    case isFalse hr => exact iff_of_false nofun fun h => hr h.2
  · have hn : instrAt (fieldsOf w).opc (fieldsOf w).sp ≠ some i := fun h =>
      ha ((instrAt_isSome _ _).mp (Option.isSome_iff_exists.mpr ⟨i, h⟩)).1
    simp [decode_unassigned ha, hn]

/-- Well-formed fields are those of a command (30_encoding R106). -/
theorem decode_wellFormed {w : Word} (h : (fieldsOf w).WellFormed) : ∃ i, decode w = .ok i := by
  obtain ⟨ha, hr, hs⟩ := h
  obtain ⟨i, hi⟩ := Option.isSome_iff_exists.mp ((instrAt_isSome _ _).mpr ⟨ha, hs⟩)
  exact ⟨i, decode_ok_iff.mpr ⟨hi, hr⟩⟩

/-- A word is a command's word exactly when its fields are the command's opcode and space, with no reserved bit
(30_encoding R100). -/
theorem eq_encode_iff {w : Word} {i : Instr} :
    w = encode i ↔ fieldsOf w = { opc := opcodeOf i, sp := spOf i, rsv := 0 } :=
  ⟨fun h => by rw [h, encode, fieldsOf_wordOf], fun h => by rw [encode, ← h, wordOf_fieldsOf]⟩

/-- Settles O2: both sides say that the word's OPC and SP are the command's row of the map and its reserved bits 0. -/
theorem decodeEncodeAgree : Obligations.DecodeEncodeAgree := by
  intro w i
  calc decode w = .ok i
    _ ↔ (fieldsOf w).opc = opcodeOf i ∧ (fieldsOf w).sp = spOf i ∧ (fieldsOf w).rsv = 0 := by
      rw [decode_ok_iff, instrAt_some, and_assoc]
    _ ↔ fieldsOf w = { opc := opcodeOf i, sp := spOf i, rsv := 0 } := by
      cases fieldsOf w; rw [Fields.mk.injEq]
    _ ↔ w = encode i := eq_encode_iff.symm

/-- Settles O3: the three conditions on the fields cover every word and exclude each other, and so do the outcomes. -/
theorem decodeRejectsByName : Obligations.DecodeRejectsByName := by
  intro w f
  by_cases ha : (fieldsOf w).OpcAssigned
  · by_cases hl : (fieldsOf w).RsvZero ∧ (fieldsOf w).SpLegal
    · obtain ⟨i, hw⟩ := decode_wellFormed ⟨ha, hl⟩
      rw [hw]
      exact ⟨iff_of_false nofun (not_not.mpr ha), iff_of_false nofun fun h => h.2 hl, iff_of_true ⟨i, rfl⟩ ⟨ha, hl⟩⟩
    · rw [decode_reserved ha hl]
      exact ⟨iff_of_false nofun (not_not.mpr ha), iff_of_true rfl ⟨ha, hl⟩, iff_of_false nofun fun h => hl h.2⟩
  · rw [decode_unassigned ha]
    exact ⟨iff_of_true rfl ha, iff_of_false nofun fun h => ha h.1, iff_of_false nofun fun h => ha h.1⟩

/-- Settles O1, by running the decoder on each word. -/
theorem knownWordsDecode : Obligations.KnownWordsDecode := by
  unfold Obligations.KnownWordsDecode
  decide

end Sys2Proof
end

section
/-! PROOFS. The ENGINE's turn on an illegal word, and how a step can stop (40_command_cycle R131, R134; 60_exceptions
R309). -/

namespace Sys2Proof.Machine

/-- With no host event left, or with the host giving its turn away, the step is the ENGINE's turn (20_memory R90). -/
theorem step_eq_engineTurn {s : State} {rest : List Event}
    (h : (s.inbox = [] ∧ rest = []) ∨ s.inbox = .engineTurn :: rest) :
    step s = engineTurn { s with inbox := rest } := by
  rw [step_eq]
  obtain ⟨hi, rfl⟩ | hi := h
  · simp only [hi]
    rw [← hi]
  · rw [hi]

/-- A pending illegal word is a failed command (40_command_cycle R134). -/
theorem engineTurn_illegal {s : State} {w : Word} {e : Illegal} (hp : s.pending = some w) (hw : decode w = .error e) :
    engineTurn s = .next (s.fail (illegalDetail e)).finish := by
  simp only [engineTurn, hp, engineStep, hw]

/-- A pending command's word runs the command (40_command_cycle R131). -/
theorem engineTurn_command {s : State} {w : Word} {i : Instr} (hp : s.pending = some w) (hw : decode w = .ok i) :
    engineTurn s = finishOutcome (exec i s) := by
  simp only [engineTurn, hp, engineStep, hw]

/-- Settles O5: the ENGINE's turn on a word that the decoder rejects. -/
theorem illegalWordIsFailedCommand : Obligations.IllegalWordIsFailedCommand := by
  intro s w rest hp hi f
  have hfail {e : Illegal} (hw : decode w = .error e) :
      step s = .next ({ s with inbox := rest }.fail (illegalDetail e)).finish :=
    (step_eq_engineTurn hi).trans (engineTurn_illegal hp hw)
  exact ⟨fun ha => hfail (decode_unassigned ha), fun ha hl => hfail (decode_reserved ha hl)⟩

/-- A command answers a next state or reads an unwritten cell (40_command_cycle R136). -/
theorem exec_outcome (i : Instr) (s : State) :
    (∃ t, exec i s = .next t) ∨ ∃ sp a, exec i s = .fault (.uninitRead sp a) := by
  cases h : exec i s with
  | next t => exact .inl ⟨t, rfl⟩
  | fault f =>
    obtain ⟨sp, a, _, rfl⟩ := exec_fault.mp h
    exact .inr ⟨sp, a, rfl⟩
  | refused r => exact absurd (exec_eq_runCmd i s ▸ h) runCmd_not_refused

/-- The ENGINE's turn answers a next state, or its pending command reads an unwritten cell (40_command_cycle R131,
60_exceptions R309). -/
theorem engineTurn_outcome (s : State) :
    (∃ t, engineTurn s = .next t) ∨
      ∃ w i sp a, s.pending = some w ∧ decode w = .ok i ∧ engineTurn s = .fault (.uninitRead sp a) := by
  cases hp : s.pending with
  | none => exact .inl ⟨s, by simp only [engineTurn, hp]⟩
  | some w =>
    cases hw : decode w with
    | error e => exact .inl ⟨_, engineTurn_illegal hp hw⟩
    | ok i =>
      rw [engineTurn_command hp hw]
      obtain ⟨t, h⟩ | ⟨sp, a, h⟩ := exec_outcome i s <;> rw [h]
      · exact .inl ⟨_, rfl⟩
      · exact .inr ⟨w, i, sp, a, rfl, hw, rfl⟩

/-- Settles O12: a host transaction always answers; the ENGINE's turn answers or stops in its pending command. -/
theorem everyStepHasMeaning : Obligations.EveryStepHasMeaning := by
  intro s
  have engine {rest : List Event} (hs : step s = engineTurn { s with inbox := rest }) :
      (∃ t, step s = .next t) ∨
        ∃ w i sp a, s.pending = some w ∧ w = encode i ∧ step s = .fault (.uninitRead sp a) := by
    rw [hs]
    exact (engineTurn_outcome _).imp_right fun ⟨w, i, sp, a, hp, hw, hf⟩ =>
      ⟨w, i, sp, a, hp, (decodeEncodeAgree w i).mp hw, hf⟩
  match hi : s.inbox with
  | [] => exact engine (step_eq_engineTurn (.inl ⟨hi, rfl⟩))
  | .engineTurn :: rest => exact engine (step_eq_engineTurn (.inr hi))
  | .transact tr :: rest => exact .inl ⟨_, step_transact hi⟩

end Sys2Proof.Machine
end

section
/-! PROOFS. The command cycle: a pending command's step, NOP, the failed command, and the registers that commands write
(40_command_cycle R130 to R139). -/

namespace Sys2Proof.Machine

/-! ### The ENGINE's turn -/

theorem step_of_inbox_nil {s : State} (h : s.inbox = []) : step s = engineTurn s := by rw [step_eq, h]

theorem engineTurn_idle {s : State} (hp : s.pending = none) : engineTurn s = .next s := by simp only [engineTurn, hp]

/-- A step that is the ENGINE's turn in the state `u` ends as the pending command does there (40_command_cycle R131). -/
theorem step_eq_finishOutcome {s u : State} {w : Word} {i : Instr} {o : Host.Outcome State Fault Refusal}
    (hs : step s = engineTurn u) (hp : u.pending = some w) (hw : decode w = .ok i) (he : exec i u = o) :
    step s = finishOutcome o := by
  rw [hs, engineTurn_command hp hw, he]

/-- Settles O4: both ways to the ENGINE's turn run the pending command, or idle. -/
theorem stepRunsPendingCommand : Obligations.StepRunsPendingCommand :=
  ⟨fun _ _ _ hp hw =>
    ⟨fun _ hi he => step_eq_finishOutcome (step_of_inbox_nil hi) hp hw he,
      fun _ hi he => step_eq_finishOutcome (step_of_inbox_nil hi) hp hw he,
      fun _ _ hi he => step_eq_finishOutcome (step_eq_engineTurn (.inr hi)) hp hw he,
      fun _ _ hi he => step_eq_finishOutcome (step_eq_engineTurn (.inr hi)) hp hw he⟩,
  fun _ hp =>
    ⟨fun hi => (step_of_inbox_nil hi).trans (engineTurn_idle hp),
      fun _ hi => (step_eq_engineTurn (.inr hi)).trans (engineTurn_idle hp)⟩⟩

/-! ### NOP -/

/-- A word of opcode 0x00 with no reserved bit is the word 0: SP is legal on other opcodes only (30_encoding R103,
R104). -/
theorem eq_zero_of_nop_fields {w : Word} (h : (fieldsOf w).opc = 0) (hr : (fieldsOf w).RsvZero)
    (hs : (fieldsOf w).SpLegal) : w = 0 := by
  have hsp : (fieldsOf w).sp = false := Bool.eq_false_iff.mpr fun ht => absurd (h ▸ hs ht) (by decide)
  calc w = encode .nop := (decodeEncodeAgree w .nop).mp (decode_ok_iff.mpr ⟨instrAt_some.mpr ⟨h, hsp⟩, hr⟩)
    _ = 0 := by decide

/-- The step after a word is placed is the ENGINE's turn on the started command (40_command_cycle R130; log 13). -/
theorem step_withFetchWord (s : State) (n w : Nat) :
    step (s.withFetchWord n w) = engineTurn (s.start (BitVec.ofNat 32 w)) :=
  step_eq_engineTurn (s := s.withFetchWord n w) (rest := s.inbox) (.inr rfl)

/-- NOP succeeds and changes nothing (40_command_cycle R139). -/
theorem exec_nop (s : State) : exec .nop s = .next s := exec_next.mpr (.inl rfl)

/-- Settles O7: the start clears the error, NOP leaves the started state, and the end of the step clears BUSY. -/
theorem nopClearsError : Obligations.NopClearsError := by
  have hdec : decode 0x00000000 = .ok .nop := by decide
  refine ⟨hdec, fun w ho hne => ?_, fun s => ⟨exec_nop s, ?_⟩⟩
  · exact decode_reserved (.inl ho) fun ⟨hr, hs⟩ => hne (eq_zero_of_nop_fields ho hr hs)
  · exact step_eq_finishOutcome (step_withFetchWord s 32 0) rfl hdec (exec_nop (s.start 0))

/-! ### Failure, and the frame of the registers -/

/-- Settles O8: a command that succeeds leaves STATUS, so one that ends with ERR set has raised a detail code. -/
theorem failureIsAtomic : Obligations.FailureIsAtomic := by
  intro i s t h hs ht
  obtain hc | ⟨d, hd, rfl⟩ := exec_next.mp h
  · obtain ⟨⟨_, _, _, hst, _⟩, _⟩ := cmdOf_frame hc
    rw [hst, hs] at ht
    cases ht
  · exact ⟨d, fun hn => none_notMem_raises i (hn ▸ cmdOf_error hd), rfl⟩

/-- Settles O9: what a command that succeeds writes is read off its rule; one that fails writes ERR, KIND and DETAIL. -/
theorem commandsWriteOnlyNamedRegisters : Obligations.CommandsWriteOnlyNamedRegisters := by
  intro i s t h
  obtain hc | ⟨d, _, rfl⟩ := exec_next.mp h
  · have hw := cmdOf_writes hc
    cases i
    case nop => obtain rfl := hw; simp
    case b2bits | minbits | extenc | hextract | extdec | hash | permfwdBit | permfwdIdx | permidx | perminvBit |
        perminvIdx | hbest => obtain ⟨_, _, rfl⟩ := hw; simp
    case bits2b => obtain ⟨_, _, _, rfl⟩ := hw; simp
    case nudge => obtain ⟨_, _, _, _, _, rfl⟩ := hw; simp
    case hembed => obtain ⟨_, _, _, _, rfl⟩ := hw; simp
    case hgen | hcol | hmul | hadd | hfind | hsyn | hrow => obtain ⟨_, rfl⟩ := hw; simp
  · simp

end Sys2Proof.Machine
end

section
/-! PROOFS. The CODEC unit (41_codec.md): bytes as bits in memory, then what each of its five commands completes with,
the errors they raise, and the two round trips (R160, R161). -/

namespace Sys2Proof.Machine

/-! ### Lists and words in memory -/

section Memory

variable {α : Type} {m : Mem α} {a : Nat}

theorem Mem.sameOutside_writeList_of_length {vs : List α} {n : Nat} (h : vs.length = n) :
    m.SameOutside (m.writeList a vs) a n := h ▸ Mem.sameOutside_writeList m a vs

/-- A range that holds a list holds its head, then its tail. -/
theorem Mem.Holds.head_tail {v : α} {vs : List α} (h : m.Holds a (v :: vs)) : m.read a = some v ∧ m.Holds (a + 1) vs :=
  ⟨h 0 (Nat.succ_pos _), fun k hk => by
    rw [Nat.add_right_comm]; exact h (k + 1) (Nat.succ_lt_succ hk)⟩

/-- A range holds the bits of bytes exactly when bit `j` of byte `k`, counted from the most significant, stands at
`8k + j` (41_codec R150). -/
theorem Mem.holds_flatMap_bits8 {m : Mem Bool} {ys : List Byte} : m.Holds a (ys.flatMap bits8) ↔
    ∀ k j, (h : k < ys.length) → j < 8 → m.read (a + 8 * k + j) = some (ys[k].getLsbD (7 - j)) := by
  constructor
  · intro h k j hk hj
    have hb : 8 * k + j < (ys.flatMap bits8).length := by rw [flatMap_bits8_length]; omega
    rw [Nat.add_assoc, h _ hb, ← List.getElem?_eq_getElem, flatMap_bits8_getElem? ys k j hk hj]
  · intro h i hi
    have hk : i / 8 < ys.length := by rw [flatMap_bits8_length] at hi; omega
    have hj : i % 8 < 8 := Nat.mod_lt _ (by decide)
    calc m.read (a + i) = m.read (a + 8 * (i / 8) + i % 8) := by rw [Nat.add_assoc, Nat.div_add_mod]
      _ = some (ys[i / 8].getLsbD (7 - i % 8)) := h _ _ hk hj
      _ = (ys.flatMap bits8)[8 * (i / 8) + i % 8]? := (flatMap_bits8_getElem? ys _ _ hk hj).symm
      _ = some (ys.flatMap bits8)[i] := by simp only [Nat.div_add_mod, List.getElem?_eq_getElem hi]

end Memory

/-- A result register holds a result that fits it (00_scope R13). -/
theorem result_toNat {n : Nat} (h : n < 2 ^ 32) : (result n).toNat = n := by
  rw [result, BitVec.toNat_ofNat, Nat.mod_eq_of_lt h]

theorem result_a1 (s : State) : result s.a1 = s.arg1 := BitVec.ofNat_toNat 32 s.arg1

/-- A command whose checks and reads succeed answers its effect (40_command_cycle R131). -/
theorem exec_of_ok {i : Instr} {s t : State} (h : cmdOf i s = .ok t) : exec i s = .next t := exec_next.mpr (.inl h)

/-! ### The shortest binary -/

/-- Element `q` of the `k` low bits of a word is its bit `k - 1 - q` (41_codec R156). -/
theorem bitsMsbFirst_getElem {w : Word} {k q : Nat} (h : q < (bitsMsbFirst w.toNat k).length) :
    (bitsMsbFirst w.toNat k)[q] = w.getLsbD (k - 1 - q) := by
  simp only [bitsMsbFirst, List.getElem_map, List.getElem_range, BitVec.testBit_toNat]

/-- The two bounds on the length name `mlen` (41_codec R155). -/
theorem mlen_eq {w : Word} {k : Nat} (h1 : w.toNat < 2 ^ k) (h2 : k = 0 ∨ 2 ^ (k - 1) ≤ w.toNat) : mlen w.toNat = k :=
  have ⟨h3, h4⟩ := mlen_spec w.isLt
  length_unique h3 h4 h1 h2

/-- A length whose lower bound holds is at most `mlen` (41_codec R155). -/
theorem le_mlen {w : Word} {k : Nat} (h : k = 0 ∨ 2 ^ (k - 1) ≤ w.toNat) : k ≤ mlen w.toNat := by
  obtain rfl | h := h
  · exact Nat.zero_le _
  · have := (Nat.pow_lt_pow_iff_right (by decide)).mp (lt_of_le_of_lt h (mlen_spec w.isLt).1)
    omega

/-! ### The extension suffix -/

theorem suffixSlots_length {tail : List Byte} (h : tail.length ≤ 5) : (suffixSlots tail).length = 5 := by
  rw [suffixSlots, List.length_append, List.length_replicate]; omega

/-- Slot `q` is byte `q` after the dot, or 0 where the extension has ended (41_codec R157). -/
theorem suffixSlots_getElem {tail : List Byte} {q : Nat} (h : q < (suffixSlots tail).length) :
    (suffixSlots tail)[q] = tail[q]?.getD 0 := by
  simp only [suffixSlots, List.getElem_append, List.getElem_replicate]
  split
  case isTrue hq => rw [List.getElem?_eq_getElem hq, Option.getD_some]
  case isFalse hq => rw [List.getElem?_eq_none (Nat.le_of_not_lt hq), Option.getD_none]

/-- The string of a suffix ends before the first zero slot (41_codec R159). -/
theorem suffixString_append {str rest : List Byte} (hs : (0 : Byte) ∉ str) (hr : ∀ y ∈ rest.head?, y = 0) :
    suffixString (str ++ rest) = 0x2E :: str := by
  have hrest : rest.takeWhile (· ≠ 0) = [] := by
    cases rest with
    | nil => rfl
    | cons y rest => rw [hr y rfl]; rfl
  have hstr : ∀ y ∈ str, decide (y ≠ 0) = true := fun y hy => decide_eq_true fun h0 => hs (h0 ▸ hy)
  rw [suffixString, List.takeWhile_append_of_pos hstr, hrest, List.append_nil]

/-- The slots of an extension give the extension back (41_codec R161). -/
theorem suffixString_suffixSlots {tail : List Byte} (h : (0 : Byte) ∉ tail) :
    suffixString (suffixSlots tail) = 0x2E :: tail := by
  refine suffixString_append h fun y hy => ?_
  rw [Option.mem_def, List.head?_replicate] at hy
  split at hy <;> cases hy
  rfl

/-- With `z` the first zero slot, or 5, the string is the dot and the slots before it (41_codec R159). -/
theorem suffixString_eq_take {slots : List Byte} {z : Nat} (hlen : slots.length = 5)
    (hz : z = 5 ∨ slots[z]? = some 0) (hnz : ∀ q, q < z → slots[q]? ≠ some 0) :
    suffixString slots = 0x2E :: slots.take z := by
  rw [← suffixString_append (str := slots.take z) (rest := slots.drop z), List.take_append_drop]
  · intro h0
    obtain ⟨q, hq, h⟩ := List.mem_take_iff_getElem.mp h0
    exact hnz q (by omega) (by rw [List.getElem?_eq_getElem (by omega), h])
  · rw [List.head?_drop]
    obtain rfl | hz := hz
    · simp [hlen]
    · simp [hz]

/-! ### Completion -/

/-- Settles O26: the range written holds the bits of the bytes read. -/
theorem b2bitsExpandsBytes : Obligations.B2bitsExpandsBytes := by
  intro s bytes hlen hbytes hy hb
  refine ⟨_, exec_of_ok (cmdB2bits_ok.mpr ⟨hy, hb, bytes, ⟨hlen, hbytes⟩, rfl⟩), fun k hk j hj => ?_, ?_, rfl⟩
  · exact Mem.holds_flatMap_bits8.mp (Mem.holds_writeList _ _ _) k j hk hj
  · exact Mem.sameOutside_writeList_of_length (by rw [flatMap_bits8_length, hlen])

/-- Settles O27: the bits read are those of the bytes that they pack into. -/
theorem bits2bPacksBytes : Obligations.Bits2bPacksBytes := by
  intro s bits hlen hbits hb hy
  obtain ⟨hpack, hcount⟩ := flatMap_bits8_packBytes _ bits hlen
  refine ⟨_, exec_of_ok (cmdBits2b_ok.mpr ⟨hb, hy, bits, ⟨hlen, hbits⟩, rfl⟩), fun k hk => ?_,
    Mem.sameOutside_writeList_of_length hcount, rfl⟩
  have hk' : k < (packBytes bits).length := hcount ▸ hk
  refine ⟨(packBytes bits)[k], Mem.read_writeList_at _ _ _ hk', fun j hj => ?_⟩
  rw [← flatMap_bits8_getElem? _ k j hk' hj, hpack]

/-- Settles O28: the two bounds fix the length that MINBITS computes. -/
theorem minbitsWritesShortestBinary : Obligations.MinbitsWritesShortestBinary := by
  intro s k hlt hle hb
  obtain rfl := mlen_eq hlt hle
  have hlen := bitsMsbFirst_length s.arg0.toNat (mlen s.arg0.toNat)
  refine ⟨_, exec_of_ok (cmdMinbits_ok.mpr ⟨hb, rfl⟩), fun q hq => ?_, Mem.sameOutside_writeList_of_length hlen, rfl⟩
  exact (Mem.read_writeList_at _ _ _ (hq.trans_eq hlen.symm)).trans (congrArg some (bitsMsbFirst_getElem _))

/-- EXTENC of an extension whose checks pass (41_codec R158). -/
theorem exec_extenc {s : State} {tail : List Byte} (hn : s.arg1.toNat = tail.length + 1) (h4 : tail.length ≤ 4)
    (h0 : (0 : Byte) ∉ tail) (hext : Mem.Holds s.byte s.arg0.toNat (0x2E :: tail))
    (hy : s.arg0.toNat + s.arg1.toNat ≤ s.cfg.byteDepth.toNat)
    (hb : s.arg2.toNat + (s.arg3.toNat + 40) ≤ s.cfg.bitDepth.toNat) :
    exec .extenc s = .next { s with
      bit := s.bit.writeList (s.a2 + s.a3) ((suffixSlots tail).flatMap bits8)
      res0 := result (s.a3 + 40) } := by
  obtain ⟨hdot, htail⟩ := hext.head_tail
  have hlen : tail.length = s.a1 - 1 := (Nat.sub_eq_of_eq_add hn).symm
  exact exec_of_ok (cmdExtenc_ok.mpr
    ⟨hn.trans_le (by omega), hn.trans_ne (by omega), hy, hb, hdot, tail, ⟨hlen, htail⟩, h0, rfl⟩)

/-- EXTDEC of a stream whose last 40 bits are those of five slots (41_codec R159). -/
theorem exec_extdec {s : State} {slots : List Byte} (h5 : slots.length = 5) (h40 : 40 ≤ s.arg1.toNat)
    (hslots : s.bit.Holds (s.arg0.toNat + (s.arg1.toNat - 40)) (slots.flatMap bits8))
    (hb : s.arg0.toNat + s.arg1.toNat ≤ s.cfg.bitDepth.toNat) (hy : s.arg2.toNat + 6 ≤ s.cfg.byteDepth.toNat) :
    exec .extdec s = .next { s with
      byte := Mem.writeList s.byte s.a2 (suffixString slots)
      res0 := result (suffixString slots).length } := by
  rw [← Nat.add_sub_assoc h40] at hslots
  have hlen : (slots.flatMap bits8).length = 40 := by rw [flatMap_bits8_length, h5]
  exact exec_of_ok (cmdExtdec_ok.mpr ⟨h40, hb, hy, _, ⟨hlen, hslots⟩, by rw [packBytes_flatMap_bits8]⟩)

/-- Settles O29: the range appended holds the bits of the five slots. -/
theorem extencAppendsSuffix : Obligations.ExtencAppendsSuffix := by
  intro s tail hn h4 h0 hext hy hb
  have h5 : tail.length ≤ 5 := by omega
  refine ⟨_, exec_extenc hn h4 h0 hext hy hb, fun q j hq hj => ?_,
    Mem.sameOutside_writeList_of_length (suffixSlots_bits_length h5), rfl⟩
  rw [← suffixSlots_getElem (by rwa [suffixSlots_length h5])]
  exact Mem.holds_flatMap_bits8.mp (Mem.holds_writeList _ _ _) q j _ hj

/-- Settles O30: the string written is the dot and the slots before the first zero slot. -/
theorem extdecReadsSuffix : Obligations.ExtdecReadsSuffix := by
  intro s slots z h5 h40 hslots hb hy hz5 hz hnz
  have hexec := exec_extdec h5 h40 (Mem.holds_flatMap_bits8.mpr hslots) hb hy
  have hlen : ((0x2E : Byte) :: slots.take z).length = 1 + z := by
    rw [List.length_cons, List.length_take_of_le (by omega), Nat.add_comm]
  rw [suffixString_eq_take h5 hz hnz, hlen] at hexec
  exact ⟨_, hexec, Mem.holds_writeList _ _ _, Mem.sameOutside_writeList_of_length hlen, rfl⟩

/-! ### Errors -/

section Errors

variable {s : State}

theorem cmdB2bits_byteBounds (h : depth s.cfg .byte < s.a0 + s.a1) : cmdB2bits s = .error (.raise .byteBounds) := by
  rw [cmdB2bits, need_stop h, Space.boundsDetail]

theorem cmdB2bits_bitBounds (hy : s.a0 + s.a1 ≤ depth s.cfg .byte) (h : depth s.cfg .bit < s.a2 + 8 * s.a1) :
    cmdB2bits s = .error (.raise .bitBounds) := by
  rw [cmdB2bits, need_pass hy, need_stop h, Space.boundsDetail]

theorem cmdBits2b_bitBounds (h : depth s.cfg .bit < s.a0 + s.a1) : cmdBits2b s = .error (.raise .bitBounds) := by
  rw [cmdBits2b, need_stop h, Space.boundsDetail]

theorem cmdBits2b_byteBounds (hb : s.a0 + s.a1 ≤ depth s.cfg .bit) (h : depth s.cfg .byte < s.a2 + s.a1 / 8) :
    cmdBits2b s = .error (.raise .byteBounds) := by
  rw [cmdBits2b, need_pass hb, need_stop h, Space.boundsDetail]

theorem cmdMinbits_bitBounds {k : Nat} (hk : k ≤ mlen s.a0) (h : depth s.cfg .bit < s.a1 + k) :
    cmdMinbits s = .error (.raise .bitBounds) := by
  rw [cmdMinbits, need_stop (by omega), Space.boundsDetail]

theorem cmdExtenc_extTooLong (h : 5 < s.a1) : cmdExtenc s = .error (.raise .extTooLong) := by
  rw [cmdExtenc, require_stop (by omega)]

theorem cmdExtenc_empty (h : s.a1 = 0) : cmdExtenc s = .error (.raise .extMalformed) := by
  rw [cmdExtenc, require_pass (by omega), require_stop (not_not.mpr h)]

section Extension

variable (h1 : 1 ≤ s.a1) (h5 : s.a1 ≤ 5)
include h1 h5

theorem cmdExtenc_byteBounds (h : depth s.cfg .byte < s.a0 + s.a1) : cmdExtenc s = .error (.raise .byteBounds) := by
  rw [cmdExtenc, require_pass h5, require_pass (by omega), need_stop h, Space.boundsDetail]

variable (hy : s.a0 + s.a1 ≤ depth s.cfg .byte)
include hy

theorem cmdExtenc_bitBounds (h : depth s.cfg .bit < s.a2 + (s.a3 + 40)) :
    cmdExtenc s = .error (.raise .bitBounds) := by
  rw [cmdExtenc, require_pass h5, require_pass (by omega), need_pass hy, need_stop h, Space.boundsDetail]

variable (hb : s.a2 + (s.a3 + 40) ≤ depth s.cfg .bit)
include hb

/-- The first byte is checked before the others are read (41_codec R158; log 6). -/
theorem cmdExtenc_noDot {c : Byte} (hc : Mem.read s.byte s.a0 = some c) (h : c ≠ 0x2E) :
    cmdExtenc s = .error (.raise .extMalformed) := by
  rw [cmdExtenc, require_pass h5, require_pass (by omega), need_pass hy, need_pass hb, fetch_ok.mpr hc, ok_bind,
    require_stop h]

theorem cmdExtenc_zeroByte {tail : List Byte} (hn : tail.length + 1 = s.a1)
    (hext : Mem.Holds s.byte s.a0 (0x2E :: tail)) (h : (0 : Byte) ∈ tail) : cmdExtenc s = .error (.raise .extMalformed) := by
  obtain ⟨hdot, htail⟩ := hext.head_tail
  rw [cmdExtenc, require_pass h5, require_pass (by omega), need_pass hy, need_pass hb, fetch_ok.mpr hdot, ok_bind,
    require_pass rfl, fetchList_ok.mpr ⟨by omega, htail⟩, ok_bind, require_stop (not_not.mpr h)]

end Extension

theorem cmdExtdec_streamShort (h : s.a1 < 40) : cmdExtdec s = .error (.raise .streamShort) := by
  rw [cmdExtdec, require_stop (by omega)]

theorem cmdExtdec_bitBounds (h40 : 40 ≤ s.a1) (h : depth s.cfg .bit < s.a0 + s.a1) :
    cmdExtdec s = .error (.raise .bitBounds) := by
  rw [cmdExtdec, require_pass h40, need_stop h, Space.boundsDetail]

theorem cmdExtdec_byteBounds (h40 : 40 ≤ s.a1) (hb : s.a0 + s.a1 ≤ depth s.cfg .bit)
    (h : depth s.cfg .byte < s.a2 + 6) : cmdExtdec s = .error (.raise .byteBounds) := by
  rw [cmdExtdec, require_pass h40, need_pass hb, need_stop h, Space.boundsDetail]

end Errors

/-- Settles O31: one lemma for each error of each command. -/
theorem codecChecksRaise : Obligations.CodecChecksRaise := fun _ =>
  ⟨fun h => exec_raise (i := .b2bits) (cmdB2bits_byteBounds h),
    fun hy h => exec_raise (i := .b2bits) (cmdB2bits_bitBounds hy h),
    fun h => exec_raise (i := .bits2b) (cmdBits2b_bitBounds h),
    fun hb h => exec_raise (i := .bits2b) (cmdBits2b_byteBounds hb h),
    fun _ hk h => exec_raise (i := .minbits) (cmdMinbits_bitBounds (le_mlen hk) h),
    fun h => exec_raise (i := .extenc) (cmdExtenc_extTooLong h),
    fun h => exec_raise (i := .extenc) (cmdExtenc_empty (congrArg BitVec.toNat h)),
    fun h1 h5 h => exec_raise (i := .extenc) (cmdExtenc_byteBounds h1 h5 h),
    fun h1 h5 hy h => exec_raise (i := .extenc) (cmdExtenc_bitBounds h1 h5 hy h),
    fun _ h1 h5 hy hb hc h => exec_raise (i := .extenc) (cmdExtenc_noDot h1 h5 hy hb hc h),
    fun _ hn h5 hy hb hext h =>
      exec_raise (i := .extenc) (cmdExtenc_zeroByte ((Nat.le_add_left 1 _).trans_eq hn) h5 hy hb hn hext h),
    fun h => exec_raise (i := .extdec) (cmdExtdec_streamShort h),
    fun h40 h => exec_raise (i := .extdec) (cmdExtdec_bitBounds h40 h),
    fun h40 hb h => exec_raise (i := .extdec) (cmdExtdec_byteBounds h40 hb h)⟩

/-! ### Round trips -/

/-- BITS2B of a stream of `8n` bits that are those of `n` bytes writes the bytes and reports `n` and 0
(41_codec R153, R160). -/
theorem exec_bits2b_bits8 {s : State} {bytes : List Byte} (hn : s.arg1.toNat = 8 * bytes.length)
    (hbits : s.bit.Holds s.arg0.toNat (bytes.flatMap bits8))
    (hb : s.arg0.toNat + s.arg1.toNat ≤ s.cfg.bitDepth.toNat)
    (hy : s.arg2.toNat + bytes.length ≤ s.cfg.byteDepth.toNat) :
    exec .bits2b s = .next { s with
      byte := Mem.writeList s.byte s.a2 bytes
      res0 := result bytes.length
      res1 := 0 } := by
  have hdiv : s.a1 / 8 = bytes.length := Nat.div_eq_of_eq_mul_right (by decide) hn
  have hmod : s.a1 % 8 = 0 := Nat.mod_eq_zero_of_dvd ⟨_, hn⟩
  refine exec_of_ok (cmdBits2b_ok.mpr ⟨hb, ?_, _, ⟨?_, hbits⟩, ?_⟩)
  · rwa [hdiv]
  · rw [flatMap_bits8_length, hdiv]
  · rw [packBytes_flatMap_bits8, hdiv, hmod]; rfl

/-- Settles O32: the second command reads the range that the first has written. -/
theorem codecRoundTrips : Obligations.CodecRoundTrips := by
  constructor
  · intro s bytes d hlen hbytes hy hb hd
    have hres : (result (8 * s.a1)).toNat = 8 * s.a1 := result_toNat (by rw [State.a1]; omega)
    refine ⟨_, _, exec_of_ok (cmdB2bits_ok.mpr ⟨hy, hb, bytes, ⟨hlen, hbytes⟩, rfl⟩),
      exec_bits2b_bits8 (bytes := bytes) ?_ (Mem.holds_writeList _ _ _) ?_ ?_, Mem.holds_writeList _ _ _, ?_, rfl⟩
    · rw [hres, hlen, State.a1]
    · rwa [hres]
    · rwa [hlen]
    · rw [hlen]; exact result_a1 s
  · intro s tail d hn h4 h0 hext hy hb hd
    have hres : (result (s.a3 + 40)).toNat = s.a3 + 40 := result_toNat (by rw [State.a3]; omega)
    have hlen : ((0x2E : Byte) :: tail).length = s.a1 := hn.symm
    have hdec := exec_extdec
      (s := { s with
        bit := s.bit.writeList (s.a2 + s.a3) ((suffixSlots tail).flatMap bits8)
        res0 := result (s.a3 + 40)
        arg0 := s.arg2
        arg1 := result (s.a3 + 40)
        arg2 := d })
      (suffixSlots_length (tail := tail) (by omega)) (by rw [hres]; omega)
      (by rw [hres, Nat.add_sub_cancel]; exact Mem.holds_writeList _ _ _) (by rwa [hres]) hd
    rw [suffixString_suffixSlots h0, hlen, result_a1] at hdec
    exact ⟨_, _, exec_extenc hn h4 h0 hext hy hb, hdec, Mem.holds_writeList _ _ _,
      Mem.sameOutside_writeList_of_length hlen, rfl⟩

end Sys2Proof.Machine
end

section
/-! PROOFS. The NUDGE unit (42_nudge.md): the nudge rule in exact integers and on a pixel, the draw under each source,
then how NUDGE completes and the errors it raises. -/

namespace Sys2Proof.Machine

/-! ### The nudge rule -/

/-- A nudge moves by exactly 1, whatever `M` and `x` are (42_nudge R180). -/
theorem nudge_moves_by_one (M x : Int) (b : Bool) : nudge M x b = x + 1 ∨ nudge M x b = x - 1 := by
  unfold nudge; split <;> split <;> simp

/-- At the end of the range that the direction bit points past, the nudge turns back inside (42_nudge R181). -/
theorem nudge_mem_range {M x : Int} (b : Bool) (hM : 1 ≤ M) (h0 : 0 ≤ x) (hx : x ≤ M) :
    0 ≤ nudge M x b ∧ nudge M x b ≤ M := by
  unfold nudge; split <;> split <;> omega

/-- A move by 1 flips the parity (42_nudge R181). -/
theorem nudge_parity (M x : Int) (b : Bool) : nudge M x b % 2 = 1 - x % 2 := by
  obtain h | h := nudge_moves_by_one M x b <;> omega

/-- Above `M` an upward nudge moves further out (42_nudge R181). -/
theorem nudge_up_of_above {M x : Int} (h : M < x) : nudge M x true = x + 1 := by
  rw [nudge, if_pos rfl, if_neg (ne_of_gt h)]

/-- Settles O33: the nudge moves by 1, and turns back at either end of the range where the range has two values. -/
theorem nudgeStaysInRange : Obligations.NudgeStaysInRange :=
  ⟨fun M x b hM h0 hx => ⟨nudge_mem_range b hM h0 hx, nudge_moves_by_one M x b, nudge_parity M x b⟩,
    ⟨rfl, rfl⟩, fun _ _ h => (nudge_up_of_above h).symm ▸ Int.lt_succ _⟩

/-! ### A nudged pixel -/

section Pixel

variable {maxi x : Word} (b : Bool) (h0 : maxi ≠ 0) (hx : x.toNat ≤ maxi.toNat)
include h0 hx

/-- The pixel cell holds the nudge exactly: the result is in range, so nothing is cut off (42_nudge R181). -/
theorem nudgePixel_toNat_cast : ((nudgePixel maxi x b).toNat : Int) = nudge maxi.toNat x.toNat b := by
  have hM : maxi.toNat ≠ 0 := fun h => h0 (BitVec.eq_of_toNat_eq h)
  obtain ⟨hlo, hhi⟩ := nudge_mem_range (M := maxi.toNat) (x := x.toNat) b (by omega) (by omega) (by omega)
  rw [nudgePixel, result_toNat (by omega), Int.toNat_of_nonneg hlo]

/-- The nudge rule on natural numbers (42_nudge R180). -/
theorem nudgePixel_toNat : (nudgePixel maxi x b).toNat =
    (if b then (if x = maxi then x.toNat - 1 else x.toNat + 1)
      else (if x = 0 then x.toNat + 1 else x.toNat - 1)) := by
  have h := nudgePixel_toNat_cast b h0 hx
  have hmax : x = maxi ↔ x.toNat = maxi.toNat := BitVec.toNat_inj.symm
  have hzero : x = 0 ↔ x.toNat = 0 := BitVec.toNat_inj.symm
  simp only [nudge, hmax, hzero, Nat.cast_inj, Nat.cast_eq_zero] at h ⊢
  split_ifs at h ⊢ <;> omega

/-- A nudged pixel has the other LSB (42_nudge R181, R184). -/
theorem nudgePixel_lsb : ((nudgePixel maxi x b).getLsbD 0).toNat = 1 - (x.getLsbD 0).toNat := by
  have h := nudgePixel_toNat_cast b h0 hx
  have hp := nudge_parity maxi.toNat x.toNat b
  simp only [BitVec.getLsbD, Nat.toNat_testBit, pow_zero, Nat.div_one]
  omega

end Pixel

/-! ### The draw -/

/-- The reference generator on a 32-bit state is the word arithmetic (43_permutation R191). -/
theorem refNext_toNat (w : Word) : refNext w.toNat =
    ((w * 1103515245 + 12345).toNat / 65536 % 32768, (w * 1103515245 + 12345).toNat) := by
  have hw : (w * 1103515245 + 12345).toNat = (w.toNat * 1103515245 + 12345) % 2 ^ 32 := by
    rw [BitVec.toNat_add, BitVec.toNat_mul, Nat.mod_add_mod]; rfl
  rw [refNext, hw]

section Draw

variable {s : State}

/-- A free draw takes the next free value (42_nudge R182; log 5). -/
theorem drawNudge_draw (h : s.cfg.nudgeSrc = .draw) :
    drawNudge s = (Config.freeNudge s.drawCount, { s with drawCount := s.drawCount + 1 }) := by
  simp only [drawNudge, h]

/-- The reference realisation advances NSTATE and takes the low bit of the value drawn (42_nudge R182; log 5). -/
theorem drawNudge_reference (h : s.cfg.nudgeSrc = .reference) :
    drawNudge s = (decide ((s.nstate * 1103515245 + 12345).toNat / 65536 % 32768 % 2 = 1),
      { s with nstate := s.nstate * 1103515245 + 12345 }) := by
  simp only [drawNudge, h, refNext_toNat, BitVec.ofNat_toNat, BitVec.setWidth_eq]

end Draw

/-! ### Completion -/

section Completion

variable {s : State} {x : Word} (h0 : s.maxi ≠ 0) (h1 : s.arg1.toNat ≤ 1) (hd : s.arg0.toNat < s.cfg.pixDepth.toNat)
  (hr : s.pix.read s.arg0.toNat = some x) (hx : x.toNat ≤ s.maxi.toNat)
include h0 h1 hd hr hx

/-- NUDGE of a pixel that has the target LSB takes no draw (42_nudge R184). -/
theorem exec_nudge_kept (hl : (x.getLsbD 0).toNat = s.arg1.toNat) :
    exec .nudge s = .next { s with res0 := x, res1 := 0 } :=
  exec_of_ok (cmdNudge_ok.mpr ⟨h0, h1, hd, x, hr, hx, .inl ⟨hl, rfl⟩⟩)

/-- NUDGE of a pixel with the other LSB takes one draw, whose bit decides the pixel (42_nudge R184). -/
theorem exec_nudge_moved {b : Bool} {u : State} (hl : (x.getLsbD 0).toNat ≠ s.arg1.toNat)
    (hdraw : drawNudge s = (b, u)) :
    exec .nudge s = .next { u with
      pix := s.pix.write s.a0 (nudgePixel s.maxi x b), res0 := nudgePixel s.maxi x b, res1 := 1 } :=
  exec_of_ok (cmdNudge_ok.mpr ⟨h0, h1, hd, x, hr, hx, .inr ⟨hl, by rw [hdraw]⟩⟩)

end Completion

/-- Settles O34: the pixel written is the nudged one; which draw decided it is read off under each source. -/
theorem nudgeSetsPixelLsb : Obligations.NudgeSetsPixelLsb := by
  intro s x h0 h1 hd hr hx
  refine ⟨exec_nudge_kept h0 h1 hd hr hx, fun hl => ?_⟩
  rcases hdraw : drawNudge s with ⟨b, u⟩
  refine ⟨_, _, b, exec_nudge_moved h0 h1 hd hr hx hl hdraw, Mem.read_write_self _ _ _, nudgePixel_toNat b h0 hx, ?_,
    Mem.sameOutside_write _ _ _, fun hsrc => ?_, fun hsrc => ?_⟩
  · have hflip := nudgePixel_lsb b h0 hx
    have hle := Bool.toNat_le (x.getLsbD 0)
    omega
  · obtain ⟨hb, rfl⟩ := Prod.mk.inj ((drawNudge_draw hsrc).symm.trans hdraw)
    exact ⟨hb.symm, rfl⟩
  · obtain ⟨hb, rfl⟩ := Prod.mk.inj ((drawNudge_reference hsrc).symm.trans hdraw)
    exact ⟨hb ▸ decide_eq_true_iff, rfl⟩

/-! ### Errors -/

section Errors

variable {s : State}

theorem cmdNudge_maxiZero (h : s.maxi = 0) : cmdNudge s = .error (.raise .maxiZero) := by
  rw [cmdNudge, require_stop (not_not.mpr h)]

variable (h0 : s.maxi ≠ 0)
include h0

theorem cmdNudge_bitValue (h : 1 < s.a1) : cmdNudge s = .error (.raise .bitValue) := by
  rw [cmdNudge, require_pass h0, require_stop (by omega)]

variable (h1 : s.a1 ≤ 1)
include h1

theorem cmdNudge_pixBounds (h : depth s.cfg .pix < s.a0 + 1) : cmdNudge s = .error (.raise .pixBounds) := by
  rw [cmdNudge, require_pass h0, require_pass h1, need_stop h, Space.boundsDetail]

theorem cmdNudge_pixelRange {x : Word} (hd : s.a0 + 1 ≤ depth s.cfg .pix) (hr : s.pix.read s.a0 = some x)
    (h : s.maxi.toNat < x.toNat) : cmdNudge s = .error (.raise .pixelRange) := by
  rw [cmdNudge, require_pass h0, require_pass h1, need_pass hd, fetch_ok.mpr hr, ok_bind, require_stop (by omega)]

end Errors

/-- Settles O35: one lemma for each check, in the order of the checks. -/
theorem nudgeChecksRaise : Obligations.NudgeChecksRaise := fun _ =>
  ⟨fun h => exec_raise (i := .nudge) (cmdNudge_maxiZero h),
    fun h0 h => exec_raise (i := .nudge) (cmdNudge_bitValue h0 h),
    fun h0 h1 h => exec_raise (i := .nudge) (cmdNudge_pixBounds h0 h1 (Nat.lt_succ_of_le h)),
    fun _ h0 h1 hd hr h => exec_raise (i := .nudge) (cmdNudge_pixelRange h0 h1 hd hr h)⟩

end Sys2Proof.Machine
end

section
/-! PROOFS. The PERM unit (43_permutation.md): djb2 and HASH, the generators' values, then the permutations as one list
of swaps, which PERMFWD makes from the last to the first and PERMINV from the first to the last, and the errors they
raise. -/

namespace Sys2Proof.Machine

/-! ### HASH -/

/-- One more byte enters djb2 by one more multiplication (43_permutation R193). -/
theorem djb2_append (p : Config.Params) (cs : List Byte) (c : Byte) : ((djb2 p (cs ++ [c]) : Nat) : Int) =
    ((djb2 p cs : Int) * 33 + charValue p.charSigned c) % 2 ^ (if p.hash64 then 64 else 32) := by
  rw [djb2, List.foldl_concat, Int.toNat_of_nonneg (Int.emod_nonneg _ (by positivity))]
  rfl

/-- A result register keeps the low 32 bits of a result (00_scope R13). -/
theorem result_mod (n : Nat) : result n = BitVec.ofNat 32 (n % 2 ^ 32) :=
  BitVec.eq_of_toNat_eq (by rw [result, BitVec.toNat_ofNat, BitVec.toNat_ofNat, Nat.mod_mod])

theorem cmdHash_byteBounds {s : State} (h : depth s.cfg .byte < s.a0 + s.a1) :
    cmdHash s = .error (.raise .byteBounds) := by
  rw [cmdHash, need_stop h, Space.boundsDetail]

/-- Settles O36: the registers take djb2 of the bytes read, and djb2 follows its recurrence. -/
theorem hashDerivesSeed : Obligations.HashDerivesSeed := by
  refine ⟨by decide, fun s bytes hlen hbytes hy => ?_, fun s h => exec_raise (i := .hash) (cmdHash_byteBounds h),
    fun p cs c => ⟨rfl, djb2_append p cs c⟩⟩
  rw [← result_mod]
  exact exec_of_ok (cmdHash_ok.mpr ⟨hy, bytes, ⟨hlen, hbytes⟩, rfl⟩)

/-! ### The generators -/

theorem randMax_pos (g : Config.Prng) : 1 ≤ randMax g := by
  cases g with
  | reference => decide
  | custom id => exact Nat.le_add_left 1 _

/-- A generator's values are in `[0, RAND_MAX]` (43_permutation R191). -/
theorem prngNext_le_randMax (g : Config.Prng) (st : Nat) : (prngNext g st).1 ≤ randMax g := by
  cases g with
  | reference => exact Nat.le_of_lt_succ (Nat.mod_lt _ (by decide))
  | custom id => exact Nat.le_of_lt_succ (Nat.mod_lt _ (Nat.succ_pos _))

/-- Settles O42: the reference generator is R191's, and each generator's values are remainders by RAND_MAX + 1. -/
theorem generatorDraws : Obligations.GeneratorDraws :=
  ⟨fun _ _ => ⟨rfl, rfl⟩, fun _ => rfl, rfl, fun g st => ⟨prngNext_le_randMax g st, randMax_pos g⟩⟩

/-! ### A list of swaps -/

section Swaps

variable {α : Type} {sp : Space} {base start n : Nat} {ps : List (Nat × Nat)} {m m1 : Mem α} {l : List α}

/-- The swaps `ps` of memory cells, each a draw and its position, in the order of the list (43_permutation R196). -/
def swapAll (sp : Space) (base : Nat) : List (Nat × Nat) → Mem α → Cmd (Mem α)
  | [], m => .ok m
  | p :: ps, m => swapCells sp m (base + p.2) (base + p.1) >>= swapAll sp base ps

/-- The same swaps of a sequence. -/
def swapListAll (ps : List (Nat × Nat)) (l : List α) : List α := ps.foldl (fun l p => swapAt l p.2 p.1) l

/-- Every swap is of two positions of `[start, n)`. -/
def SwapsWithin (start n : Nat) (ps : List (Nat × Nat)) : Prop :=
  ∀ p ∈ ps, (start ≤ p.1 ∧ p.1 < n) ∧ start ≤ p.2 ∧ p.2 < n

theorem SwapsWithin.reverse (h : SwapsWithin start n ps) : SwapsWithin start n ps.reverse :=
  fun p hp => h p (List.mem_reverse.mp hp)

/-- Swaps within a range are swaps within one that starts earlier. -/
theorem SwapsWithin.mono {lo : Nat} (h : SwapsWithin start n ps) (hlo : lo ≤ start) : SwapsWithin lo n ps := by
  intro p hp
  obtain ⟨⟨hd1, hd2⟩, hp1, hp2⟩ := h p hp
  exact ⟨⟨hlo.trans hd1, hd2⟩, hlo.trans hp1, hp2⟩

theorem swapAll_append (qs : List (Nat × Nat)) : swapAll sp base (ps ++ qs) m =
    (swapAll sp base ps m >>= swapAll sp base qs) := by
  induction ps generalizing m with
  | nil => rfl
  | cons p ps ih =>
    simp only [List.cons_append, swapAll, bind_assoc]
    exact bind_congr fun _ => ih

/-- The swaps of PERMINV, as a list of swaps. -/
theorem swapsUp_eq_swapAll {js : List Nat} {i : Nat} : swapsUp sp base i js m = swapAll sp base (js.zipIdx i) m := by
  induction js generalizing i m with
  | nil => rfl
  | cons j js ih =>
    rw [swapsUp, List.zipIdx_cons, swapAll]
    cases swapCells sp m (base + i) (base + j) with
    | error e => rfl
    | ok m' => exact ih

/-- The swaps of PERMFWD are the same ones from the last to the first. -/
theorem swapsDown_eq_swapAll {js : List Nat} :
    swapsDown sp base start js m = swapAll sp base (js.reverse.zipIdx start).reverse m := by
  induction js generalizing m with
  | nil => rfl
  | cons j js ih =>
    rw [swapsDown, List.reverse_cons, List.zipIdx_append, List.reverse_append, List.length_reverse,
      List.zipIdx_singleton, List.reverse_singleton, List.singleton_append, swapAll]
    cases swapCells sp m (base + (start + js.length)) (base + j) with
    | error e => rfl
    | ok m' => exact ih

/-- Swaps of cells are swaps of the sequence they hold, and change no other cell (43_permutation R196, R201). -/
theorem swapAll_holdsFrom (hps : SwapsWithin start n ps) (hlen : l.length = n) (h : m.HoldsFrom base start l) :
    ∃ m', swapAll sp base ps m = .ok m' ∧ m'.HoldsFrom base start (swapListAll ps l) ∧
      m.SameOutside m' (base + start) (n - start) := by
  induction ps generalizing m l with
  | nil => exact ⟨m, rfl, h, fun _ _ => rfl⟩
  | cons p ps ih =>
    obtain ⟨⟨⟨hd1, hd2⟩, hp1, hp2⟩, hps⟩ := List.forall_mem_cons.mp hps
    obtain ⟨m1, hs, h1, hout1⟩ := swapCells_holdsFrom (sp := sp) h hp1 (hlen ▸ hp2) hd1 (hlen ▸ hd2)
    obtain ⟨m2, hs2, h2, hout2⟩ := ih hps ((swapAt_length ..).trans hlen) h1
    refine ⟨m2, by rw [swapAll, hs, ok_bind, hs2], h2, fun b hb => ?_⟩
    rw [hout2 b hb, hout1 b (by omega) (by omega)]

/-- Swaps of cells that all hold a value succeed. -/
theorem swapAll_total (hps : SwapsWithin start n ps) (hm : ∀ k, start ≤ k → k < n → m.read (base + k) ≠ none) :
    ∃ m', swapAll sp base ps m = .ok m' := by
  induction ps generalizing m with
  | nil => exact ⟨m, rfl⟩
  | cons p ps ih =>
    obtain ⟨⟨⟨hd1, hd2⟩, hp1, hp2⟩, hps⟩ := List.forall_mem_cons.mp hps
    rw [swapAll]
    cases hs : swapCells sp m (base + p.2) (base + p.1) with
    | error e =>
      obtain ⟨b, hb, -, rfl | rfl⟩ := swapCells_error hs
      · exact absurd hb (hm _ hp1 hp2)
      · exact absurd hb (hm _ hd1 hd2)
    | ok m1 => exact ih hps fun k h1 h2 h => hm k h1 h2 ((swapCells_unlisted hs).mp h)

/-- The swaps made again from the last to the first restore every cell (43_permutation R198). -/
theorem swapAll_reverse (h : swapAll sp base ps m = .ok m1) :
    ∃ m2, swapAll sp base ps.reverse m1 = .ok m2 ∧ ∀ b, m2.read b = m.read b := by
  induction ps generalizing m with
  | nil => cases h; exact ⟨_, rfl, fun _ => rfl⟩
  | cons p ps ih =>
    obtain ⟨m', hs, hps⟩ := bind_ok.mp h
    obtain ⟨m2, h2, hread⟩ := ih hps
    obtain ⟨m3, h3, hread3⟩ := swapCells_twice hs hread
    exact ⟨m3, by rw [List.reverse_cons, swapAll_append, h2, ok_bind, swapAll, h3, ok_bind, swapAll], hread3⟩

/-- Swaps of written cells, and then the same swaps from the last to the first, succeed and restore every cell. -/
theorem swapAll_roundTrip (hps : SwapsWithin start n ps) (hm : ∀ k, start ≤ k → k < n → m.read (base + k) ≠ none) :
    ∃ m1 m2, swapAll sp base ps m = .ok m1 ∧ swapAll sp base ps.reverse m1 = .ok m2 ∧ ∀ b, m2.read b = m.read b :=
  have ⟨m1, h1⟩ := swapAll_total hps hm
  have ⟨m2, h2⟩ := swapAll_reverse h1
  ⟨m1, m2, h1, h2⟩

end Swaps

/-! ### The swaps of a permutation -/

section Perm

variable {α : Type} {sp : Space} {s : State} {st j : Nat → Nat}

/-- The swaps of the permutation that the operands and SEED give, each a draw and its position, from position `start` up
(43_permutation R195). -/
def permSwaps (s : State) : List (Nat × Nat) := (drawSequence s s.a1 s.a2).1.reverse.zipIdx s.a2

theorem permSwaps_within (h : s.a2 ≤ s.a1) : SwapsWithin s.a2 s.a1 (permSwaps s) := by
  intro p hp
  have hlt := List.snd_lt_add_of_mem_zipIdx hp
  rw [List.length_reverse, drawSequence_length] at hlt
  exact ⟨drawSequence_mem h (List.mem_reverse.mp (List.fst_mem_of_mem_zipIdx hp)),
    List.le_snd_of_mem_zipIdx hp, by omega⟩

/-- With the draws as a function of the position, the swaps are listed by position. -/
theorem permSwaps_eq (h : s.DrawsFrom s.a1 s.a2 st j) (hle : s.a2 ≤ s.a1) :
    permSwaps s = (List.range (s.a1 - s.a2)).map fun k => (j (s.a2 + k), s.a2 + k) := by
  rw [permSwaps, drawSequence_eq h hle, List.map_reverse, List.reverse_reverse]
  exact List.ext_getElem (by simp) (by simp)

/-- `inv` is the swaps from the first to the last (43_permutation R197). -/
theorem swapListAll_permSwaps (h : s.DrawsFrom s.a1 s.a2 st j) (hle : s.a2 ≤ s.a1) (l : List α) :
    swapListAll (permSwaps s) l = invSwaps j s.a1 s.a2 l := by
  rw [permSwaps_eq h hle, swapListAll, List.foldl_map, invSwaps]

/-- `fwd` is the swaps from the last to the first (43_permutation R196). -/
theorem swapListAll_permSwaps_reverse (h : s.DrawsFrom s.a1 s.a2 st j) (hle : s.a2 ≤ s.a1) (l : List α) :
    swapListAll (permSwaps s).reverse l = fwdSwaps j s.a1 s.a2 l := by
  rw [permSwaps_eq h hle, swapListAll, ← List.map_reverse, List.foldl_map, fwdSwaps]

/-- PSTATE after a permutation is the generator's state after the last draw (43_permutation R203). -/
theorem drawSequence_snd (h : s.DrawsFrom s.a1 s.a2 st j) (hle : s.a2 ≤ s.a1) :
    (drawSequence s s.a1 s.a2).2 = st s.a2 := by rw [drawSequence_eq h hle]

/-- The swaps of PERMFWD make `fwd` of the sequence that the cells hold from `lo` on (43_permutation R196, R201). -/
theorem swapAll_fwd {m : Mem α} {l : List α} {lo : Nat} (hdraws : s.DrawsFrom s.a1 s.a2 st j) (hle : s.a2 ≤ s.a1)
    (hlo : lo ≤ s.a2) (hlen : l.length = s.a1) (hl : m.HoldsFrom s.a0 lo l) :
    ∃ m', swapAll sp s.a0 (permSwaps s).reverse m = .ok m' ∧ m'.HoldsFrom s.a0 lo (fwdSwaps j s.a1 s.a2 l) ∧
      m.SameOutside m' (s.a0 + lo) (s.a1 - lo) := by
  rw [← swapListAll_permSwaps_reverse hdraws hle]
  exact swapAll_holdsFrom ((permSwaps_within hle).mono hlo).reverse hlen hl

/-- The swaps of PERMINV make `inv` of the sequence (43_permutation R197, R201). -/
theorem swapAll_inv {m : Mem α} {l : List α} (hdraws : s.DrawsFrom s.a1 s.a2 st j) (hle : s.a2 ≤ s.a1)
    (hlen : l.length = s.a1) (hl : m.HoldsFrom s.a0 s.a2 l) :
    ∃ m', swapAll sp s.a0 (permSwaps s) m = .ok m' ∧ m'.HoldsFrom s.a0 s.a2 (invSwaps j s.a1 s.a2 l) ∧
      m.SameOutside m' (s.a0 + s.a2) (s.a1 - s.a2) := by
  rw [← swapListAll_permSwaps hdraws hle]
  exact swapAll_holdsFrom (permSwaps_within hle) hlen hl

section RoundTrip

variable {m : Mem α} (hle : s.a2 ≤ s.a1) (hm : ∀ k, s.a2 ≤ k → k < s.a1 → m.read (s.a0 + k) ≠ none)
include hle hm

/-- `inv` of `fwd` restores every cell (43_permutation R198). -/
theorem permSwaps_fwd_inv : ∃ m1 m2, swapAll sp s.a0 (permSwaps s).reverse m = .ok m1 ∧
    swapAll sp s.a0 (permSwaps s) m1 = .ok m2 ∧ ∀ b, m2.read b = m.read b := by
  simpa only [List.reverse_reverse] using swapAll_roundTrip (permSwaps_within hle).reverse hm

/-- `fwd` of `inv` restores every cell (43_permutation R198). -/
theorem permSwaps_inv_fwd : ∃ m1 m2, swapAll sp s.a0 (permSwaps s) m = .ok m1 ∧
    swapAll sp s.a0 (permSwaps s).reverse m1 = .ok m2 ∧ ∀ b, m2.read b = m.read b :=
  swapAll_roundTrip (permSwaps_within hle) hm

end RoundTrip

theorem exec_permfwdBit {m : Mem Bool} (hok : s.PermOperandsOk s.cfg.bitDepth.toNat)
    (h : swapAll .bit s.a0 (permSwaps s).reverse s.bit = .ok m) :
    exec .permfwdBit s = .next { s with bit := m, pstate := (drawSequence s s.a1 s.a2).2 } :=
  exec_of_ok (cmdPermfwdBit_ok.mpr ⟨hok, m, swapsDown_eq_swapAll.trans h, rfl⟩)

theorem exec_permfwdIdx {m : Mem Word} (hok : s.PermOperandsOk s.cfg.idxDepth.toNat)
    (h : swapAll .idx s.a0 (permSwaps s).reverse s.idx = .ok m) :
    exec .permfwdIdx s = .next { s with idx := m, pstate := (drawSequence s s.a1 s.a2).2 } :=
  exec_of_ok (cmdPermfwdIdx_ok.mpr ⟨hok, m, swapsDown_eq_swapAll.trans h, rfl⟩)

theorem exec_perminvBit {m : Mem Bool} (hok : s.PermOperandsOk s.cfg.bitDepth.toNat)
    (h : swapAll .bit s.a0 (permSwaps s) s.bit = .ok m) :
    exec .perminvBit s = .next { s with bit := m, pstate := (drawSequence s s.a1 s.a2).2, drawBuf := [] } :=
  exec_of_ok (cmdPerminvBit_ok.mpr ⟨hok, m, swapsUp_eq_swapAll.trans h, rfl⟩)

theorem exec_perminvIdx {m : Mem Word} (hok : s.PermOperandsOk s.cfg.idxDepth.toNat)
    (h : swapAll .idx s.a0 (permSwaps s) s.idx = .ok m) :
    exec .perminvIdx s = .next { s with idx := m, pstate := (drawSequence s s.a1 s.a2).2, drawBuf := [] } :=
  exec_of_ok (cmdPerminvIdx_ok.mpr ⟨hok, m, swapsUp_eq_swapAll.trans h, rfl⟩)

theorem exec_permidx {m : Mem Word} (hok : s.PermOperandsOk s.cfg.idxDepth.toNat)
    (h : swapAll .idx s.a0 (permSwaps s).reverse (s.idx.writeList s.a0 (identityTable s.a1)) = .ok m) :
    exec .permidx s = .next { s with idx := m, pstate := (drawSequence s s.a1 s.a2).2 } :=
  exec_of_ok (cmdPermidx_ok.mpr ⟨hok, m, swapsDown_eq_swapAll.trans h, rfl⟩)

end Perm

/-! ### Completion -/

/-- Settles O37: the swaps of the cells from the last to the first are `fwd` of the sequence. -/
theorem permfwdAppliesDraws : Obligations.PermfwdAppliesDraws := by
  intro s st j hdraws
  constructor
  · intro l hok hlen hl
    obtain ⟨m, hm, hholds, hout⟩ := swapAll_fwd hdraws hok.1 le_rfl hlen hl
    exact ⟨_, exec_permfwdBit hok hm, hholds, hout, by rw [drawSequence_snd hdraws hok.1]; rfl⟩
  · intro l hok hlen hl
    obtain ⟨m, hm, hholds, hout⟩ := swapAll_fwd hdraws hok.1 le_rfl hlen hl
    exact ⟨_, exec_permfwdIdx hok hm, hholds, hout, by rw [drawSequence_snd hdraws hok.1]; rfl⟩

/-- Settles O38: the swaps of the cells from the first to the last are `inv` of the sequence. -/
theorem perminvAppliesDraws : Obligations.PerminvAppliesDraws := by
  intro s st j hdraws
  constructor
  · intro l hok hlen hl
    obtain ⟨m, hm, hholds, hout⟩ := swapAll_inv hdraws hok.1 hlen hl
    exact ⟨_, exec_perminvBit hok hm, hholds, hout, by rw [drawSequence_snd hdraws hok.1]; rfl⟩
  · intro l hok hlen hl
    obtain ⟨m, hm, hholds, hout⟩ := swapAll_inv hdraws hok.1 hlen hl
    exact ⟨_, exec_perminvIdx hok hm, hholds, hout, by rw [drawSequence_snd hdraws hok.1]; rfl⟩

/-- Settles O39: the identity table is written from position 0 and then permuted, so that the whole table is held. -/
theorem permidxBuildsTable : Obligations.PermidxBuildsTable := by
  intro s st j hdraws hok
  have hlen : (identityTable s.a1).length = s.a1 := by rw [identityTable, List.length_map, List.length_range]
  obtain ⟨m, hm, hholds, hout⟩ := swapAll_fwd (sp := .idx) hdraws hok.1 (Nat.zero_le _) hlen
    fun k _ hk => Mem.read_writeList_at s.idx s.a0 _ hk
  refine ⟨_, exec_permidx hok hm, fun k hk => hholds k (Nat.zero_le k) hk, fun b hb => ?_,
    by rw [drawSequence_snd hdraws hok.1]; rfl⟩
  exact (hout b hb).trans (Mem.sameOutside_writeList_of_length hlen b hb)

/-- Settles O40: PERMFWD and PERMINV make the same swaps in opposite orders. -/
theorem permutationInvertible : Obligations.PermutationInvertible := by
  intro s
  refine ⟨fun hok hwritten => ⟨?_, ?_⟩, fun hok hwritten => ⟨?_, ?_⟩⟩
  · obtain ⟨_, _, hfwd, hinv, h⟩ := permSwaps_fwd_inv hok.1 hwritten
    exact ⟨_, _, exec_permfwdBit hok hfwd, exec_perminvBit hok hinv, h⟩
  · obtain ⟨_, _, hinv, hfwd, h⟩ := permSwaps_inv_fwd hok.1 hwritten
    exact ⟨_, _, exec_perminvBit hok hinv, exec_permfwdBit hok hfwd, h⟩
  · obtain ⟨_, _, hfwd, hinv, h⟩ := permSwaps_fwd_inv hok.1 hwritten
    exact ⟨_, _, exec_permfwdIdx hok hfwd, exec_perminvIdx hok hinv, h⟩
  · obtain ⟨_, _, hinv, hfwd, h⟩ := permSwaps_inv_fwd hok.1 hwritten
    exact ⟨_, _, exec_perminvIdx hok hinv, exec_permfwdIdx hok hfwd, h⟩

/-! ### Errors -/

section Errors

variable {sp : Space} {s : State} {i : Instr} {d : Detail}

theorem permChecks_rangeOrder (h : s.a1 < s.a2) : permChecks s sp = .error (.raise .rangeOrder) := by
  rw [permChecks, require_stop (Nat.not_le.mpr h)]

theorem permChecks_bounds (h1 : s.a2 ≤ s.a1) (h : depth s.cfg sp < s.a0 + s.a1) :
    permChecks s sp = .error (.raise sp.boundsDetail) := by
  rw [permChecks, require_pass h1, need_stop h]

theorem permChecks_permLimit (h1 : s.a2 ≤ s.a1) (h2 : s.a0 + s.a1 ≤ depth s.cfg sp)
    (h : s.cfg.permMax.toNat < s.a1 - s.a2) : permChecks s sp = .error (.raise .permLimit) := by
  rw [permChecks, require_pass h1, need_pass h2, require, if_neg (Nat.not_le.mpr h)]

/-- The commands that permute BIT check that space first. -/
theorem exec_raise_permBit (hi : i ∈ [Instr.permfwdBit, .perminvBit]) (h : permChecks s .bit = .error (.raise d)) :
    exec i s = .next (s.fail d) := by
  simp only [List.mem_cons, List.not_mem_nil, or_false] at hi
  obtain rfl | rfl := hi
  · exact exec_raise (bind_error.mpr (.inl h))
  · exact exec_raise (bind_error.mpr (.inl h))

/-- The commands that permute IDX check that space first. -/
theorem exec_raise_permIdx (hi : i ∈ [Instr.permfwdIdx, .perminvIdx, .permidx])
    (h : permChecks s .idx = .error (.raise d)) : exec i s = .next (s.fail d) := by
  simp only [List.mem_cons, List.not_mem_nil, or_false] at hi
  obtain rfl | rfl | rfl := hi
  · exact exec_raise (bind_error.mpr (.inl h))
  · exact exec_raise (bind_error.mpr (.inl h))
  · exact exec_raise (bind_error.mpr (.inl h))

end Errors

/-- Settles O41: each command makes the shared checks of its space before anything else. -/
theorem permChecksRaise : Obligations.PermChecksRaise := fun _ =>
  ⟨fun _ hi h => (List.mem_append (s := [Instr.permfwdBit, .perminvBit]).mp hi).elim
      (exec_raise_permBit · (permChecks_rangeOrder h)) (exec_raise_permIdx · (permChecks_rangeOrder h)),
    fun _ hi h1 h => exec_raise_permBit hi (permChecks_bounds h1 h),
    fun _ hi h1 h => exec_raise_permIdx hi (permChecks_bounds h1 h),
    fun _ hi h1 h2 h => exec_raise_permBit hi (permChecks_permLimit h1 h2 h),
    fun _ hi h1 h2 h => exec_raise_permIdx hi (permChecks_permLimit h1 h2 h)⟩

end Sys2Proof.Machine
end

section
/-! PROOFS. HBEST (44_hamming_matrix R224 to R226): where the search stops, and why the capacity falls as the rows grow. -/

namespace Sys2Proof.Machine

section Search

variable {K P r : Nat}

/-- The search stops at the first number of rows whose capacity is at most the payload, by any `n` within its turns whose
capacity is (44_hamming_matrix R224). -/
theorem hbestLoop_spec {n : Nat} (hn : capacity K n ≤ P) : ∀ {fuel rows : Nat}, rows ≤ n → n ≤ rows + fuel →
    (rows ≤ hbestLoop K P fuel rows ∧ hbestLoop K P fuel rows ≤ n) ∧ capacity K (hbestLoop K P fuel rows) ≤ P ∧
      ∀ q, rows ≤ q → q < hbestLoop K P fuel rows → P < capacity K q := by
  intro fuel
  induction fuel with
  | zero =>
    intro rows h1 h2
    obtain rfl : rows = n := Nat.le_antisymm h1 h2
    exact ⟨⟨le_rfl, le_rfl⟩, hn, fun q hq hlt => absurd hq (Nat.not_le.mpr hlt)⟩
  | succ fuel ih =>
    intro rows h1 h2
    rw [hbestLoop]
    split
    case isTrue hP =>
      have hne : rows ≠ n := by rintro rfl; omega
      obtain ⟨⟨hlo, hhi⟩, hcap, hbelow⟩ := ih (rows := rows + 1) (by omega) (by omega)
      refine ⟨⟨by omega, hhi⟩, hcap, fun q hq hlt => ?_⟩
      obtain rfl | hq := Nat.eq_or_lt_of_le hq
      · exact hP
      · exact hbelow q hq hlt
    case isFalse hP => exact ⟨⟨le_rfl, h1⟩, Nat.not_lt.mp hP, fun q hq hlt => absurd hq (Nat.not_le.mpr hlt)⟩

/-- No `u32` holds a code of 33 rows, which ends the search (44_hamming_matrix R225). -/
theorem capacity_33 (h : K < 2 ^ 32) : capacity K 33 = 0 := by
  rw [capacity, Nat.div_eq_of_lt (by omega), Nat.zero_mul]

/-- One more row at least halves the number of codes that fit (44_hamming_matrix R226 law 2). -/
theorem codes_succ (h : 1 ≤ r) : 2 * (K / (2 ^ (r + 1) - 1)) ≤ K / (2 ^ r - 1) := by
  have hpos : 2 ≤ 2 ^ r := Nat.le_self_pow (by omega) 2
  calc 2 * (K / (2 ^ (r + 1) - 1)) ≤ 2 * (K / ((2 ^ r - 1) * 2)) :=
        Nat.mul_le_mul_left 2 (Nat.div_le_div_left (by omega) (by omega))
    _ = 2 * (K / (2 ^ r - 1) / 2) := by rw [Nat.div_div_eq_div_mul]
    _ ≤ K / (2 ^ r - 1) := Nat.mul_div_le _ 2

/-- The capacity does not increase with the rows (44_hamming_matrix R226 law 2). -/
theorem capacity_antitone {q : Nat} (h : 1 ≤ r) (hq : r ≤ q) : capacity K q ≤ capacity K r := by
  refine antitoneOn_nat_Ici_of_succ_le (k := 1) (fun n hn => ?_) h (h.trans hq) hq
  calc K / (2 ^ (n + 1) - 1) * (n + 1) ≤ K / (2 ^ (n + 1) - 1) * (2 * n) := Nat.mul_le_mul_left _ (by omega)
    _ = 2 * (K / (2 ^ (n + 1) - 1)) * n := by ring
    _ ≤ K / (2 ^ n - 1) * n := Nat.mul_le_mul_right n (codes_succ hn)

/-- From two rows on, a capacity other than 0 falls with each row (44_hamming_matrix R226 law 3). -/
theorem capacity_succ_lt (h : 2 ≤ r) (h0 : 0 < capacity K r) : capacity K (r + 1) < capacity K r := by
  obtain hz | hpos := Nat.eq_zero_or_pos (K / (2 ^ (r + 1) - 1))
  · rwa [capacity, hz, Nat.zero_mul]
  · calc K / (2 ^ (r + 1) - 1) * (r + 1) < K / (2 ^ (r + 1) - 1) * (2 * r) := Nat.mul_lt_mul_of_pos_left (by omega) hpos
      _ = 2 * (K / (2 ^ (r + 1) - 1)) * r := by ring
      _ ≤ K / (2 ^ r - 1) * r := Nat.mul_le_mul_right r (codes_succ (by omega))

end Search

/-- Settles O43: the search stops at 33 rows at the latest, where the capacity is 0. -/
theorem hbestSearches : Obligations.HbestSearches := by
  refine ⟨by decide, fun s => ?_⟩
  have hstop : capacity s.arg0.toNat 33 ≤ s.arg1.toNat := by rw [capacity_33 s.arg0.isLt]; exact Nat.zero_le _
  obtain ⟨⟨hlo, hhi⟩, hcap, hbelow⟩ := hbestLoop_spec hstop (fuel := 32) (rows := 2) (by decide) (by decide)
  exact ⟨_, _, hlo, hhi, hcap, hbelow, rfl, exec_of_ok (i := .hbest) (cmdHbest_ok.mpr rfl)⟩

/-- Settles O44: the search steps back from a capacity below the payload, and otherwise stands at the payload itself, which the
next capacity falls below. -/
theorem hbestIsOptimal : Obligations.HbestIsOptimal := by
  intro s t ht hP hrows
  obtain ⟨R, r, hlo, hhi, hcap, hbelow, hr, hexec⟩ := hbestSearches.2 s
  obtain rfl : _ = t := Host.Outcome.next.inj (hexec.symm.trans ht)
  have hres : (BitVec.ofNat 32 r).toNat = r := result_toNat (by split at hr <;> omega)
  simp only [hres] at hrows ⊢
  split at hr
  case isTrue hlt =>
    subst hr
    exact ⟨(hbelow _ hrows (by omega)).le, fun q hq => (capacity_antitone (by omega) (by omega)).trans_lt hlt⟩
  case isFalse hge =>
    subst hr
    exact ⟨Nat.not_lt.mp hge, fun q hq => (capacity_antitone (by omega) hq).trans_lt
      ((capacity_succ_lt hlo (hP.trans_le (Nat.not_lt.mp hge))).trans_le hcap)⟩

end Sys2Proof.Machine
end

section
/-! PROOFS. The Hamming matrix (44_hamming_matrix R220 to R223, R227 to R235): the syndrome as the GF(2) product and its
linearity, then the commands that make the matrix, read it and multiply by it, and the errors they raise. -/

namespace Sys2Proof.Machine

/-! ### The syndrome -/

theorem syn_concat (v : List Bool) (b : Bool) : syn (v ++ [b]) = syn v ^^^ (if b then v.length + 1 else 0) := by
  simp [syn, synFrom_append, synFrom]

/-- The packed syndrome holds element `t` of the product at bit `t` (44_hamming_matrix R222). -/
theorem syn_testBit (v : List Bool) (t : Nat) :
    (syn v).testBit t = gf2Product (fun c => v.getD c false) v.length t := by
  induction v using List.reverseRecOn with
  | nil => simp [syn, synFrom, gf2Product]
  | append_singleton v b ih =>
    rw [syn_concat, Nat.testBit_xor, ih, List.length_append, List.length_singleton, gf2Product_succ]
    congr 1
    · exact gf2Product_congr fun c hc => (List.getD_append _ _ _ _ hc).symm
    · cases b <;> simp

/-- A flipped bit changes a syndrome by its column (44_hamming_matrix R235). -/
theorem synFrom_set_not : ∀ (v : List Bool) (k c : Nat) (h : c < v.length),
    synFrom k (v.set c (!v[c])) = synFrom k v ^^^ (k + c + 1) := by
  intro v
  induction v with
  | nil => intro k c h; exact absurd h (Nat.not_lt_zero c)
  | cons b v ih =>
    intro k c h
    cases c with
    | zero => cases b <;> simp [synFrom, Nat.xor_comm]
    | succ c =>
      simp only [List.set_cons_succ, List.getElem_cons_succ, synFrom, ih (k + 1) c (Nat.lt_of_succ_lt_succ h),
        Nat.xor_assoc]
      congr 3; omega

/-- Settles O53: both laws of the syndrome. -/
theorem syndromeIsLinear : Obligations.SyndromeIsLinear :=
  ⟨syn_testBit, fun v c h => by rw [syn, synFrom_set_not v 0 c h, Nat.zero_add, syn]⟩

/-- What HMUL and HSYN leave in RES0 for the bits they have read (44_hamming_matrix R230, R234). -/
theorem result_syn_getLsbD {v : List Bool} {w : Nat → Bool} {t : Nat} (hw : ∀ c, (h : c < v.length) → v[c] = w c)
    (ht : t < 32) : (result (syn v)).getLsbD t = gf2Product w v.length t := by
  rw [result_getLsbD ht, syn_testBit]
  exact gf2Product_congr fun c hc => by rw [List.getD_eq_getElem _ _ hc, hw c hc]

/-! ### Errors -/

section Errors

variable {s : State}

/-- The commands that read the matrix fail without one (44_hamming_matrix R220). -/
theorem exec_noMatrix {i : Instr} (hi : i ∈ [Instr.hcol, .hrow, .hmul, .hfind, .hsyn]) (h : s.hvalid = false) :
    exec i s = .next (s.fail .noMatrix) := by
  have hstop : needMatrix s = .error (.raise .noMatrix) := require_error.mpr ⟨by simp [h], rfl⟩
  simp only [List.mem_cons, List.not_mem_nil, or_false] at hi
  obtain rfl | rfl | rfl | rfl | rfl := hi
  all_goals exact exec_raise (bind_error.mpr (.inl hstop))

theorem cmdHgen_rowsRange (h : s.a0 < 1 ∨ s.cfg.rowsMax < s.a0) : cmdHgen s = .error (.raise .rowsRange) := by
  rw [cmdHgen, require_stop (by omega)]

theorem cmdHgen_colsMismatch (h1 : 1 ≤ s.a0) (h2 : s.a0 ≤ s.cfg.rowsMax) (h : s.a1 ≠ 2 ^ s.a0 - 1) :
    cmdHgen s = .error (.raise .colsMismatch) := by
  rw [cmdHgen, require_pass ⟨h1, h2⟩, require_stop h]

variable (hv : s.hvalid = true)
include hv

theorem cmdHcol_colIndex (h : s.cols ≤ s.a0) : cmdHcol s = .error (.raise .colIndex) := by
  rw [cmdHcol, needMatrix, require_pass hv, require_stop (Nat.not_lt.mpr h)]

theorem cmdHrow_rowIndex (h : s.rows ≤ s.a0) : cmdHrow s = .error (.raise .rowIndex) := by
  rw [cmdHrow, needMatrix, require_pass hv, require_stop (Nat.not_lt.mpr h)]

theorem cmdHrow_bitBounds (ht : s.a0 < s.rows) (h : depth s.cfg .bit < s.a1 + s.cols) :
    cmdHrow s = .error (.raise .bitBounds) := by
  rw [cmdHrow, needMatrix, require_pass hv, require_pass ht, need_stop h, Space.boundsDetail]

theorem cmdHmul_bitBounds (h : depth s.cfg .bit < s.a0 + s.cols) : cmdHmul s = .error (.raise .bitBounds) := by
  rw [cmdHmul, needMatrix, require_pass hv, need_stop h, Space.boundsDetail]

theorem cmdHsyn_pixBounds (h : depth s.cfg .pix < s.a1) : cmdHsyn s = .error (.raise .pixBounds) := by
  rw [cmdHsyn, needMatrix, require_pass hv, need_stop (by rwa [Nat.zero_add]), Space.boundsDetail]

/-- The scan finds no column for a target that is 0 or past the last column (44_hamming_matrix R232). -/
theorem cmdHfind_noColumn (h : s.a0 = 0 ∨ s.cols < s.a0) : cmdHfind s = .error (.raise .noColumn) := by
  rw [cmdHfind, needMatrix, require_pass hv, findColumn_error.mpr ⟨?_, rfl⟩, error_bind]
  rw [findFrom_eq, if_neg (by omega)]

end Errors

/-- Settles O52: the shared check for a matrix comes first, then one lemma for each check. -/
theorem matrixChecksRaise : Obligations.MatrixChecksRaise := fun _ =>
  ⟨fun _ hi hv => exec_noMatrix (List.Sublist.subset (by decide) hi) hv,
    fun hv h => exec_raise (i := .hrow) (cmdHrow_rowIndex hv h),
    fun hv ht h => exec_raise (i := .hrow) (cmdHrow_bitBounds hv ht h),
    fun hv h => exec_raise (i := .hmul) (cmdHmul_bitBounds hv h),
    fun hv h => exec_raise (i := .hsyn) (cmdHsyn_pixBounds hv h)⟩

/-! ### Completion -/

/-- Settles O45: one lemma for each error; HROWS takes the low 6 bits of the operand. -/
theorem hgenMakesMatrixCurrent : Obligations.HgenMakesMatrixCurrent :=
  ⟨by decide, fun _ =>
    ⟨fun h => exec_raise (i := .hgen) (cmdHgen_rowsRange h),
      fun h1 h2 h => exec_raise (i := .hgen) (cmdHgen_colsMismatch h1 h2 h),
      fun h1 h2 h => exec_of_ok (i := .hgen) (cmdHgen_ok.mpr ⟨⟨h1, h2⟩, h, rfl⟩)⟩⟩

/-- HCOL of a column of the matrix (44_hamming_matrix R228). -/
theorem exec_hcol {s : State} {c : Nat} (hv : s.hvalid = true) (ha : s.arg0.toNat = c) (hc : c < s.hcols.toNat) :
    exec .hcol s = .next { s with res0 := result (c + 1) } := by
  subst ha
  exact exec_of_ok (cmdHcol_ok.mpr ⟨hv, hc, rfl⟩)

/-- Settles O46: the packed column is the operand plus 1. -/
theorem hcolReadsColumn : Obligations.HcolReadsColumn := by
  refine ⟨by decide, fun s => ⟨exec_noMatrix (by decide), fun hv h => exec_raise (i := .hcol) (cmdHcol_colIndex hv h),
    fun hv h => ?_⟩⟩
  have hcol : result (s.arg0.toNat + 1) = s.arg0 + 1 := by simp [result, BitVec.ofNat_add]
  rw [exec_hcol hv rfl h, hcol]

/-- Settles O47: HADD has no check. -/
theorem haddXors : Obligations.HaddXors := ⟨by decide, fun _ => exec_of_ok (i := .hadd) (cmdHadd_ok.mpr rfl)⟩

/-- Settles O48: the range written holds the row's entries. -/
theorem hrowWritesRow : Obligations.HrowWritesRow := by
  intro s hv ht hb
  have hlen : ((List.range s.cols).map (hEntry s.a0)).length = s.cols := by simp
  refine ⟨_, exec_of_ok (i := .hrow) (cmdHrow_ok.mpr ⟨hv, ht, hb, rfl⟩), fun c hc => ?_,
    Mem.sameOutside_writeList_of_length hlen, rfl⟩
  exact (Mem.read_writeList_at _ _ _ (hc.trans_eq hlen.symm)).trans (by simp [hEntry, State.a0])

/-- Settles O49: the vector read is the given one. -/
theorem hmulMultiplies : Obligations.HmulMultiplies := by
  intro s v hv hlen hbits hb
  refine ⟨_, exec_of_ok (i := .hmul) (cmdHmul_ok.mpr ⟨hv, hb, v, ⟨hlen, hbits⟩, rfl⟩), fun t ht => ?_⟩
  rw [← hlen]
  exact result_syn_getLsbD (fun c hc => (List.getD_eq_getElem _ _ hc).symm) ht

/-- Settles O50: the scan finds the column of the target's value. -/
theorem hfindFindsColumn : Obligations.HfindFindsColumn := by
  refine ⟨by decide, fun s => ⟨exec_noMatrix (by decide), fun hv h1 h => ?_, fun hv h => ?_⟩⟩
  · have hfind : findFrom s.a0 0 s.cols = some (s.a0 - 1) := by
      rw [findFrom_eq, if_pos ⟨h1, h.trans_eq (Nat.zero_add _).symm⟩]
    have hcol : result (s.a0 - 1) = s.arg0 - 1 := BitVec.eq_of_toNat_eq
      ((result_toNat (Nat.lt_of_le_of_lt (Nat.sub_le _ _) s.arg0.isLt)).trans
        (BitVec.toNat_sub_of_le (x := s.arg0) (y := 1) (BitVec.le_def.mpr h1)).symm)
    rw [← hcol]
    exact exec_of_ok (i := .hfind) (cmdHfind_ok.mpr ⟨hv, _, hfind, rfl⟩)
  · exact exec_raise (i := .hfind) (cmdHfind_noColumn hv (h.imp_left (congrArg BitVec.toNat)))

/-- Settles O51: the bits read are the block's LSBs and the filler. -/
theorem hsynReadsBlock : Obligations.HsynReadsBlock := by
  intro s v hv hd hpix hfill
  have hlen : ((List.range s.cols).map v).length = s.cols := by simp
  have hread : blockBits s.pix s.a1 s.a0 s.cols = .ok ((List.range s.cols).map v) :=
    blockBits_ok.mpr ⟨hlen, fun c hc => by
      rw [List.getElem_map, List.getElem_range]
      exact ⟨hpix c (hc.trans_eq hlen), hfill c (hc.trans_eq hlen)⟩⟩
  refine ⟨_, exec_of_ok (i := .hsyn) (cmdHsyn_ok.mpr ⟨hv, hd, _, hread, rfl⟩), fun t ht => ?_⟩
  exact (result_syn_getLsbD (fun c hc => by rw [List.getElem_map, List.getElem_range]) ht).trans (by rw [hlen]; rfl)

/-! ### The columns -/

/-- Settles O54: HCOL of column `c` reads `c + 1`, which is never 0 and different for each column. -/
theorem columnsAreDistinctAndComplete : Obligations.ColumnsAreDistinctAndComplete := by
  intro s hv _ _ hcols
  have hres : ∀ c, c < s.hcols.toNat → (result (c + 1)).toNat = c + 1 := fun c hc =>
    result_toNat (Nat.lt_of_le_of_lt hc s.hcols.isLt)
  have hexec : ∀ c, c < s.hcols.toNat → exec .hcol { s with arg0 := BitVec.ofNat 32 c } =
      .next { s with arg0 := BitVec.ofNat 32 c, res0 := result (c + 1) } := fun c hc =>
    exec_hcol hv (result_toNat (hc.trans s.hcols.isLt)) hc
  refine ⟨fun c hc => ⟨_, hexec c hc, fun h0 => ?_, ?_⟩, fun x hx hlt => ?_⟩
  · exact Nat.succ_ne_zero c ((hres c hc).symm.trans (congrArg BitVec.toNat h0))
  · rw [hres c hc]; omega
  · have hpos : x.toNat ≠ 0 := fun h => hx (BitVec.eq_of_toNat_eq h)
    refine ⟨by omega, fun c hc => ?_⟩
    rw [hexec c hc]
    constructor
    · intro h
      have : result (c + 1) = x := congrArg State.res0 (Host.Outcome.next.inj h)
      rw [← this, hres c hc, Nat.add_sub_cancel]
    · rintro rfl
      rw [Nat.sub_add_cancel (by omega), result, BitVec.ofNat_toNat, BitVec.setWidth_eq]

end Sys2Proof.Machine
end

section
/-! PROOFS. The errors of HEMBED and HEXTRACT in their order, and what HEXTRACT reads (45_syndrome_embed R261, R263,
R266 to R268, R270). -/

namespace Sys2Proof.Machine

/-! ### Errors -/

section Errors

variable {s : State}

/-- Both commands fail without a matrix (44_hamming_matrix R220). -/
theorem exec_embed_noMatrix {i : Instr} (hi : i ∈ [Instr.hembed, .hextract]) (hv : s.hvalid = false) :
    exec i s = .next (s.fail .noMatrix) := by
  have hstop : needMatrix s = .error (.raise .noMatrix) := require_error.mpr ⟨by simp [hv], rfl⟩
  obtain rfl | rfl := List.mem_pair.mp hi
  all_goals exact exec_raise (bind_error.mpr (.inl hstop))

/-- Both commands fail with a code of one row (45_syndrome_embed R261). -/
theorem exec_embed_codeTooSmall {i : Instr} (hi : i ∈ [Instr.hembed, .hextract]) (hv : s.hvalid = true)
    (hsmall : s.rows ≤ 1 ∨ s.cols ≤ 2) : exec i s = .next (s.fail .codeTooSmall) := by
  have hstop : needUsefulCode s = .error (.raise .codeTooSmall) := require_error.mpr ⟨not_not.mpr hsmall, rfl⟩
  obtain rfl | rfl := List.mem_pair.mp hi
  all_goals exact exec_raise (bind_error.mpr (.inr ⟨(), needMatrix_ok.mpr hv, bind_error.mpr (.inl hstop)⟩))

variable (hu : s.UsefulCode)
include hu

/-- The two checks of the matrix pass for a useful code (45_syndrome_embed R261). -/
theorem matrixChecks_pass {β : Type} {k : Unit → Cmd β} :
    (needMatrix s >>= fun _ => needUsefulCode s >>= k) = k () := by
  rw [needMatrix, require_pass hu.1, needUsefulCode, require_pass (not_small_of_usefulCode hu)]

theorem cmdHembed_maxiZero (h : s.maxi = 0) : cmdHembed s = .error (.raise .maxiZero) := by
  rw [cmdHembed, matrixChecks_pass hu, require_stop (not_not.mpr h)]

theorem cmdHextract_bitBounds (h : depth s.cfg .bit < s.a0 + s.a1) : cmdHextract s = .error (.raise .bitBounds) := by
  rw [cmdHextract, matrixChecks_pass hu, need_stop h, Space.boundsDetail]

theorem cmdHextract_pixBounds (hb : s.a0 + s.a1 ≤ depth s.cfg .bit) (h : depth s.cfg .pix < s.a3) :
    cmdHextract s = .error (.raise .pixBounds) := by
  rw [cmdHextract, matrixChecks_pass hu, need_pass hb, need_stop (by rwa [Nat.zero_add]), Space.boundsDetail]

variable (h0 : s.maxi ≠ 0)
include h0

theorem cmdHembed_bitBounds (h : depth s.cfg .bit < s.a0 + s.a1) : cmdHembed s = .error (.raise .bitBounds) := by
  rw [cmdHembed, matrixChecks_pass hu, require_pass h0, need_stop h, Space.boundsDetail]

variable (hb : s.a0 + s.a1 ≤ depth s.cfg .bit)
include hb

theorem cmdHembed_pixBounds (h : depth s.cfg .pix < s.a3) : cmdHembed s = .error (.raise .pixBounds) := by
  rw [cmdHembed, matrixChecks_pass hu, require_pass h0, need_pass hb, need_stop (by rwa [Nat.zero_add]),
    Space.boundsDetail]

variable (hp : s.a3 ≤ depth s.cfg .pix) {B : Nat} (hB : s.BlockCount B)
include hp hB

theorem cmdHembed_hammingCapacity (h : s.a3 < s.a2 + B * s.cols) : cmdHembed s = .error (.raise .hammingCapacity) := by
  rw [cmdHembed, matrixChecks_pass hu, require_pass h0, need_pass hb, need_pass (by rwa [Nat.zero_add]), blocks_eq hB,
    require_stop (Nat.not_le.mpr h)]

/-- The range check reads every block pixel before any is changed (45_syndrome_embed R263). -/
theorem cmdHembed_pixelRange {px : List Word} (hd : s.a2 + B * s.cols ≤ s.a3) (hl : px.length = B * s.cols)
    (hpx : s.pix.Holds s.a2 px) (h : ∃ x ∈ px, s.maxi.toNat < x.toNat) :
    cmdHembed s = .error (.raise .pixelRange) := by
  have hout : ¬px.all (fun x => x.toNat ≤ s.maxi.toNat) = true := by simpa using h
  rw [cmdHembed, matrixChecks_pass hu, require_pass h0, need_pass hb, need_pass (by rwa [Nat.zero_add]), blocks_eq hB,
    require_pass hd, fetchList_ok.mpr ⟨hl, hpx⟩, ok_bind, require_stop hout]

end Errors

/-- Settles O60: the two checks of the matrix are shared, then one lemma for each check. -/
theorem embedChecksRaise : Obligations.EmbedChecksRaise := fun _ =>
  ⟨fun _ hi hv => exec_embed_noMatrix hi hv,
    fun _ hi hv h => exec_embed_codeTooSmall hi hv h,
    fun hu h => exec_raise (i := .hembed) (cmdHembed_maxiZero hu h),
    fun hu h0 h => exec_raise (i := .hembed) (cmdHembed_bitBounds hu h0 h),
    fun hu h => exec_raise (i := .hextract) (cmdHextract_bitBounds hu h),
    fun hu h0 hb h => exec_raise (i := .hembed) (cmdHembed_pixBounds hu h0 hb h),
    fun hu hb h => exec_raise (i := .hextract) (cmdHextract_pixBounds hu hb h),
    fun _ hu h0 hB hb hp h => exec_raise (i := .hembed) (cmdHembed_hammingCapacity hu h0 hb hp hB h),
    fun _ _ hu h0 hB hb hp hd hl hpx h => exec_raise (i := .hembed) (cmdHembed_pixelRange hu h0 hb hp hB hd hl hpx h)⟩

/-! ### The bits of a block -/

/-- The LSBs of a block whose pixels below the dimension have the LSBs `f`, which is 1 at and past it
(45_syndrome_embed R266). -/
theorem blockBits_eq_map {m : Mem Word} {dim o C : Nat} {f : Nat → Bool}
    (hpix : ∀ c, c < C → o + c < dim → ∃ x, m.read (o + c) = some x ∧ lsb x = f c)
    (hfill : ∀ c, c < C → dim ≤ o + c → f c = true) : blockBits m dim o C = .ok ((List.range C).map f) := by
  have hlen : ((List.range C).map f).length = C := by simp
  refine blockBits_ok.mpr ⟨hlen, fun c hc => ?_⟩
  rw [List.getElem_map, List.getElem_range]
  exact ⟨hpix c (hc.trans_eq hlen), hfill c (hc.trans_eq hlen)⟩

theorem syn_map_range_testBit (f : Nat → Bool) (C t : Nat) :
    (syn ((List.range C).map f)).testBit t = gf2Product f C t := by
  rw [syn_testBit, List.length_map, List.length_range]
  exact gf2Product_congr fun c hc => by simp [List.getD_eq_getElem?_getD, hc]

/-! ### Extraction -/

/-- Bit `q` of the extracted bits where the pixels have the LSBs `f`: element `q mod r` of the syndrome of block `q / r`
(45_syndrome_embed R267, R268). -/
def State.syndromeBit (s : State) (f : Nat → Bool) (q : Nat) : Bool :=
  gf2Product (fun c => f (s.blockStart (q / s.rows) + c)) s.cols (q % s.rows)

/-- The pixels of `B` blocks have the LSBs `f`, which is 1 at and past the dimension (45_syndrome_embed R266). -/
def State.BlockLsbs (s : State) (B : Nat) (f : Nat → Bool) : Prop :=
  ∀ k, s.a2 ≤ k → k < s.a2 + B * s.cols →
    (k < s.a3 → ∃ x, s.pix.read k = some x ∧ lsb x = f k) ∧ (s.a3 ≤ k → f k = true)

section Extract

variable {s : State} {B : Nat} {f : Nat → Bool} (hr : 0 < s.rows) (hf : s.BlockLsbs B f)
include hr hf

theorem extractBlock_eq {i : Nat} (hi : i < B) :
    extractBlock s i = .ok ((List.range' (i * s.rows) s.rows).map (s.syndromeBit f)) := by
  have hblock : (i + 1) * s.cols ≤ B * s.cols := Nat.mul_le_mul_right _ hi
  rw [Nat.succ_mul] at hblock
  have hin : ∀ c, c < s.cols → s.a2 ≤ s.blockStart i + c ∧ s.blockStart i + c < s.a2 + B * s.cols := fun c hc => by
    rw [State.blockStart]; omega
  have hread : blockBits s.pix s.a3 (s.blockStart i) s.cols =
      .ok ((List.range s.cols).map fun c => f (s.blockStart i + c)) :=
    blockBits_eq_map (fun c hc => (hf _ (hin c hc).1 (hin c hc).2).1) (fun c hc => (hf _ (hin c hc).1 (hin c hc).2).2)
  rw [extractBlock, hread, ok_bind, pure_eq_ok, unpackBits, List.range'_eq_map_range, List.map_map]
  refine congrArg _ (List.map_congr_left fun t ht => ?_)
  have ht : t < s.rows := List.mem_range.mp ht
  have hdiv : (i * s.rows + t) / s.rows = i := by
    rw [Nat.mul_comm, Nat.mul_add_div hr, Nat.div_eq_of_lt ht, Nat.add_zero]
  have hmod : (i * s.rows + t) % s.rows = t := by rw [Nat.mul_add_mod', Nat.mod_eq_of_lt ht]
  rw [syn_map_range_testBit, Function.comp_apply, State.syndromeBit, hdiv, hmod]

theorem extractBlocks_eq : ∀ {n i : Nat}, i + n ≤ B →
    extractBlocks s i n = .ok ((List.range' (i * s.rows) (n * s.rows)).map (s.syndromeBit f)) := by
  intro n
  induction n with
  | zero => intro i _; rw [Nat.zero_mul]; rfl
  | succ n ih =>
    intro i hi
    have hsplit : List.range' (i * s.rows) ((n + 1) * s.rows) =
        List.range' (i * s.rows) s.rows ++ List.range' ((i + 1) * s.rows) (n * s.rows) := by
      rw [Nat.succ_mul i, List.range'_append_1, Nat.succ_mul, Nat.add_comm]
    simp only [extractBlocks, extractBlock_eq hr hf (show i < B by omega), ih (i := i + 1) (by omega), hsplit,
      List.map_append]

end Extract

/-- HEXTRACT of blocks whose pixels have the LSBs `f` (45_syndrome_embed R268). -/
theorem exec_hextract {s : State} {B : Nat} {f : Nat → Bool} (hu : s.UsefulCode) (hB : s.BlockCount B)
    (hb : s.a0 + s.a1 ≤ depth s.cfg .bit) (hp : s.a3 ≤ depth s.cfg .pix) (hf : s.BlockLsbs B f) :
    exec .hextract s = .next { s with
      bit := s.bit.writeList s.a0 ((List.range s.a1).map (s.syndromeBit f)), res0 := s.arg1 } := by
  have ⟨hv, hrows, _⟩ := hu
  have hP : s.a1 ≤ B * s.rows := hB.1
  have hread : extractBlocks s 0 s.blocks = .ok ((List.range (B * s.rows)).map (s.syndromeBit f)) := by
    rw [blocks_eq hB, extractBlocks_eq (Nat.lt_of_lt_of_le Nat.two_pos hrows) hf (Nat.zero_add B).le, Nat.zero_mul,
      List.range_eq_range']
  have htake : ((List.range (B * s.rows)).map (s.syndromeBit f)).take s.a1 =
      (List.range s.a1).map (s.syndromeBit f) := by
    rw [← List.map_take, List.take_range, Nat.min_eq_left hP]
  exact exec_of_ok (cmdHextract_ok.mpr ⟨hv, not_small_of_usefulCode hu, hb, hp, _, hread, by rw [htake]⟩)

/-- Settles O57: the range written holds the syndrome bits. -/
theorem hextractReadsSyndromes : Obligations.HextractReadsSyndromes := by
  intro s B f hu hB hb hp hpix hfill
  have hlen : ((List.range s.a1).map (s.syndromeBit f)).length = s.a1 := by simp
  refine ⟨_, exec_hextract hu hB hb hp fun k h1 h2 => ⟨hpix k h1 h2, hfill k⟩, fun q hq => ?_,
    Mem.sameOutside_writeList_of_length hlen, rfl⟩
  exact (Mem.read_writeList_at _ _ _ (hq.trans_eq hlen.symm)).trans
    (by rw [List.getElem_map, List.getElem_range]; rfl)

end Sys2Proof.Machine
end

section
/-! PROOFS. HEMBED (45_syndrome_embed R262 to R265): the draws in order, which pixels move, the loop over the blocks,
then what HEMBED completes with and the round trip with HEXTRACT (R269). -/

namespace Sys2Proof.Machine

/-! ### The draws in order -/

/-- A draw neither reads nor writes PIX (42_nudge R182). -/
theorem drawNudge_withPix (s : State) (m : Mem Word) :
    drawNudge { s with pix := m } = ((drawNudge s).1, { (drawNudge s).2 with pix := m }) := by
  cases h : s.cfg.nudgeSrc with
  | draw => rw [drawNudge_draw h, drawNudge_draw (s := { s with pix := m }) h]
  | reference => rw [drawNudge_reference h, drawNudge_reference (s := { s with pix := m }) h]

/-- The word form of the reference generator's next state (43_permutation R191). -/
def refWord (w : Word) : Word := w * 1103515245 + 12345

/-- The next states of the reference generator as integers and as words agree (43_permutation R191). -/
theorem refWord_iterate_toNat (w : Word) (n : Nat) :
    (refWord^[n] w).toNat = (fun st => (st * 1103515245 + 12345) % 2 ^ 32)^[n] w.toNat := by
  have hstep : Function.Semiconj BitVec.toNat refWord fun st => (st * 1103515245 + 12345) % 2 ^ 32 := fun w =>
    (congrArg Prod.snd (refNext_toNat w)).symm
  exact hstep.iterate_right n w

/-- The state with the first `n` nudge draws taken (42_nudge R182; log 5). -/
def State.afterDraws (s : State) (n : Nat) : State :=
  { s with
    nstate := match s.cfg.nudgeSrc with
      | .draw => s.nstate
      | .reference => refWord^[n] s.nstate
    drawCount := match s.cfg.nudgeSrc with
      | .draw => s.drawCount + n
      | .reference => s.drawCount }

/-- The direction bit of nudge draw `n`, counted from 0 (42_nudge R182). -/
def State.nudgeBit (s : State) (n : Nat) : Bool := (drawNudge (s.afterDraws n)).1

section Draws

variable {s : State} (n : Nat)

theorem afterDraws_zero (s : State) : s.afterDraws 0 = s := by
  unfold State.afterDraws; cases h : s.cfg.nudgeSrc <;> rfl

theorem afterDraws_draw (h : s.cfg.nudgeSrc = .draw) : s.afterDraws n = { s with drawCount := s.drawCount + n } := by
  simp only [State.afterDraws, h]

theorem afterDraws_reference (h : s.cfg.nudgeSrc = .reference) :
    s.afterDraws n = { s with nstate := refWord^[n] s.nstate } := by
  simp only [State.afterDraws, h]

theorem nudgeBit_draw (h : s.cfg.nudgeSrc = .draw) : s.nudgeBit n = Config.freeNudge (s.drawCount + n) := by
  rw [State.nudgeBit, drawNudge_draw (s := s.afterDraws n) h, afterDraws_draw n h]

theorem nudgeBit_reference (h : s.cfg.nudgeSrc = .reference) :
    s.nudgeBit n = decide ((refWord^[n + 1] s.nstate).toNat / 65536 % 32768 % 2 = 1) := by
  rw [State.nudgeBit, drawNudge_reference (s := s.afterDraws n) h, afterDraws_reference n h,
    Function.iterate_succ_apply', refWord]

/-- One more draw, whichever pixels have been written (42_nudge R182). -/
theorem drawNudge_afterDraws (s : State) (m : Mem Word) : drawNudge { s.afterDraws n with pix := m } =
    (s.nudgeBit n, { s.afterDraws (n + 1) with pix := m }) := by
  rw [drawNudge_withPix]
  refine Prod.ext rfl ?_
  cases h : s.cfg.nudgeSrc with
  | draw => rw [drawNudge_draw (s := s.afterDraws n) h, afterDraws_draw n h, afterDraws_draw (n + 1) h, Nat.add_assoc]
  | reference =>
    rw [drawNudge_reference (s := s.afterDraws n) h, afterDraws_reference n h, afterDraws_reference (n + 1) h,
      Function.iterate_succ_apply', refWord]

end Draws

/-! ### Which pixels move -/

/-- The LSBs of block `i` of the pixels `px` (45_syndrome_embed R264). -/
def blockLsbs (px : List Word) (C i : Nat) : List Bool := (List.range C).map fun c => lsb (px.getD (i * C + c) 0)

/-- The message of block `i` of the payload `pl`, 1 past its end (45_syndrome_embed R262). -/
def blockMessage (pl : List Bool) (r i : Nat) : List Bool := (List.range r).map fun t => pl.getD (i * r + t) true

/-- What the syndrome of block `i` lacks of its message: 0, or 1 plus the place in the block of the pixel that moves
(45_syndrome_embed R264). -/
def State.blockTarget (s : State) (pl : List Bool) (px : List Word) (i : Nat) : Nat :=
  syn (blockLsbs px s.cols i) ^^^ packBits (blockMessage pl s.rows i)

/-- Pixel `k` of the blocks moves: it is the one its block's target names (45_syndrome_embed R264). -/
abbrev State.Moves (s : State) (pl : List Bool) (px : List Word) (k : Nat) : Prop :=
  s.blockTarget pl px (k / s.cols) = k % s.cols + 1

/-- How many pixels before pixel `k` move, which is how many draws are taken before its own (42_nudge R184). -/
def State.movesBefore (s : State) (pl : List Bool) (px : List Word) (k : Nat) : Nat := Nat.count (s.Moves pl px) k

/-- Pixel `k`, of value `x`, after HEMBED (45_syndrome_embed R264). -/
def State.newPixel (s : State) (pl : List Bool) (px : List Word) (k : Nat) (x : Word) : Word :=
  if s.Moves pl px k then nudgePixel s.maxi x (s.nudgeBit (s.movesBefore pl px k)) else x

/-- The pixels of the blocks after HEMBED (45_syndrome_embed R264). -/
def State.newPixels (s : State) (pl : List Bool) (px : List Word) : List Word := px.mapIdx (s.newPixel pl px)

section Count

variable {p : Nat → Prop} [DecidablePred p] {a C : Nat}

theorem count_add_of_none (h : ∀ c, c < C → ¬p (a + c)) : Nat.count p (a + C) = Nat.count p a := by
  rw [Nat.count_add, Nat.count_of_forall_not h, Nat.add_zero]

/-- Where `j` alone of a range counts, it adds 1, and nothing before it adds any. -/
theorem count_add_of_one {j : Nat} (hj : j < C) (h : ∀ c, c < C → (p (a + c) ↔ c = j)) :
    Nat.count p (a + j) = Nat.count p a ∧ Nat.count p (a + C) = Nat.count p a + 1 := by
  have hbefore : Nat.count p (a + j) = Nat.count p a :=
    count_add_of_none fun c hc hp => hc.ne ((h c (hc.trans hj)).mp hp)
  obtain ⟨d, rfl⟩ := Nat.exists_eq_add_of_lt hj
  have hafter : ∀ c, c < d → ¬p (a + j + 1 + c) := fun c hc hp => by
    have := (h (j + 1 + c) (by omega)).mp (by rwa [← Nat.add_assoc, ← Nat.add_assoc])
    omega
  refine ⟨hbefore, ?_⟩
  calc Nat.count p (a + (j + d + 1)) = Nat.count p (a + j + 1 + d) := by congr 1; omega
    _ = Nat.count p (a + j + 1) := count_add_of_none hafter
    _ = Nat.count p a + 1 := by rw [Nat.count_succ, if_pos ((h j hj).mpr rfl), hbefore]

end Count

section Blocks

variable {s : State} {B i : Nat} {pl : List Bool} {px : List Word}

theorem newPixels_length : (s.newPixels pl px).length = px.length := List.length_mapIdx

theorem newPixels_getElem? {k : Nat} {x : Word} (h : px[k]? = some x) :
    (s.newPixels pl px)[k]? = some (s.newPixel pl px k x) := by
  rw [State.newPixels, List.getElem?_mapIdx, h, Option.map_some]

theorem newPixel_of_not_moves {k : Nat} {x : Word} (h : ¬s.Moves pl px k) : s.newPixel pl px k x = x := if_neg h

theorem newPixels_getElem?_of_not_moves {k : Nat} (h : ¬s.Moves pl px k) : (s.newPixels pl px)[k]? = px[k]? := by
  rw [State.newPixels, List.getElem?_mapIdx]
  cases px[k]? with
  | none => rfl
  | some x => rw [Option.map_some, newPixel_of_not_moves h]

/-- In block `i` the pixel at place `c` moves exactly when the target is `c + 1`. -/
theorem moves_block {c : Nat} (hc : c < s.cols) : s.Moves pl px (i * s.cols + c) ↔ s.blockTarget pl px i = c + 1 := by
  have hdiv : (i * s.cols + c) / s.cols = i := by
    rw [Nat.mul_comm, Nat.mul_add_div (by omega), Nat.div_eq_of_lt hc, Nat.add_zero]
  have hmod : (i * s.cols + c) % s.cols = c := by rw [Nat.mul_add_mod', Nat.mod_eq_of_lt hc]
  rw [State.Moves, hdiv, hmod]

@[simp] theorem blockLsbs_length {C : Nat} : (blockLsbs px C i).length = C := by simp [blockLsbs]

@[simp] theorem blockMessage_length {r : Nat} : (blockMessage pl r i).length = r := by simp [blockMessage]

theorem blockMessage_getElem {r q : Nat} (hq : q < (blockMessage pl r i).length) :
    (blockMessage pl r i)[q] = pl.getD (i * r + q) true := by
  simp only [blockMessage, List.getElem_map, List.getElem_range]

theorem syn_blockLsbs_lt (hc : s.cols = 2 ^ s.rows - 1) : syn (blockLsbs px s.cols i) < 2 ^ s.rows := by
  have hpos := Nat.two_pow_pos s.rows
  exact syn_lt (by rw [blockLsbs_length]; omega)

theorem packBits_blockMessage_lt {r : Nat} : packBits (blockMessage pl r i) < 2 ^ r :=
  (packBits_lt _).trans_eq (congrArg _ blockMessage_length)

/-- Syndrome and message are `r`-bit values, so the target is at most the block's length (45_syndrome_embed R264). -/
theorem blockTarget_le (hc : s.cols = 2 ^ s.rows - 1) : s.blockTarget pl px i ≤ s.cols := by
  have hlt : s.blockTarget pl px i < 2 ^ s.rows := Nat.xor_lt_two_pow (syn_blockLsbs_lt hc) packBits_blockMessage_lt
  omega

/-- A block whose target is 0 has no pixel that moves. -/
theorem movesBefore_succ_of_zero (h : s.blockTarget pl px i = 0) :
    s.movesBefore pl px ((i + 1) * s.cols) = s.movesBefore pl px (i * s.cols) := by
  rw [Nat.succ_mul]
  exact count_add_of_none fun c hc hm => by rw [moves_block hc, h] at hm; omega

/-- A block whose target is `j + 1` has one pixel that moves, at place `j`. -/
theorem movesBefore_succ_of_succ {j : Nat} (hj : j < s.cols) (h : s.blockTarget pl px i = j + 1) :
    s.movesBefore pl px (i * s.cols + j) = s.movesBefore pl px (i * s.cols) ∧
      s.movesBefore pl px ((i + 1) * s.cols) = s.movesBefore pl px (i * s.cols) + 1 := by
  rw [Nat.succ_mul]
  exact count_add_of_one hj fun c hc => by rw [moves_block hc, h]; omega

/-! ### The loop -/

/-- PIX once the blocks before block `i` have been embedded (45_syndrome_embed R263). -/
structure State.PixelsAt (s : State) (pl : List Bool) (px : List Word) (i : Nat) (m : Mem Word) : Prop where
  outside : s.pix.SameOutside m s.a2 px.length
  before : ∀ k x, k < i * s.cols → px[k]? = some x → m.read (s.a2 + k) = some (s.newPixel pl px k x)
  after : ∀ k x, i * s.cols ≤ k → px[k]? = some x → m.read (s.a2 + k) = some x

theorem State.PixelsAt.read_block {m : Mem Word} {c : Nat} {x : Word} (hm : s.PixelsAt pl px i m)
    (hx : px[i * s.cols + c]? = some x) : m.read (s.blockStart i + c) = some x := by
  rw [State.blockStart, Nat.add_assoc]
  exact hm.after _ x (Nat.le_add_right ..) hx

/-- The state once the blocks before block `i` have been embedded, with PIX `m` (45_syndrome_embed R263). -/
def State.atBlock (s : State) (pl : List Bool) (px : List Word) (i : Nat) (m : Mem Word) : State :=
  { s.afterDraws (s.movesBefore pl px (i * s.cols)) with pix := m }

/-- A block whose target is `j + 1`: one draw, and the pixel at place `j` nudged (45_syndrome_embed R264). -/
theorem embedBlock_moves {u : State} {j : Nat} {v m : List Bool} {x : Word} {b : Bool}
    (hv : blockBits s.pix s.a3 (s.blockStart i) s.cols = .ok v) (hm : messageBits s i = .ok m)
    (hT : syn v ^^^ packBits m = j + 1) (hx : s.pix.read (s.blockStart i + j) = some x) (hd : drawNudge s = (b, u)) :
    embedBlock s i = .ok ({ u with pix := s.pix.write (s.blockStart i + j) (nudgePixel s.maxi x b) }, 1) :=
  embedBlock_ok.mpr ⟨v, m, hv, hm, .inr ⟨by omega, rfl, x, by rw [hT]; exact hx, by rw [hT, hd]; rfl⟩⟩

variable (h : s.EmbedOk B pl px)
include h

theorem State.EmbedOk.length_eq : px.length = B * s.cols := by
  obtain ⟨_, _, _, _, _, _, _, _, hlen, _, _⟩ := h
  exact hlen

theorem State.EmbedOk.payload_length : pl.length = s.a1 := by
  obtain ⟨_, _, _, _, _, _, hlen, _⟩ := h
  exact hlen

theorem State.EmbedOk.block_le (hi : i < B) : i * s.cols + s.cols ≤ px.length := by
  have hle : (i + 1) * s.cols ≤ B * s.cols := Nat.mul_le_mul_right _ hi
  rw [Nat.succ_mul] at hle
  exact hle.trans_eq h.length_eq.symm

theorem State.EmbedOk.cols_eq : s.cols = 2 ^ s.rows - 1 := h.1.2.2

/-- The pixel that moves is one of the block's (45_syndrome_embed R264). -/
theorem State.EmbedOk.place_lt {j : Nat} (hT : s.blockTarget pl px i = j + 1) : j < s.cols :=
  hT.symm.trans_le (blockTarget_le h.cols_eq)

/-- A block not embedded yet still has the LSBs it had before HEMBED. -/
theorem blockBits_atBlock {m : Mem Word} (hi : i < B) (hm : s.PixelsAt pl px i m) :
    blockBits m s.a3 (s.blockStart i) s.cols = .ok (blockLsbs px s.cols i) := by
  have hblock := h.block_le hi
  have hdim : s.a2 + px.length ≤ s.a3 := by
    have ⟨_, _, _, _, _, hdim, _⟩ := h
    exact h.length_eq ▸ hdim
  refine blockBits_eq_map (fun c hc _ => ⟨px.getD (i * s.cols + c) 0, ?_, rfl⟩) fun c hc hd => ?_
  · rw [List.getD_eq_getElem _ _ (by omega)]
    exact hm.read_block (List.getElem?_eq_getElem _)
  · rw [State.blockStart] at hd; omega

/-- The message bits read are the payload's (45_syndrome_embed R262). -/
theorem messageBits_eq : messageBits s i = .ok (blockMessage pl s.rows i) := by
  obtain ⟨_, _, _, _, _, _, hlen, hbit, _, _, _⟩ := h
  refine fetchFilled_ok.mpr ⟨blockMessage_length, fun c hc => ?_⟩
  rw [blockMessage_getElem]
  split
  case isTrue hq =>
    have hq : i * s.rows + c < pl.length := hlen ▸ hq
    rw [List.getD_eq_getElem _ _ hq]
    exact fetch_ok.mpr (hbit _ hq)
  case isFalse hq => rw [List.getD_eq_default _ _ (hlen ▸ Nat.not_lt.mp hq)]

/-- One block more: PIX where the block's pixels alone have changed, to their new values. -/
theorem pixelsAt_succ {m m' : Mem Word} (hi : i < B) (hm : s.PixelsAt pl px i m)
    (hblock : ∀ c x, c < s.cols → px[i * s.cols + c]? = some x →
      m'.read (s.blockStart i + c) = some (s.newPixel pl px (i * s.cols + c) x))
    (hout : m.SameOutside m' (s.blockStart i) s.cols) : s.PixelsAt pl px (i + 1) m' := by
  have hle := h.block_le hi
  simp only [State.blockStart] at hblock hout
  refine ⟨fun b hb => ?_, fun k x hk hx => ?_, fun k x hk hx => ?_⟩
  · rw [hout b (by omega), hm.outside b hb]
  · rw [Nat.succ_mul] at hk
    by_cases hki : k < i * s.cols
    · rw [hout _ (by omega), hm.before k x hki hx]
    · obtain ⟨c, rfl⟩ := Nat.exists_eq_add_of_le (Nat.not_lt.mp hki)
      rw [← Nat.add_assoc]
      exact hblock c x (by omega) hx
  · rw [Nat.succ_mul] at hk
    rw [hout _ (by omega), hm.after k x (by omega) hx]

/-- A block whose target is 0 is left as it was. -/
theorem pixelsAt_succ_of_zero {m : Mem Word} (hi : i < B) (hm : s.PixelsAt pl px i m)
    (hT : s.blockTarget pl px i = 0) : s.PixelsAt pl px (i + 1) m :=
  pixelsAt_succ h hi hm (fun c x hc hx => by
    rw [newPixel_of_not_moves (by rw [moves_block hc, hT]; omega), hm.read_block hx]) (fun _ _ => rfl)

/-- A block whose target is `j + 1` has its pixel at place `j` written. -/
theorem pixelsAt_succ_of_succ {m : Mem Word} {j : Nat} {x : Word} (hi : i < B) (hm : s.PixelsAt pl px i m)
    (hT : s.blockTarget pl px i = j + 1) (hx : px[i * s.cols + j]? = some x) :
    s.PixelsAt pl px (i + 1) (m.write (s.blockStart i + j) (s.newPixel pl px (i * s.cols + j) x)) := by
  have hj := h.place_lt hT
  refine pixelsAt_succ h hi hm (fun c y hc hy => ?_) (fun b hb => Mem.read_write_ne _ _ (by omega))
  by_cases hcj : c = j
  · subst hcj
    obtain rfl : x = y := Option.some.inj (hx.symm.trans hy)
    exact Mem.read_write_self ..
  · rw [Mem.read_write_ne _ _ (by omega), newPixel_of_not_moves (by rw [moves_block hc, hT]; omega), hm.read_block hy]

/-- One turn of the loop (45_syndrome_embed R264). -/
theorem embedBlock_atBlock {m : Mem Word} (hi : i < B) (hm : s.PixelsAt pl px i m) :
    ∃ m' c, embedBlock (s.atBlock pl px i m) i = .ok (s.atBlock pl px (i + 1) m', c) ∧
      s.PixelsAt pl px (i + 1) m' ∧
      s.movesBefore pl px ((i + 1) * s.cols) = s.movesBefore pl px (i * s.cols) + c := by
  have hv := blockBits_atBlock h hi hm
  have hmsg := messageBits_eq (i := i) h
  cases hT : s.blockTarget pl px i with
  | zero =>
    have hcount := movesBefore_succ_of_zero hT
    refine ⟨m, 0, ?_, pixelsAt_succ_of_zero h hi hm hT, hcount⟩
    rw [State.atBlock, State.atBlock, hcount]
    exact embedBlock_ok.mpr ⟨_, _, hv, hmsg, .inl ⟨hT, rfl, rfl⟩⟩
  | succ j =>
    have hj := h.place_lt hT
    have hle := h.block_le hi
    obtain ⟨hdraw, hcount⟩ := movesBefore_succ_of_succ hj hT
    obtain ⟨x, hx⟩ : ∃ x, px[i * s.cols + j]? = some x := ⟨_, List.getElem?_eq_getElem (by omega)⟩
    have hown : s.newPixel pl px (i * s.cols + j) x =
        nudgePixel s.maxi x (s.nudgeBit (s.movesBefore pl px (i * s.cols))) := by
      rw [State.newPixel, if_pos ((moves_block hj).mpr hT), hdraw]
    refine ⟨_, 1, ?_, pixelsAt_succ_of_succ h hi hm hT hx, hcount⟩
    rw [hown, State.atBlock, State.atBlock, hcount]
    exact (embedBlock_moves (s := s.atBlock pl px i m) hv hmsg hT (hm.read_block hx) (drawNudge_afterDraws ..) :)

/-- The loop (45_syndrome_embed R263). -/
theorem embedBlocks_atBlock : ∀ {n i : Nat} {m : Mem Word}, i + n = B → s.PixelsAt pl px i m →
    ∃ m' c, embedBlocks i n (s.atBlock pl px i m) = .ok (s.atBlock pl px B m', c) ∧ s.PixelsAt pl px B m' ∧
      s.movesBefore pl px (B * s.cols) = s.movesBefore pl px (i * s.cols) + c := by
  intro n
  induction n with
  | zero =>
    rintro i m rfl hm
    exact ⟨m, 0, rfl, hm, rfl⟩
  | succ n ih =>
    intro i m hi hm
    obtain ⟨m1, c1, h1, hm1, hc1⟩ := embedBlock_atBlock h (i := i) (by omega) hm
    obtain ⟨m2, c2, h2, hm2, hc2⟩ := ih (i := i + 1) (by omega) hm1
    exact ⟨m2, c1 + c2, embedBlocks_succ_ok.mpr ⟨_, c1, c2, h1, h2, rfl⟩, hm2, by rw [hc2, hc1, Nat.add_assoc]⟩

/-! ### Completion -/

/-- HEMBED where its checks pass: one draw for each pixel that moves, and their number in both result registers
(45_syndrome_embed R263). -/
theorem exec_hembed : ∃ m, s.PixelsAt pl px B m ∧
    exec .hembed s = .next { s.afterDraws (s.movesBefore pl px px.length) with
      pix := m
      res0 := result (s.movesBefore pl px px.length)
      modcnt := result (s.movesBefore pl px px.length) } := by
  have ⟨hu, h0, hB, hb, hp, hd, _, _, _, hpx, hle⟩ := h
  have hlen := h.length_eq
  have hstart : s.PixelsAt pl px 0 s.pix := ⟨fun _ _ => rfl, fun k x hk => by omega, fun k x _ hx => by
    obtain ⟨hk, rfl⟩ := List.getElem?_eq_some_iff.mp hx
    exact hpx k hk⟩
  have hzero : s.movesBefore pl px (0 * s.cols) = 0 := by rw [Nat.zero_mul]; exact Nat.count_zero _
  have hs : s.atBlock pl px 0 s.pix = s := by rw [State.atBlock, hzero, afterDraws_zero]
  obtain ⟨m, c, hloop, hm, hc⟩ := embedBlocks_atBlock h (Nat.zero_add B) hstart
  rw [hzero, Nat.zero_add] at hc
  rw [hs, ← blocks_eq hB] at hloop
  refine ⟨m, hm, exec_of_ok (cmdHembed_ok.mpr ⟨hu.1, not_small_of_usefulCode hu, h0, hb, hp, ?_, px, ⟨?_, hpx⟩, hle,
    _, hloop, ?_⟩)⟩
  · rw [blocks_eq hB]; exact hd
  · rw [blocks_eq hB]; exact hlen
  · rw [blocks_eq hB, State.atBlock, hlen, hc]

theorem State.EmbedOk.le_maxi {k : Nat} {x : Word} (hx : px[k]? = some x) : x.toNat ≤ s.maxi.toNat := by
  obtain ⟨_, _, _, _, _, _, _, _, _, _, hle⟩ := h
  exact hle x (List.mem_of_getElem? hx)

/-- A pixel that moves gets the other LSB, so its value changes (42_nudge R181). -/
theorem newPixel_lsb {k : Nat} {x : Word} (hx : px[k]? = some x) :
    lsb (s.newPixel pl px k x) = if s.Moves pl px k then !lsb x else lsb x := by
  rw [State.newPixel]
  split
  · have hnot : ∀ a b : Bool, a.toNat = 1 - b.toNat → a = !b := by decide
    exact hnot _ _ (nudgePixel_lsb (s.nudgeBit (s.movesBefore pl px k)) h.2.1 (h.le_maxi hx))
  · rfl

/-- The pixels whose values change are those that move. -/
theorem newPixel_ne_iff {k : Nat} {x : Word} (hx : px[k]? = some x) : s.newPixel pl px k x ≠ x ↔ s.Moves pl px k := by
  constructor
  · exact not_imp_comm.mp newPixel_of_not_moves
  · intro hm he
    have hflip := newPixel_lsb h hx
    rw [he, if_pos hm] at hflip
    exact Bool.not_ne_self _ hflip.symm

/-- Counted over the changed pixels of the list, the pixels that move are those counted by HEMBED. -/
theorem movesBefore_eq_changed {k : Nat} (hk : k ≤ px.length) :
    s.movesBefore pl px k = ((List.range k).filter fun j => (s.newPixels pl px)[j]? ≠ px[j]?).length := by
  rw [State.movesBefore, Nat.count, List.countP_eq_length_filter]
  refine congrArg _ (List.filter_congr fun j hj => decide_eq_decide.mpr ?_)
  obtain ⟨x, hx⟩ : ∃ x, px[j]? = some x := ⟨_, List.getElem?_eq_getElem ((List.mem_range.mp hj).trans_le hk)⟩
  rw [newPixels_getElem? hx, hx, Ne, Option.some_inj]
  exact (newPixel_ne_iff h hx).symm

theorem holds_newPixels {m : Mem Word} (hm : s.PixelsAt pl px B m) : m.Holds s.a2 (s.newPixels pl px) := by
  intro k hk
  rw [newPixels_length] at hk
  have hx : px[k]? = some px[k] := List.getElem?_eq_getElem hk
  rw [hm.before k px[k] (hk.trans_eq h.length_eq) hx, ← newPixels_getElem? hx, List.getElem?_eq_getElem]

end Blocks

/-- Settles O55: the pixels that move are the changed ones, and each takes the draw that the ones before it leave. -/
theorem hembedCompletes : Obligations.HembedCompletes := by
  intro s B pl px h
  obtain ⟨m, hm, hexec⟩ := exec_hembed h
  refine ⟨_, s.newPixels pl px, s.movesBefore pl px px.length, hexec, newPixels_length, holds_newPixels h hm,
    hm.outside, movesBefore_eq_changed h le_rfl, fun k x y hx hy hne => ?_, fun hsrc => ?_, fun hsrc => ?_⟩
  · have hk : k ≤ px.length := (List.getElem?_eq_some_iff.mp hx).1.le
    obtain rfl : s.newPixel pl px k x = y := Option.some.inj ((newPixels_getElem? hx).symm.trans hy)
    have hmove := (newPixel_ne_iff h hx).mp hne
    simp only [← movesBefore_eq_changed h hk, State.newPixel, if_pos hmove]
    have hval := nudgePixel_toNat (s.nudgeBit (s.movesBefore pl px k)) h.2.1 (h.le_maxi hx)
    refine ⟨fun hsrc => ?_, fun hsrc => ?_⟩
    · rw [hval, nudgeBit_draw _ hsrc]
    · rw [hval, nudgeBit_reference _ hsrc, refWord_iterate_toNat]
  · rw [afterDraws_draw _ hsrc]; rfl
  · have hst : refWord^[s.movesBefore pl px px.length] s.nstate = BitVec.ofNat 32
        ((fun st => (st * 1103515245 + 12345) % 2 ^ 32)^[s.movesBefore pl px px.length] s.nstate.toNat) := by
      rw [← refWord_iterate_toNat, BitVec.ofNat_toNat, BitVec.setWidth_eq]
    rw [afterDraws_reference _ hsrc, hst]; rfl

/-! ### The blocks after HEMBED -/

section After

variable {s : State} {B i : Nat} {pl : List Bool} {px : List Word}

/-- A block encodes its message element by element exactly when its packed syndrome is the packed message
(45_syndrome_embed R262, R265). -/
theorem encodes_iff {l : List Word} (hc : s.cols = 2 ^ s.rows - 1) (hl : pl.length = s.a1) :
    (∀ r, r < s.rows → gf2Product (fun c => (l.getD (i * s.cols + c) 0).getLsbD 0) s.cols r =
      if i * s.rows + r < s.a1 then pl.getD (i * s.rows + r) false else true) ↔
      syn (blockLsbs l s.cols i) = packBits (blockMessage pl s.rows i) := by
  have hsyn : ∀ r, (syn (blockLsbs l s.cols i)).testBit r =
      gf2Product (fun c => (l.getD (i * s.cols + c) 0).getLsbD 0) s.cols r := syn_map_range_testBit _ _
  have hmsg : ∀ r, r < s.rows → (packBits (blockMessage pl s.rows i)).testBit r =
      if i * s.rows + r < s.a1 then pl.getD (i * s.rows + r) false else true := fun r hr => by
    rw [packBits_testBit, List.getD_eq_getElem _ _ (hr.trans_eq blockMessage_length.symm), blockMessage_getElem, ← hl]
    split
    case isTrue hq => rw [List.getD_eq_getElem _ _ hq, List.getD_eq_getElem _ _ hq]
    case isFalse hq => rw [List.getD_eq_default _ _ (Nat.not_lt.mp hq)]
  constructor
  · intro h
    refine Nat.eq_of_testBit_eq fun r => ?_
    by_cases hr : r < s.rows
    · rw [hsyn, hmsg r hr, h r hr]
    · have hpow := Nat.pow_le_pow_right Nat.two_pos (Nat.not_lt.mp hr)
      rw [Nat.testBit_lt_two_pow ((syn_blockLsbs_lt hc).trans_le hpow),
        Nat.testBit_lt_two_pow (packBits_blockMessage_lt.trans_le hpow)]
  · intro h r hr
    rw [← hsyn, h, hmsg r hr]

variable (h : s.EmbedOk B pl px) (hi : i < B)
include h hi

/-- The block's LSBs after HEMBED differ from those before it exactly where a pixel moves. -/
theorem blockLsbs_newPixels : blockLsbs (s.newPixels pl px) s.cols i = (List.range s.cols).map fun c =>
    if s.blockTarget pl px i = c + 1 then !lsb (px.getD (i * s.cols + c) 0) else lsb (px.getD (i * s.cols + c) 0) := by
  refine List.map_congr_left fun c hc => ?_
  have hc := List.mem_range.mp hc
  have hle := h.block_le hi
  obtain ⟨x, hx⟩ : ∃ x, px[i * s.cols + c]? = some x := ⟨_, List.getElem?_eq_getElem (by omega)⟩
  simp only [List.getD_eq_getElem?_getD, newPixels_getElem? hx, hx, Option.getD_some, newPixel_lsb h hx, moves_block hc]

/-- After HEMBED each block's syndrome is its message: the pixel that moved changed the syndrome by the target
(44_hamming_matrix R235; 45_syndrome_embed R265). -/
theorem syn_blockLsbs_newPixels :
    syn (blockLsbs (s.newPixels pl px) s.cols i) = packBits (blockMessage pl s.rows i) := by
  have hcancel : syn (blockLsbs px s.cols i) ^^^ s.blockTarget pl px i = packBits (blockMessage pl s.rows i) :=
    Nat.xor_xor_cancel_left ..
  rw [blockLsbs_newPixels h hi, ← hcancel]
  cases hT : s.blockTarget pl px i with
  | zero => simp [blockLsbs]
  | succ j =>
    have hj : j < (blockLsbs px s.cols i).length := (h.place_lt hT).trans_eq blockLsbs_length.symm
    rw [← syndromeIsLinear.2 _ j hj]
    refine congrArg syn (List.ext_getElem (by simp [blockLsbs]) fun c hc _ => ?_)
    simp only [blockLsbs, List.getElem_set, List.getElem_map, List.getElem_range, Nat.succ_inj]
    split
    case isTrue hjc => rw [hjc]
    case isFalse => rfl

/-- The pixel that moves does so by 1, within `[0, MAXI]` (42_nudge R181; 45_syndrome_embed R265). -/
theorem newPixel_of_moves {c : Nat} (hc : c < s.cols) (hT : s.blockTarget pl px i = c + 1) :
    ∃ x y, px[i * s.cols + c]? = some x ∧ (s.newPixels pl px)[i * s.cols + c]? = some y ∧
      (y.toNat = x.toNat + 1 ∨ x.toNat = y.toNat + 1) ∧ y.toNat ≤ s.maxi.toNat := by
  have hle := h.block_le hi
  obtain ⟨x, hx⟩ : ∃ x, px[i * s.cols + c]? = some x := ⟨_, List.getElem?_eq_getElem (by omega)⟩
  refine ⟨x, _, hx, newPixels_getElem? hx, ?_⟩
  rw [State.newPixel, if_pos ((moves_block hc).mpr hT)]
  generalize s.nudgeBit _ = b
  have hcast := nudgePixel_toNat_cast b h.2.1 (h.le_maxi hx)
  have hone := nudge_moves_by_one s.maxi.toNat x.toNat b
  exact ⟨by omega, nudgePixel_le b h.2.1 (h.le_maxi hx)⟩

end After

/-- Settles O56: the target of a block says whether it encodes its message already, and otherwise which pixel moves. -/
theorem hembedBlockProperties : Obligations.HembedBlockProperties := by
  intro s t B pl px px' h ht hlen hpx i hi C lsbOf message encodes
  obtain ⟨m, hm, hexec⟩ := exec_hembed h
  obtain rfl := Host.Outcome.next.inj (hexec.symm.trans ht)
  obtain rfl : s.newPixels pl px = px' :=
    Mem.holds_unique (holds_newPixels h hm) hpx (newPixels_length.trans hlen.symm)
  have henc : ∀ l, encodes l ↔ syn (blockLsbs l s.cols i) = packBits (blockMessage pl s.rows i) := fun _ =>
    encodes_iff h.cols_eq h.payload_length
  have hzero : encodes px ↔ s.blockTarget pl px i = 0 := (henc px).trans Nat.xor_eq_zero_iff.symm
  refine ⟨(henc _).mpr (syn_blockLsbs_newPixels h hi), fun he c hc => ?_, fun he => ?_⟩
  · refine newPixels_getElem?_of_not_moves fun hmv => ?_
    exact Nat.succ_ne_zero c (((moves_block hc).mp hmv).symm.trans (hzero.mp he))
  · obtain ⟨j, hT⟩ := Nat.exists_eq_succ_of_ne_zero (hzero.not.mp he)
    have hj : j < s.cols := h.place_lt hT
    obtain ⟨x, y, hx, hy, hone, hmax⟩ := newPixel_of_moves h hi hj hT
    refine ⟨j, x, y, hj, hx, hy, hone, hmax, fun c hc hne => newPixels_getElem?_of_not_moves fun hmv => hne ?_⟩
    exact Nat.succ_inj.mp (((moves_block hc).mp hmv).symm.trans hT)

/-! ### Round trip -/

/-- The syndrome bits of the blocks after HEMBED are the payload (45_syndrome_embed R269). -/
theorem map_syndromeBit_newPixels {s : State} {B : Nat} {pl : List Bool} {px : List Word} (h : s.EmbedOk B pl px) :
    (List.range s.a1).map (s.syndromeBit fun k => lsb ((s.newPixels pl px).getD (k - s.a2) 0)) = pl := by
  have hl := h.payload_length
  refine List.ext_getElem (by rw [List.length_map, List.length_range, hl]) fun q hq hq' => ?_
  have hq1 : q < s.a1 := hl ▸ hq'
  have ⟨⟨_, hrows, _⟩, _, ⟨hP, _⟩, _⟩ := h
  have hrows : 0 < s.rows := Nat.lt_of_lt_of_le Nat.two_pos hrows
  have hi : q / s.rows < B := (Nat.div_lt_iff_lt_mul hrows).mpr (hq1.trans_le hP)
  have hbit := (encodes_iff h.cols_eq hl).mpr (syn_blockLsbs_newPixels h hi) (q % s.rows) (Nat.mod_lt _ hrows)
  rw [Nat.div_add_mod', if_pos hq1, List.getD_eq_getElem _ _ hq'] at hbit
  rw [List.getElem_map, List.getElem_range, ← hbit]
  refine gf2Product_congr fun c _ => ?_
  simp only [State.blockStart, Nat.add_assoc, Nat.add_sub_cancel_left, lsb]

/-- Settles O58: HEXTRACT reads the pixels that HEMBED left, and their syndrome bits are the payload. -/
theorem embedExtractRoundTrip : Obligations.EmbedExtractRoundTrip := by
  intro s B pl px h
  obtain ⟨m, hm, hexec⟩ := exec_hembed h
  refine ⟨_, hexec, fun u hv hr hc h1 h2 h3 hp hb hsame => ?_⟩
  have ⟨⟨_, hrows, hcols⟩, _, hB, _, _, hdim, _⟩ := h
  have hhold := holds_newPixels h hm
  have hlsb : u.BlockLsbs B fun k => lsb ((s.newPixels pl px).getD (k - s.a2) 0) := by
    intro k hk1 hk2
    simp only [State.a2, State.a3, State.cols, h2, h3, hc] at hk1 hk2 ⊢
    obtain ⟨j, rfl⟩ := Nat.exists_eq_add_of_le hk1
    have hj : j < (s.newPixels pl px).length := by
      have := h.length_eq
      rw [newPixels_length, this, State.cols]; omega
    refine ⟨fun _ => ⟨_, (hsame _ hk1 hk2).trans (hhold j hj), ?_⟩, fun hd => by omega⟩
    rw [Nat.add_sub_cancel_left, List.getD_eq_getElem _ _ hj]
  have hbit : u.syndromeBit = s.syndromeBit := by
    funext f q
    simp only [State.syndromeBit, State.blockStart, State.rows, State.cols, State.a2, hr, hc, h2]
  have ha1 : u.a1 = s.a1 := congrArg BitVec.toNat h1
  have hex := exec_hextract ⟨hv, by rwa [hr], by rwa [hc, hr]⟩ (by rwa [State.BlockCount, h1, hr]) hb hp hlsb
  rw [ha1, hbit, map_syndromeBit_newPixels h] at hex
  exact ⟨_, hex, Mem.holds_writeList _ _ _, h1⟩

end Sys2Proof.Machine
end

section
/-! PROOFS. Which command can fail with KIND InternalInvariantViolation, and on which targets (60_exceptions R303,
R306). -/

namespace Sys2Proof.Machine

/-- NO_COLUMN is the one detail code of its kind (60_exceptions R303). -/
theorem Detail.eq_noColumn_of_kind {d : Detail} (h : d.kind = .internalInvariantViolation) : d = .noColumn := by
  cases d
  case noColumn => rfl
  all_goals cases h

/-- HFIND is the one command whose rule raises NO_COLUMN (44_hamming_matrix R233). -/
theorem eq_hfind_of_noColumn_mem_raises {i : Instr} (h : Detail.noColumn ∈ raises i) : i = .hfind := by
  cases i
  case hfind => rfl
  all_goals simp [raises] at h

/-- The scan of HFIND fails only for a target that is 0 or past the last column: the converse of `cmdHfind_noColumn`. -/
theorem target_of_cmdHfind_noColumn {s : State} (h : cmdHfind s = .error (.raise .noColumn)) :
    s.a0 = 0 ∨ s.cols < s.a0 := by
  obtain hm | ⟨_, _, hc⟩ := bind_error.mp h
  · obtain ⟨_, hd⟩ := require_error.mp hm
    cases hd
  · simp only [bind_error, findColumn_error, findFrom_eq, pure_ne_error, and_false, exists_false, or_false] at hc
    obtain ⟨hnone, _⟩ := hc
    by_contra hin
    rw [if_pos (by omega)] at hnone
    cases hnone

/-- Settles O13: a command that succeeds leaves KIND as it was, so one that ends with this kind has raised NO_COLUMN,
which only HFIND does; its scan covers the targets from 1 to HCOLS. -/
theorem internalViolationOnlyFromHfind : Obligations.InternalViolationOnlyFromHfind := by
  intro i s t h _ hcols hkind hnone
  obtain hc | ⟨d, hd, rfl⟩ := exec_next.mp h
  · obtain ⟨⟨_, _, _, hst, _⟩, _⟩ := cmdOf_frame hc
    rw [hst, hnone] at hkind
    cases hkind
  · obtain rfl := Detail.eq_noColumn_of_kind hkind
    obtain rfl := eq_hfind_of_noColumn_mem_raises (cmdOf_error hd)
    refine ⟨rfl, (target_of_cmdHfind_noColumn hd).imp BitVec.eq_of_toNat_eq fun hlt => ?_⟩
    rw [State.cols, hcols] at hlt
    exact Nat.le_of_pred_lt hlt

end Sys2Proof.Machine
end

section
/-! PROOFS. The hazard window of the host port (70_reset R345; 60_exceptions R309; log 7): a hazard records HAZ alone,
and the port never looks at `awaitPoll`. -/

namespace Sys2Proof.Machine

/-- A hazard is the whole step: HAZ and nothing else (70_reset R345). -/
theorem step_hazard {s : State} {tr : Transaction} {rest : List Event} (hi : s.inbox = .transact tr :: rest)
    (hb : s.status.busy = true) (hh : tr.harmless = false) : step s = .next { s with inbox := rest, haz := true } := by
  rw [step_transact hi, hostStep, if_pos (by simp [State.hazardous, hb, hh])]
  rfl

/-- A transaction that is never a hazard has its effect at the port in every state (70_reset R342, R345). -/
theorem step_harmless {s : State} {tr : Transaction} {rest : List Event} (hi : s.inbox = .transact tr :: rest)
    (hh : tr.harmless = true) : step s = .next (portStep tr { s with inbox := rest }) := by
  rw [step_transact hi, hostStep_harmless hh]

/-- The state with another value of `awaitPoll`. -/
def State.withAwaitPoll (s : State) (b : Bool) : State := { s with awaitPoll := b }

section AwaitPoll

variable (s : State) (b : Bool)

/-- The window reads without looking at `awaitPoll` (20_memory R75 to R78). -/
theorem readMdata_withAwaitPoll :
    readMdata (s.withAwaitPoll b) = ((readMdata s).1, (readMdata s).2.withAwaitPoll b) := by
  obtain ha | ha := Nat.lt_or_ge s.maddr.toNat (depth s.cfg s.mspace)
  · cases hx : readCell s s.mspace s.maddr.toNat with
    | some x => rw [readMdata_written ha hx, readMdata_written (s := s.withAwaitPoll b) ha hx]; rfl
    | none => rw [readMdata_unwritten ha hx, readMdata_unwritten (s := s.withAwaitPoll b) ha hx]; rfl
  · rw [readMdata_outOfRange ha, readMdata_outOfRange (s := s.withAwaitPoll b) ha]
    rfl

theorem writeCell_withAwaitPoll (sp : Space) (a : Nat) (w : Word) :
    writeCell (s.withAwaitPoll b) sp a w = (writeCell s sp a w).withAwaitPoll b := by
  cases sp <;> rfl

/-- The window writes without looking at `awaitPoll` (20_memory R76 to R78). -/
theorem writeMdata_withAwaitPoll (w : Word) : writeMdata (s.withAwaitPoll b) w = (writeMdata s w).withAwaitPoll b := by
  obtain ha | ha := Nat.lt_or_ge s.maddr.toNat (depth s.cfg s.mspace)
  · rw [writeMdata_inRange ha, writeMdata_inRange (s := s.withAwaitPoll b) ha, writeCell_withAwaitPoll]
    rfl
  · rw [writeMdata_outOfRange ha, writeMdata_outOfRange (s := s.withAwaitPoll b) ha]
    rfl

theorem regValue_withAwaitPoll (r : Reg) : regValue (s.withAwaitPoll b) r = regValue s r := by
  cases r
  case mdata => rw [regValue, regValue, readMdata_withAwaitPoll]
  all_goals rfl

/-- A register's read changes nothing with `awaitPoll` but that bit (log 7). -/
theorem afterRead_withAwaitPoll (r : Reg) :
    ∃ b', afterRead (s.withAwaitPoll b) r = (afterRead s r).withAwaitPoll b' := by
  cases r
  case mdata => exact ⟨b, congrArg Prod.snd (readMdata_withAwaitPoll s b)⟩
  case status => exact ⟨b && s.status.busy, rfl⟩
  all_goals exact ⟨b, rfl⟩

/-- A register's write changes nothing with `awaitPoll` but that bit (log 7). -/
theorem writeReg_withAwaitPoll (w : Word) (r : Reg) :
    ∃ b', writeReg (s.withAwaitPoll b) w r = (writeReg s w r).withAwaitPoll b' := by
  cases r
  case mdata => exact ⟨b, writeMdata_withAwaitPoll s b w⟩
  case cmd => exact ⟨true, rfl⟩
  all_goals exact ⟨b, rfl⟩

/-- No transaction's effect depends on `awaitPoll`, but for that bit itself (log 7). -/
theorem portStep_withAwaitPoll (tr : Transaction) :
    ∃ b', portStep tr (s.withAwaitPoll b) = (portStep tr s).withAwaitPoll b' := by
  cases tr with
  | read off =>
    simp only [portStep]
    cases regAt off with
    | none => exact ⟨b, rfl⟩
    | some r =>
      obtain ⟨b', hr⟩ := afterRead_withAwaitPoll s b r
      exact ⟨b', by simp only [hr, regValue_withAwaitPoll]; rfl⟩
  | write off w =>
    simp only [portStep]
    cases regAt off with
    | none => exact ⟨b, rfl⟩
    | some r => exact writeReg_withAwaitPoll s b w r
  | reset => exact ⟨false, rfl⟩

end AwaitPoll

/-- Settles O19: while BUSY = 1 everything but the two harmless reads and reset is a hazard; while BUSY = 0 the step is
the port's effect, which keeps HAZ and does not depend on `awaitPoll`. -/
theorem hazardWindow : Obligations.HazardWindow := by
  intro s rest
  refine ⟨fun hb => ⟨fun off h8 h0 hi => step_hazard hi hb ?_, fun off w hi => step_hazard hi hb rfl⟩,
    fun hb tr hi => ⟨_, step_idle hi hb, (portStep_keeps_faultBits tr _).1, fun b => ?_⟩, fun hi => ?_, fun hi => ?_⟩
  · rw [Bool.eq_false_iff, ne_eq, harmless_read]
    exact not_or.mpr ⟨h8, h0⟩
  · obtain ⟨b', hp⟩ := portStep_withAwaitPoll { s with inbox := rest } b tr
    exact ⟨b', (step_idle (s := s.withAwaitPoll b) hi hb).trans (congrArg _ hp)⟩
  · rw [step_harmless hi ((harmless_read _).mpr (.inl rfl))]
    rfl
  · rw [step_harmless hi ((harmless_read _).mpr (.inr rfl))]
    rfl

end Sys2Proof.Machine
end

section
/-! PROOFS. Two HEMBEDs that differ in their nudge draws only go through the same blocks in step: their pixels have the
same LSBs throughout (70_reset R350; 42_nudge R181; 45_syndrome_embed R263). -/

namespace Sys2Proof.Machine

/-! ### Memories with the same LSBs -/

/-- The same cells are written, with the same LSBs. -/
def SameLsbs (m m' : Mem Word) : Prop := ∀ a, (m'.read a).map lsb = (m.read a).map lsb

section Lsbs

variable {m m' : Mem Word}

theorem SameLsbs.refl (m : Mem Word) : SameLsbs m m := fun _ => rfl

theorem SameLsbs.write (h : SameLsbs m m') {x x' : Word} (hx : lsb x' = lsb x) (a : Nat) :
    SameLsbs (m.write a x) (m'.write a x') := by
  intro b
  rw [Mem.read_write, Mem.read_write]
  split
  · exact congrArg some hx
  · exact h b

/-- Reads of a cell end alike, with values that have the same LSB. -/
theorem SameLsbs.fetch_alike (h : SameLsbs m m') (k : Nat) :
    EndAlike (fun x x' => lsb x' = lsb x) (fetch .pix m k) (fetch .pix m' k) := by
  have hk := h k
  unfold fetch
  cases hm : m.read k <;> cases hm' : m'.read k <;> rw [hm, hm'] at hk
  case none.none => rfl
  case some.some => exact Option.some_inj.mp hk
  all_goals cases hk

theorem SameLsbs.fetchLsb_eq (h : SameLsbs m m') : fetchLsb m' = fetchLsb m := by
  funext k
  have hk := h.fetch_alike k
  unfold fetchLsb
  cases hm : fetch .pix m k <;> cases hm' : fetch .pix m' k <;> rw [hm, hm'] at hk
  case error.error => exact congrArg _ (Eq.symm hk)
  case ok.ok => exact congrArg _ hk
  all_goals exact hk.elim

theorem SameLsbs.blockBits_eq (h : SameLsbs m m') (dim o C : Nat) : blockBits m' dim o C = blockBits m dim o C := by
  rw [blockBits, blockBits, h.fetchLsb_eq]

end Lsbs

/-! ### Nudges of any pixel -/

/-- Whatever the direction, and for a pixel above MAXI too, the nudge turns the LSB: its result is not negative, so that
the cell keeps its parity (42_nudge R181, R184). -/
theorem lsb_nudgePixel {maxi : Word} (h0 : maxi ≠ 0) (x : Word) (b : Bool) : lsb (nudgePixel maxi x b) = !lsb x := by
  have hM : maxi.toNat ≠ 0 := fun h => h0 (BitVec.eq_of_toNat_eq h)
  have hp := nudge_parity maxi.toNat x.toNat b
  have hnn : 0 ≤ nudge maxi.toNat x.toNat b := by
    unfold nudge
    split_ifs <;> omega
  rw [lsb, nudgePixel, result_getLsbD (by decide), lsb, BitVec.getLsbD, Nat.testBit_zero, Nat.testBit_zero,
    ← decide_not, decide_eq_decide]
  omega

/-! ### HEMBED's loop on two states -/

/-- Related states, and the same count of changed pixels. -/
def WithSameCount (R : State → State → Prop) (r r' : State × Nat) : Prop := R r.1 r'.1 ∧ r'.2 = r.2

/-- A relation that every block keeps is kept by the loop (45_syndrome_embed R263). -/
theorem embedBlocks_endAlike {R : State → State → Prop}
    (hR : ∀ {s t : State} (i : Nat), R s t → EndAlike (WithSameCount R) (embedBlock s i) (embedBlock t i)) :
    ∀ {n i : Nat} {s t : State}, R s t → EndAlike (WithSameCount R) (embedBlocks i n s) (embedBlocks i n t) := by
  intro n
  induction n with
  | zero => intro i s t h; exact ⟨h, rfl⟩
  | succ n ih =>
    intro i s t h
    rw [embedBlocks_succ, embedBlocks_succ]
    refine .bind (hR i h) fun r r' hr => ?_
    obtain ⟨hst, hc⟩ := hr
    refine .bind (ih hst) fun u u' hu => ?_
    obtain ⟨huv, hc'⟩ := hu
    exact .value ⟨huv, congrArg₂ _ hc hc'⟩

/-! ### States in step -/

/-- The state with another NUDGE_SRC, NSTATE and count of free draws. -/
def State.withNudges (s : State) (src : Config.NudgeSrc) (ns : Word) (dc : Nat) : State :=
  { s with cfg := { s.cfg with nudgeSrc := src }, nstate := ns, drawCount := dc }

/-- States of HEMBED's loop that differ at most in what decides their nudges and in their pixels above the LSB. MAXI is
not 0, as the loop runs only then. -/
def SameButNudges (s t : State) : Prop :=
  s.maxi ≠ 0 ∧ ∃ src ns dc m, SameLsbs s.pix m ∧ t = { s.withNudges src ns dc with pix := m }

/-- Draws on the two sides, and pixels written with the same LSBs, keep the states in step. -/
theorem SameButNudges.drawn {s t : State} (h : SameButNudges s t) {m m' : Mem Word} (hm : SameLsbs m m') :
    SameButNudges { (drawNudge s).2 with pix := m } { (drawNudge t).2 with pix := m' } := by
  obtain ⟨h0, src, ns, dc, pm, _, rfl⟩ := h
  obtain ⟨ns1, dc1, h1⟩ := drawNudge_frame s
  obtain ⟨ns2, dc2, h2⟩ := drawNudge_frame { s.withNudges src ns dc with pix := pm }
  rw [h1, h2]
  exact ⟨h0, src, ns2, dc2, m', hm, rfl⟩

/-- A block's LSBs are the same on both sides (45_syndrome_embed R266). -/
theorem SameButNudges.blockBits_eq {s t : State} (h : SameButNudges s t) (i : Nat) :
    blockBits t.pix t.a3 (t.blockStart i) t.cols = blockBits s.pix s.a3 (s.blockStart i) s.cols := by
  obtain ⟨_, _, _, _, m, hm, rfl⟩ := h
  exact hm.blockBits_eq ..

/-- A block changes the same pixel on both sides: its target depends on LSBs and the message only
(45_syndrome_embed R264). -/
theorem embedBlock_inStep {s t : State} (i : Nat) (h : SameButNudges s t) :
    EndAlike (WithSameCount SameButNudges) (embedBlock s i) (embedBlock t i) := by
  rw [embedBlock, embedBlock, h.blockBits_eq i]
  have hst := h
  obtain ⟨h0, src, ns, dc, pm, hpm, rfl⟩ := h
  refine .same (blockBits ..) fun v => .same (messageBits s i) fun m => .ite _ (.value ⟨hst, rfl⟩) ?_
  refine .bind (hpm.fetch_alike _) fun x x' hx => .value ⟨hst.drawn (hpm.write ?_ _), rfl⟩
  calc lsb (nudgePixel s.maxi x' _)
    _ = !lsb x' := lsb_nudgePixel h0 ..
    _ = !lsb x := congrArg _ hx
    _ = lsb (nudgePixel s.maxi x _) := (lsb_nudgePixel h0 ..).symm

/-! ### The command -/

/-- The results of HEMBED that its draws never reach. -/
def SameResults (t t' : State) : Prop :=
  t'.res0 = t.res0 ∧ t'.modcnt = t.modcnt ∧ t'.status = t.status ∧ SameLsbs t.pix t'.pix

/-- The same check comes first, and what follows may rely on it. -/
theorem EndAlike.check {α : Type} {R : α → α → Prop} (p : Prop) [Decidable p] (d : Detail) {k k' : Unit → Cmd α}
    (h : p → EndAlike R (k ()) (k' ())) : EndAlike R (require p d >>= k) (require p d >>= k') := by
  rw [require_bind, require_bind]
  split
  · exact h ‹p›
  · rfl

theorem cmdHembed_inStep (s : State) (src : Config.NudgeSrc) (ns : Word) (dc : Nat) :
    EndAlike SameResults (cmdHembed s) (cmdHembed (s.withNudges src ns dc)) := by
  refine .same (needMatrix s) fun _ => .same (needUsefulCode s) fun _ => .check _ _ fun h0 =>
    .same (need ..) fun _ => .same (need ..) fun _ => .same (require ..) fun _ => .same (fetchList ..) fun _ =>
    .same (require ..) fun _ => .bind (embedBlocks_endAlike embedBlock_inStep ⟨h0, src, ns, dc, s.pix, .refl _, rfl⟩)
      fun r r' hr => ?_
  obtain ⟨⟨_, _, _, _, m, hm, hst⟩, hcount⟩ := hr
  rw [hst, hcount]
  exact .value ⟨rfl, rfl, rfl, hm⟩

/-- Settles O59: the two commands end alike, and one that fails leaves all four results as they were. -/
theorem nudgeDrawsNeverReachLsbs : Obligations.NudgeDrawsNeverReachLsbs := by
  intro s t t' src ns dc h h'
  have hcmd := cmdHembed_inStep s src ns dc
  obtain hc | ⟨d, hc, rfl⟩ := exec_next.mp h <;> obtain hc' | ⟨d', hc', rfl⟩ := exec_next.mp h' <;>
    rw [show cmdHembed s = _ from hc, show cmdHembed (s.withNudges src ns dc) = _ from hc'] at hcmd
  case inl.inl => exact hcmd
  case inr.inr =>
    obtain rfl : d = d' := Stop.raise.inj hcmd
    exact ⟨rfl, rfl, rfl, fun _ => rfl⟩
  all_goals exact hcmd.elim

end Sys2Proof.Machine
end

section
/-! PROOFS. The state after reset meets the machine's invariant (00_scope R8; 10_state R54). -/

namespace Sys2Proof.Machine

/-- A memory with no written cell fits every space (10_state R55). -/
theorem Mem.Fits.nil {α : Type} (d : Nat) : Mem.Fits ([] : Mem α) d := ⟨.nil, nofun⟩

theorem PixelsFit.nil (w : Nat) : PixelsFit [] w := nofun

theorem memoriesWf_of_nil {s : State} (hp : s.pix = []) (hb : s.bit = []) (hy : s.byte = []) (hi : s.idx = []) :
    s.MemoriesWf := by
  rw [memoriesWf_iff, hp, hb, hy, hi]
  exact ⟨.nil _, .nil _, .nil _, .nil _, .nil _⟩

theorem params_default_wellFormed : Config.Params.default.WellFormed := by decide

/-- Settles O16: legal parameters, no written cell, an idle STATUS without error, no matrix, and MAXI and DRAWBUF at their
reset values. -/
theorem resetMeetsInvariant : Obligations.ResetMeetsInvariant := by
  have hmem : State.reset.MemoriesWf := memoriesWf_of_nil rfl rfl rfl rfl
  have hstatus : State.reset.StatusWf := ⟨rfl, rfl, rfl, rfl, .inl rfl, fun h => absurd rfl h⟩
  have hmatrix : State.reset.MatrixWf := ⟨nofun, fun _ => ⟨rfl, rfl⟩⟩
  have hmaxi : State.reset.maxi.toNat < 2 ^ State.reset.cfg.pixW := Nat.two_pow_pos _
  exact ⟨params_default_wellFormed, hmem, hstatus, hmatrix, hmaxi, rfl⟩

end Sys2Proof.Machine
end
